-- ==== Sys2Proof/Word.lean ====
section
/-! DEFINITION. The word types of the block: bytes of FB, LIST and the bus, the 16-bit argument registers, the 32-bit host port, and the level of a one-bit signal. -/

namespace Sys2Proof

/-- A byte of FB, LIST or the bus (00_scope.md R9: "A byte is 8 bits"). -/
abbrev Byte := BitVec 8

/-- The 16 bits an ARGn register stores (10_state.md R43), and a byte offset on the host port (R53). -/
abbrev Half := BitVec 16

/-- One host access (20_memory.md R75) and one CMD word (30_encoding.md R100). -/
abbrev Word := BitVec 32

/-- The level of a one-bit signal: `true` is 1, `false` is 0. For DC, 0 is command and 1 is data (10_state.md R52). -/
abbrev Level := Bool

end Sys2Proof
end

