-- ==== Sys2Proof/Config.lean ====
section
/-! DEFINITION. What one implementation fixes (00_scope.md R7) and the free values the spec leaves open (93_implementation_defined.md U1, U2, U4, U6). -/

namespace Sys2Proof

/-- `Y_ADDR_BYTES`: 1 or 2 bytes for each Y address of commands 0x45 and 0x4F (00_scope.md R7). -/
inductive YAddrBytes where
  | one
  | two
deriving DecidableEq, Repr

/-- The parameters of 00_scope.md R7, one field each. `LUT_LEN` and `LIST_SIZE` are fixed by the spec
(`lutLen`, `listSize`); `FB_BYTES` and `ROW_BYTES` are computed. The unit of the two reset times is the
millisecond, that of `tPoll` the source's "time unit" (log 3). -/
structure Config where
  /-- `W`, panel width in pixels -/
  width : Nat
  /-- `H`, panel height in pixels -/
  height : Nat
  /-- `LUT_FULL` -/
  lutFull : List Byte
  /-- `LUT_PARTIAL` -/
  lutPartial : List Byte
  /-- `INIT_DRIVER_OUTPUT`, parameters of 0x01 -/
  initDriverOutput : List Byte
  /-- `INIT_BOOSTER`, parameters of 0x0C -/
  initBooster : List Byte
  /-- `INIT_VCOM`, parameters of 0x2C -/
  initVcom : List Byte
  /-- `INIT_DUMMY_LINE`, parameters of 0x3A -/
  initDummyLine : List Byte
  /-- `INIT_GATE_TIME`, parameters of 0x3B -/
  initGateTime : List Byte
  /-- `INIT_DATA_ENTRY`, parameters of 0x11 -/
  initDataEntry : List Byte
  /-- `UPDATE_CTRL2`, the refresh-control byte of 0x22 -/
  updateCtrl2 : Byte
  /-- `SLEEP_DATA`, parameters of 0x10 -/
  sleepData : List Byte
  /-- `Y_ADDR_BYTES` -/
  yAddrBytes : YAddrBytes
  /-- `BUSY_ACTIVE`, the BUSY level that means busy -/
  busyActive : Level
  /-- `T_RST_ASSERT` -/
  tRstAssert : Nat
  /-- `T_RST_RELEASE` -/
  tRstRelease : Nat
  /-- `T_POLL` -/
  tPoll : Nat
  /-- `SCLK_DIV`, core clock cycles per SCLK half-period -/
  sclkDiv : Nat
  /-- `HW_REV`: no rule depends on it (93 U24) -/
  hwRev : Nat
  /-- `BLOCK_BASE`: where the block sits in the host's space; no rule depends on it (20_memory.md R70) -/
  blockBase : Nat
deriving DecidableEq, Repr

/-- `LIST_SIZE` (00_scope.md R7, 92 D11). -/
def listSize : Nat := 64

/-- `LUT_LEN` (00_scope.md R7). -/
def lutLen : Nat := 30

/-- The entries of the framebuffer window FBWIN (20_memory.md R72). -/
def fbwinSize : Nat := 8192

/-- `FB_BYTES = ceil(W*H/8)` (00_scope.md R7, 20_memory.md R71). -/
def Config.fbBytes (c : Config) : Nat := (c.width * c.height + 7) / 8

/-- `ROW_BYTES = W/8` (00_scope.md R7). -/
def Config.rowBytes (c : Config) : Nat := c.width / 8

/-- The reference LUT_FULL of 41_panel_protocol.md R186. PRESUMED: the spec marks it as general knowledge (log 2). -/
def referenceLutFull : List Byte :=
  [0x02, 0x02, 0x01, 0x11, 0x12, 0x12, 0x22, 0x22, 0x66, 0x69, 0x69, 0x59, 0x58, 0x99, 0x99] ++
  [0x88, 0x00, 0x00, 0x00, 0x00, 0xF8, 0xB4, 0x13, 0x51, 0x35, 0x51, 0x51, 0x19, 0x01, 0x00]

/-- The reference LUT_PARTIAL of 41_panel_protocol.md R186. PRESUMED: the spec marks it as general knowledge (log 2). -/
def referenceLutPartial : List Byte :=
  [0x10, 0x18, 0x18, 0x08, 0x18, 0x18, 0x08, 0x00, 0x00, 0x00, 0x00, 0x00, 0x00, 0x00, 0x00] ++
  [0x00, 0x00, 0x00, 0x00, 0x00, 0x13, 0x14, 0x44, 0x12, 0x00, 0x00, 0x00, 0x00, 0x00, 0x00]

/-- The reference configuration of 00_scope.md R7. PRESUMED: its parameter bytes, `yAddrBytes` and `busyActive` are
the spec's general-knowledge values (log 2). DESIGN CHOICE: the times, `sclkDiv`, `hwRev` and `blockBase`, for which
the spec names no reference, take the least value it allows (log 3). No statement rests on any of them: a statement
holds for every `cfg`. -/
def Config.reference : Config where
  width := 200
  height := 200
  lutFull := referenceLutFull
  lutPartial := referenceLutPartial
  initDriverOutput := [0xC7, 0x00, 0x00]
  initBooster := [0xD7, 0xD6, 0x9D]
  initVcom := [0xA8]
  initDummyLine := [0x1A]
  initGateTime := [0x08]
  initDataEntry := [0x03]
  updateCtrl2 := 0xC4
  sleepData := []
  yAddrBytes := .two
  busyActive := true
  tRstAssert := 100
  tRstRelease := 100
  tPoll := 1
  sclkDiv := 1
  hwRev := 0
  blockBase := 0

/-- FREE VALUE (93 U1, log 5): the byte of FB at index `i` after the `n`-th block reset, until an operation writes it. -/
opaque Config.fbDraw : (n i : Nat) → Byte

/-- FREE VALUE (93 U2, log 5): the byte of LIST at index `i` after the `n`-th block reset, until the host writes it. -/
opaque Config.listDraw : (n i : Nat) → Byte

/-- FREE VALUE (93 U6, log 7): whether the `n`-th racing FBWIN read sees the byte after the operation. -/
opaque Config.fbwinSeesNew : (n : Nat) → Bool

/-- FREE VALUE (93 U4, log 6): the level the panel drives on BUSY at power-on. -/
opaque Config.busyAtReset : Level

end Sys2Proof
end

