-- ==== Sys2Proof/Syntax.lean ====
section
/-! DEFINITION. The syntax: the 31 rows of spec/opcode_table.json as `Instr` (30_encoding.md R105, R110), and the host's accesses and pseudo-instructions (R114, R115). -/

namespace Sys2Proof

/-- A pixel colour: "a closed two-valued enumeration" (42_framebuffer.md R221). -/
inductive Colour where
  | black
  | white
deriving DecidableEq, Repr

/-- The lookup table an INIT selects: STATUS.MODE (10_state.md R36) and INIT's `partial` flag (30_encoding.md R102). -/
inductive Mode where
  /-- full-refresh LUT, `partial = false`, MODE = 0 -/
  | fullRefresh
  /-- partial-refresh LUT, `partial = true`, MODE = 1 -/
  | partialRefresh
deriving DecidableEq, Repr

/-- One constructor per row of the opcode table: the 16 host operations carried by a CMD word (30_encoding.md R105),
then the 15 panel command bytes the sequencer sends (R110). An operand is what R102 says the operation reads of IMM;
operands in ARGn and LIST are read from the state (R103). -/
inductive Instr where
  /-- SEND_CMD, OP 0x01: IMM is the command byte (40_bus_framer.md R139) -/
  | sendCmd (c : Byte)
  /-- SEND_DATA, OP 0x02: IMM is the data byte (R141) -/
  | sendData (d : Byte)
  /-- SEND_DATA_LIST, OP 0x03 (R143) -/
  | sendDataList
  /-- SEND_DATA_BUF, OP 0x04 (R145) -/
  | sendDataBuf
  /-- SEND_CMD_DATA, OP 0x05: IMM is the command byte (R147) -/
  | sendCmdData (c : Byte)
  /-- INIT, OP 0x10: IMM[0] is `partial` (41_panel_protocol.md R185) -/
  | init (p : Mode)
  /-- SET_FRAME_FULL, OP 0x11 (R187) -/
  | setFrameFull
  /-- SET_FRAME_RECT, OP 0x12 (R179) -/
  | setFrameRect
  /-- CLEAR_FRAME, OP 0x13: IMM[0] is the colour (R188) -/
  | clearFrame (col : Colour)
  /-- DISPLAY_FRAME, OP 0x14 (R189) -/
  | displayFrame
  /-- SLEEP, OP 0x15 (R190) -/
  | sleep
  /-- SET_PIXEL, OP 0x20: IMM[0] is the colour (42_framebuffer.md R223) -/
  | setPixel (col : Colour)
  /-- FILL, OP 0x21: IMM[0] is the colour (R225) -/
  | fill (col : Colour)
  /-- GET_PIXEL, OP 0x22 (R227) -/
  | getPixel
  /-- GET_WIDTH, OP 0x30 (41_panel_protocol.md R198) -/
  | getWidth
  /-- GET_HEIGHT, OP 0x31 (R199) -/
  | getHeight
  /-- panel command 0x01 (R200) -/
  | driverOutputControl
  /-- panel command 0x0C (R201) -/
  | boosterSoftStart
  /-- panel command 0x11 (R202) -/
  | dataEntryMode
  /-- panel command 0x2C (R203) -/
  | vcom
  /-- panel command 0x32 (R204) -/
  | lutUpload
  /-- panel command 0x3A (R205) -/
  | dummyLinePeriod
  /-- panel command 0x3B (R206) -/
  | gateTime
  /-- panel command 0x44 (R207) -/
  | addressWindowX
  /-- panel command 0x45 (R208) -/
  | addressWindowY
  /-- panel command 0x4E (R209) -/
  | cursorX
  /-- panel command 0x4F (R210) -/
  | cursorY
  /-- panel command 0x20 (R211) -/
  | activate
  /-- panel command 0x22 (R212) -/
  | displayUpdateControl
  /-- panel command 0x24 (R195) -/
  | writeRam
  /-- panel command 0x10 (R213) -/
  | deepSleep
deriving DecidableEq, Repr

/-- One line of a host program (30_encoding.md R114, R115); offsets are relative to BLOCK_BASE. -/
inductive HostAccess where
  /-- `WR offset, value` -/
  | wr (offset : Half) (value : Word)
  /-- `RD offset` -/
  | rd (offset : Half)
  /-- "repeat `RD offset` until bit 0 of the value read is 0" (R115, `WAIT`) -/
  | rdUntilClear (offset : Half)
deriving DecidableEq, Repr

/-- The pseudo-instructions of 30_encoding.md R115, with the operands as a program writes them. -/
inductive Pseudo where
  | sendCmd (c : Byte)
  | sendData (d : Byte)
  /-- `LIST i, b` -/
  | list (i : Nat) (b : Byte)
  | sendDataList (n : Nat)
  | sendDataBuf (off len : Nat)
  | sendCmdData (c : Byte) (n : Nat)
  | init (p : Mode)
  | setFrameFull
  | setFrameRect (xs ys xe ye : Int)
  | clearFrame (col : Colour)
  | displayFrame
  | sleep
  | setPixel (x y : Int) (col : Colour)
  | fill (col : Colour)
  | getPixel (x y : Int)
  | getWidth
  | getHeight
  | wait
  | clrOvr
deriving DecidableEq, Repr

end Sys2Proof
end

