-- ==== Sys2Proof/WellFormed.lean ====
section
/-! DEFINITION. Which configurations, instructions and pseudo-instructions are well formed: the constraints of 00_scope.md R8, and the operand ranges of 30_encoding.md R103, R104 and R115. -/

namespace Sys2Proof

/-- The constraints of 00_scope.md R8, in its order. "A model takes them as preconditions on its configuration."
`T_POLL > 0` and `SCLK_DIV ≥ 1` are R7's own bounds. -/
abbrev Config.WellFormed (c : Config) : Prop :=
  c.width % 8 = 0 ∧
  (8 ≤ c.width ∧ c.width ≤ 2040) ∧
  (1 ≤ c.height ∧ c.height ≤ (match c.yAddrBytes with | .one => 256 | .two => 32767)) ∧
  c.fbBytes ≤ fbwinSize ∧
  c.lutFull ≠ c.lutPartial ∧
  (c.lutFull.length = lutLen ∧ c.lutPartial.length = lutLen) ∧
  (100 ≤ c.tRstAssert ∧ 100 ≤ c.tRstRelease) ∧
  0 < c.tPoll ∧
  1 ≤ c.sclkDiv

/-- A value an int16 operand can take (30_encoding.md R104). -/
abbrev IsInt16 (v : Int) : Prop := -32768 ≤ v ∧ v ≤ 32767

/-- A value a uint16 operand can take (30_encoding.md R104). -/
abbrev IsUInt16 (v : Nat) : Prop := v < 65536

/-- The types of `Instr`'s operands are exactly what R102 lets each operation read of IMM (a byte, a flag, nothing), so
no term of `Instr` is outside the encoding and there is no further check: every instruction is well formed. -/
abbrev Instr.WellFormed (_ : Instr) : Prop := True

/-- The operand ranges of 30_encoding.md R115: LIST has entries 0 to 63 (10_state.md R44), lengths and offsets are
uint16, coordinates are int16 (R103, R104). -/
abbrev Pseudo.WellFormed : Pseudo → Prop
  | .list i _ => i < listSize
  | .sendDataList n => IsUInt16 n
  | .sendDataBuf off len => IsUInt16 off ∧ IsUInt16 len
  | .sendCmdData _ n => IsUInt16 n
  | .setFrameRect xs ys xe ye => IsInt16 xs ∧ IsInt16 ys ∧ IsInt16 xe ∧ IsInt16 ye
  | .setPixel x y _ => IsInt16 x ∧ IsInt16 y
  | .getPixel x y => IsInt16 x ∧ IsInt16 y
  | .sendCmd _ | .sendData _ | .init _ | .setFrameFull | .clearFrame _ | .displayFrame | .sleep | .fill _
  | .getWidth | .getHeight | .wait | .clrOvr => True

end Sys2Proof
end

