-- ==== Sys2Proof/Decode.lean ====
section
/-! DEFINITION. Decoding and encoding: the CMD word (30_encoding.md R100 to R107) and the panel command byte (R110, R111). Total on every word and byte; what names no instruction is rejected by name. -/

namespace Sys2Proof

/-- What the block decodes: a CMD word the host wrote (R100), or a panel command byte of the sequencer's own step
list (R110). The two spaces are separate: byte 0x10 is DEEP_SLEEP on the bus and OP 0x10 is INIT in a CMD word. -/
inductive CodeUnit where
  | cmdWord (w : Word)
  | panelByte (b : Byte)
deriving DecidableEq, Repr

/-- Why a code unit is no instruction. -/
inductive Reject where
  /-- an OP value outside the table of R105: reserved (R106, R107) -/
  | reservedOp (op : Byte)
  /-- a byte outside the table of R110 (R111: "The source names no other command") -/
  | notPanelCommand (b : Byte)
deriving DecidableEq, Repr

/-! ## Fields of the CMD word (R100) -/

/-- OP, bits 7:0. -/
def opField (w : Word) : Byte := w.extractLsb' 0 8

/-- IMM, bits 15:8. -/
def immField (w : Word) : Byte := w.extractLsb' 8 8

/-- The CMD word with the given OP and IMM and zeros in the ignored bits 31:16 ("software should write 0"). -/
def cmdWordOf (op imm : Byte) : Word := 0#16 ++ imm ++ op

/-- A flag operand is IMM[0] (R104); IMM[7:1] is ignored (R102). -/
def flagOf (imm : Byte) : Bool := imm.getLsbD 0

/-- IMM[0] as a colour: 0 is BLACK, 1 is WHITE (R113). -/
def colourOfFlag (b : Bool) : Colour := if b then .white else .black

/-- IMM[0] as INIT's `partial`: 1 is the partial-refresh LUT (R102). -/
def modeOfFlag (b : Bool) : Mode := if b then .partialRefresh else .fullRefresh

/-- The IMM byte of a colour, ignored bits 0 (R113). -/
def colourImm : Colour → Byte
  | .black => 0
  | .white => 1

/-- The IMM byte of INIT's `partial`, ignored bits 0 (R102). -/
def modeImm : Mode → Byte
  | .fullRefresh => 0
  | .partialRefresh => 1

/-! ## Decoding -/

/-- The operation an OP and IMM select: the table of R105, on all 8 bits of OP (R106). -/
def decodeOp (op imm : Byte) : Except Reject Instr :=
  match op.toNat with
  | 0x01 => .ok (.sendCmd imm)
  | 0x02 => .ok (.sendData imm)
  | 0x03 => .ok .sendDataList
  | 0x04 => .ok .sendDataBuf
  | 0x05 => .ok (.sendCmdData imm)
  | 0x10 => .ok (.init (modeOfFlag (flagOf imm)))
  | 0x11 => .ok .setFrameFull
  | 0x12 => .ok .setFrameRect
  | 0x13 => .ok (.clearFrame (colourOfFlag (flagOf imm)))
  | 0x14 => .ok .displayFrame
  | 0x15 => .ok .sleep
  | 0x20 => .ok (.setPixel (colourOfFlag (flagOf imm)))
  | 0x21 => .ok (.fill (colourOfFlag (flagOf imm)))
  | 0x22 => .ok .getPixel
  | 0x30 => .ok .getWidth
  | 0x31 => .ok .getHeight
  | _ => .error (.reservedOp op)

/-- A CMD word: "No field other than OP takes part in selecting the operation" (R106). -/
def decodeCmd (w : Word) : Except Reject Instr := decodeOp (opField w) (immField w)

/-- A panel command byte: the table of R110. -/
def decodePanel (b : Byte) : Except Reject Instr :=
  match b.toNat with
  | 0x01 => .ok .driverOutputControl
  | 0x0C => .ok .boosterSoftStart
  | 0x11 => .ok .dataEntryMode
  | 0x2C => .ok .vcom
  | 0x32 => .ok .lutUpload
  | 0x3A => .ok .dummyLinePeriod
  | 0x3B => .ok .gateTime
  | 0x44 => .ok .addressWindowX
  | 0x45 => .ok .addressWindowY
  | 0x4E => .ok .cursorX
  | 0x4F => .ok .cursorY
  | 0x20 => .ok .activate
  | 0x22 => .ok .displayUpdateControl
  | 0x24 => .ok .writeRam
  | 0x10 => .ok .deepSleep
  | _ => .error (.notPanelCommand b)

/-- The decoder. -/
def decode : CodeUnit → Except Reject Instr
  | .cmdWord w => decodeCmd w
  | .panelByte b => decodePanel b

/-! ## Encoding (from the same tables) -/

/-- The encoder: the CMD word of R105 with every ignored bit 0, or the command byte of R110. -/
def encode : Instr → CodeUnit
  | .sendCmd c => .cmdWord (cmdWordOf 0x01 c)
  | .sendData d => .cmdWord (cmdWordOf 0x02 d)
  | .sendDataList => .cmdWord (cmdWordOf 0x03 0)
  | .sendDataBuf => .cmdWord (cmdWordOf 0x04 0)
  | .sendCmdData c => .cmdWord (cmdWordOf 0x05 c)
  | .init p => .cmdWord (cmdWordOf 0x10 (modeImm p))
  | .setFrameFull => .cmdWord (cmdWordOf 0x11 0)
  | .setFrameRect => .cmdWord (cmdWordOf 0x12 0)
  | .clearFrame col => .cmdWord (cmdWordOf 0x13 (colourImm col))
  | .displayFrame => .cmdWord (cmdWordOf 0x14 0)
  | .sleep => .cmdWord (cmdWordOf 0x15 0)
  | .setPixel col => .cmdWord (cmdWordOf 0x20 (colourImm col))
  | .fill col => .cmdWord (cmdWordOf 0x21 (colourImm col))
  | .getPixel => .cmdWord (cmdWordOf 0x22 0)
  | .getWidth => .cmdWord (cmdWordOf 0x30 0)
  | .getHeight => .cmdWord (cmdWordOf 0x31 0)
  | .driverOutputControl => .panelByte 0x01
  | .boosterSoftStart => .panelByte 0x0C
  | .dataEntryMode => .panelByte 0x11
  | .vcom => .panelByte 0x2C
  | .lutUpload => .panelByte 0x32
  | .dummyLinePeriod => .panelByte 0x3A
  | .gateTime => .panelByte 0x3B
  | .addressWindowX => .panelByte 0x44
  | .addressWindowY => .panelByte 0x45
  | .cursorX => .panelByte 0x4E
  | .cursorY => .panelByte 0x4F
  | .activate => .panelByte 0x20
  | .displayUpdateControl => .panelByte 0x22
  | .writeRam => .panelByte 0x24
  | .deepSleep => .panelByte 0x10

/-! ## The host's view of the opcode table (log 12) -/

/-- The code unit of an instruction the table gives `nbits` bits. A row of 8 bits is a panel command byte, unless its
byte is none of R110's: then, as every row with more bits, it is a CMD word whose remaining bits are 0. -/
def tableUnit (nbits w : Nat) : CodeUnit :=
  if nbits ≤ 8 then
    match decodePanel (BitVec.ofNat 8 w) with
    | .ok _ => .panelByte (BitVec.ofNat 8 w)
    | .error _ => .cmdWord (BitVec.ofNat 32 w)
  else .cmdWord (BitVec.ofNat 32 w)

/-- The instruction the decoder reads from the bits `w` of a table row of `nbits` bits. -/
def decodeTableWord (nbits w : Nat) : Option Instr := (decode (tableUnit nbits w)).toOption

end Sys2Proof
end

