-- ==== Sys2Proof/Machine/State.lean ====
section
/-! DEFINITION. The state of the block (10_state.md R30, R45, R52), the parts it is made of, the reasons a step can stop, and reset (R55). -/

namespace Sys2Proof.Machine

/-- A byte memory (FB or LIST): the bytes written since the last block reset, as (index, byte) pairs with the indices
strictly rising (`Memory.wf`). An index that is not listed has not been written: it has no byte of its own here and
reads as the free draw of that reset (log 5). -/
abbrev Memory := List Host.Cell

/-- STATUS.PSTATE (10_state.md R35). The reserved values 4 to 7 do not exist (R49). -/
inductive PState where
  | uninitialized
  | initialized
  | displaying
  | asleep
deriving DecidableEq, Repr

/-- STATUS.ERR (60_exceptions.md R241). The reserved values 5 to 15 do not exist (R49). -/
inductive ErrCode where
  | ok
  | invalidArg
  | outOfBounds
  | notInit
  | badOp
deriving DecidableEq, Repr

/-- The bytes of one transaction (40_bus_framer.md R132), named by where they come from; each is read when it is
shifted out (41_panel_protocol.md R196). -/
inductive Payload where
  /-- the (DC, byte) pairs themselves -/
  | bytes (l : List (Level × Byte))
  /-- data bytes LIST[0 .. n-1] (R143) -/
  | listData (n : Nat)
  /-- a command byte, then data bytes LIST[0 .. n-1] (R147) -/
  | cmdList (c : Byte) (n : Nat)
  /-- data bytes FB[base .. base+len-1] (R145) -/
  | fbData (base len : Nat)
  /-- `repeat(b, n)` as data bytes (41_panel_protocol.md R188) -/
  | repeated (b : Byte) (n : Nat)
deriving DecidableEq, Repr

/-- What the last step of an operation writes beside BUSY and ERR (41_panel_protocol.md R161, 92 D45). -/
inductive Finish where
  /-- PSTATE and MODE are kept -/
  | plain
  /-- INIT: MODE <- p, PSTATE <- INITIALIZED (R185) -/
  | initDone (p : Mode)
  /-- a frame transfer: PSTATE <- INITIALIZED (R179, R187, R188) -/
  | toInitialized
  /-- SLEEP: PSTATE <- ASLEEP (R190) -/
  | toAsleep
deriving DecidableEq, Repr

/-- One step of an operation's pseudocode (00_scope.md R11, 10_state.md R45). -/
inductive SeqStep where
  /-- the first step of every operation: decode OP and IMM and run the operation (30_encoding.md R101, R106) -/
  | fetch
  /-- send a panel command of R110 with its parameters -/
  | panel (c : Byte)
  /-- one transaction (40_bus_framer.md R132) -/
  | txn (p : Payload)
  /-- RST_N <- v (41_panel_protocol.md R165) -/
  | rst (v : Level)
  /-- DELAY(t) begins; its event is recorded here (log 21) -/
  | delay (t : Nat)
  /-- the count-down of a DELAY (10_state.md R46) -/
  | countdown
  /-- WaitIdle begins: WAIT <- 1 (41_panel_protocol.md R166) -/
  | waitIdle
  /-- the loop of WaitIdle: sample BUSY (R166) -/
  | sample
  /-- the row loop of SET_FRAME_RECT (R179) -/
  | rowLoop
  /-- DISPLAY_FRAME's PSTATE <- DISPLAYING (R189) -/
  | setDisplaying
  /-- the operation's end: `done` (00_scope.md R11) with the state it leaves -/
  | finish (f : Finish)
deriving DecidableEq, Repr

/-- Where the framer stands inside a transaction: the lines of 40_bus_framer.md R131 and R132 (log 11). -/
inductive FramePhase where
  /-- CS_N <- 0 ; wait T -/
  | csLow
  /-- DC <- dc -/
  | dcSet
  /-- MOSI <- b[i] ; wait T -/
  | mosi
  /-- SCLK <- 1 ; wait T -/
  | rise
  /-- SCLK <- 0 -/
  | fall
  /-- wait T after the last byte -/
  | trail
  /-- CS_N <- 1 ; wait 2*T -/
  | csHigh
deriving DecidableEq, Repr

/-- An event of the panel-side trace (00_scope.md R13). -/
inductive TraceEvent where
  | cs (v : Level)
  | byte (dc : Level) (b : Byte)
  | rst (v : Level)
  | delay (t : Nat)
  | sample (v : Level)
deriving DecidableEq, Repr

/-- What moves next (log 4): the host (00_scope.md R5(a)), the panel (R5(c)), block reset (70_reset_and_hazards.md
R270), or the sequencer (R5(b)). -/
inductive Input where
  /-- a host read of the word at a byte offset -/
  | hostRead (offset : Half)
  /-- a host write of the word at a byte offset -/
  | hostWrite (offset : Half) (value : Word)
  /-- the host repeats a read of the word at a byte offset until bit 0 of the value read is 0 (30_encoding.md R115,
  `WAIT`; log 19) -/
  | hostPoll (offset : Half)
  /-- the panel drives BUSY to a level -/
  | panelBusy (v : Level)
  /-- `rst_n` is sampled low -/
  | blockReset
  /-- the sequencer takes one step -/
  | seqStep
deriving DecidableEq, Repr

/-- Why the machine stops with a fault. The spec gives the block no trap: these guard states no run reaches (log 15),
and `Obligations.InvariantStatesNeverStop` says so. -/
inductive Fault where
  /-- raised by the framer (`payloadByte`) when it would read a framebuffer byte outside 0 .. FB_BYTES-1
  (20_memory.md R71: "No sequencer access uses any other index"); safe -/
  | noSuchFbByte (i : Nat)
  /-- raised by the framer (`payloadByte`) when it would read a LIST byte outside 0 .. 63 (20_memory.md R70); safe -/
  | noSuchListByte (i : Nat)
  /-- raised by the framer (`payloadByte`) when a transaction has no byte at its position
  (40_bus_framer.md R130: "No primitive emits an empty transaction"); safe -/
  | noSuchPayloadByte (k : Nat)
deriving DecidableEq, Repr

/-- Why the machine refuses. -/
inductive Refusal where
  /-- an instruction of the table that has no meaning yet; raised by no arm; safe -/
  | notModelled (mnemonic : String)
  /-- raised by the sequencer when its step names a byte that is no panel command of 30_encoding.md R110
  (R111: "The block never sends any other command byte on its own"); no run reaches it (log 15); safe -/
  | notPanelCommand (c : Byte)
deriving DecidableEq, Repr

/-- The state. Signals are levels (`true` = 1). -/
structure State where
  /-- the parameters of 00_scope.md R7; no step changes them (log 1) -/
  cfg : Config
  /-- STATUS.BUSY (10_state.md R34) -/
  busy : Bool
  /-- STATUS.PSTATE (R35) -/
  pstate : PState
  /-- STATUS.MODE (R36) -/
  mode : Mode
  /-- STATUS.WAIT (R37) -/
  wait : Bool
  /-- STATUS.ERR (R38) -/
  err : ErrCode
  /-- STATUS.OVR (R39) -/
  ovr : Bool
  /-- the level of the BUSY input: STATUS.BUSYIN (R40) -/
  busyIn : Level
  /-- RESULT[15:0] (R42) -/
  result : Half
  /-- ARG0 (R43) -/
  arg0 : Half
  /-- ARG1 (R43) -/
  arg1 : Half
  /-- ARG2 (R43) -/
  arg2 : Half
  /-- ARG3 (R43) -/
  arg3 : Half
  /-- LIST (R44) -/
  list : Memory
  /-- FB (R47, 20_memory.md R71) -/
  fb : Memory
  /-- OP latched by the starting CMD write (R45) -/
  op : Byte
  /-- IMM latched by the starting CMD write (R45) -/
  imm : Byte
  /-- `seq` (R45): the steps still to run, the current one first; empty = idle (log 10) -/
  seq : List SeqStep
  /-- the framer's position in a transaction, part of `seq` (log 11) -/
  phase : FramePhase
  /-- `byte_cnt` (R45): bytes of the current transaction already sent -/
  byteCnt : Nat
  /-- `row_cnt` (R45): rows of SET_FRAME_RECT already begun -/
  rowCnt : Nat
  /-- `bit_cnt` (R45): the bit being shifted, 7 first -/
  bitCnt : Nat
  /-- `delay_cnt` (R45): the remaining time of a DELAY -/
  delayCnt : Nat
  /-- CS_N (R52) -/
  csN : Level
  /-- DC (R52) -/
  dc : Level
  /-- SCLK (R52) -/
  sclk : Level
  /-- MOSI (R52) -/
  mosi : Level
  /-- RST_N (R52) -/
  rstN : Level
  /-- the panel-side event trace (00_scope.md R6, R13), oldest first; an observer (log 17) -/
  trace : List TraceEvent
  /-- what host reads returned (00_scope.md R6), as (offset, value), oldest first; an observer (log 17) -/
  reads : List (Half × Word)
  /-- core clock cycles spent in the waits of 40_bus_framer.md R131 and R132; an observer (log 16) -/
  busTime : Nat
  /-- what moves next; when empty, the sequencer moves (log 4) -/
  inputs : List Input
  /-- block resets so far: the index of the free draws of FB and LIST (log 5) -/
  resets : Nat
  /-- racing FBWIN reads so far: the index of their free draws (log 7) -/
  draws : Nat
deriving DecidableEq, Repr

/-- The state right after power-on (10_state.md R55, 70_reset_and_hazards.md R272) in the configuration `c`, with the
panel driving BUSY to `v`. The sequencer fields other than `seq` are "unspecified and unread" and take 0 (log 9). -/
def State.resetWith (c : Config) (v : Level) : State where
  cfg := c
  busy := false
  pstate := .uninitialized
  mode := .fullRefresh
  wait := false
  err := .ok
  ovr := false
  busyIn := v
  result := 0
  arg0 := 0
  arg1 := 0
  arg2 := 0
  arg3 := 0
  list := []
  fb := []
  op := 0
  imm := 0
  seq := []
  phase := .csLow
  byteCnt := 0
  rowCnt := 0
  bitCnt := 0
  delayCnt := 0
  csN := true
  dc := true
  sclk := false
  mosi := false
  rstN := true
  trace := []
  reads := []
  busTime := 0
  inputs := []
  resets := 0
  draws := 0

/-- Reset: the reference configuration (log 1, log 2, log 3), with the BUSY input at whatever level the panel drives
(log 6), FB and LIST unwritten (log 5), and nothing scheduled (log 13). -/
def State.reset : State := State.resetWith Config.reference Config.busyAtReset

end Sys2Proof.Machine
end

