-- ==== Sys2Proof/Machine/Ops.lean ====
section
/-! DEFINITION. The shared operations: byte memories, the framebuffer and LIST, the bytes of a transaction, starting and ending an operation, raising an error (60_exceptions.md R243), and the events of a transaction. -/

namespace Sys2Proof.Machine

/-! ## Byte memories -/

/-- The canonical form: indices strictly rising. An unlisted index has no written byte, so no entry can equal what an
unlisted index holds, and equal histories of writes leave equal lists (log 5). -/
abbrev Memory.wf (m : Memory) : Prop := m.Pairwise (fun x y => x.1 < y.1)

/-- The byte written at index `a` since the last block reset, if any. -/
def Memory.lookup : Memory → Nat → Option Byte
  | [], _ => none
  | (k, b) :: rest, a => if k = a then some b else Memory.lookup rest a

/-- Write one byte, keeping the canonical form. -/
def Memory.write : Memory → Nat → Byte → Memory
  | [], a, v => [(a, v)]
  | (k, b) :: rest, a, v =>
    if a < k then (a, v) :: (k, b) :: rest
    else if a = k then (a, v) :: rest
    else (k, b) :: Memory.write rest a v

/-- Write `v` at every index 0 .. n-1 (42_framebuffer.md R225); indices from `n` on are kept. -/
def Memory.fill (m : Memory) (n : Nat) (v : Byte) : Memory :=
  (List.range n).map (fun i => (i, v)) ++ m.filter (fun c => n ≤ c.1)

/-! ## FB and LIST -/

/-- The byte a framebuffer memory `m` holds at index `i`: what was written, else this reset's free draw (93 U1). -/
def State.fbByteOf (s : State) (m : Memory) (i : Nat) : Byte := (Memory.lookup m i).getD (Config.fbDraw s.resets i)

/-- FB[i] (00_scope.md R11). -/
def State.fbByte (s : State) (i : Nat) : Byte := s.fbByteOf s.fb i

/-- LIST[i] (00_scope.md R11): what the host wrote, else this reset's free draw (93 U2). -/
def State.listByte (s : State) (i : Nat) : Byte := (Memory.lookup s.list i).getD (Config.listDraw s.resets i)

/-! ## The bytes of a transaction -/

/-- How many bytes a transaction has. -/
def Payload.length : Payload → Nat
  | .bytes l => l.length
  | .listData n => n
  | .cmdList _ n => n + 1
  | .fbData _ len => len
  | .repeated _ n => n

/-- FB[i] as a data byte of a transaction; an index outside FB does not exist (20_memory.md R71). -/
def fbPayloadByte (s : State) (i : Nat) : Except Fault (Level × Byte) :=
  if i < s.cfg.fbBytes then .ok (true, s.fbByte i) else .error (.noSuchFbByte i)

/-- LIST[i] as a data byte of a transaction; an index outside LIST does not exist (20_memory.md R70). -/
def listPayloadByte (s : State) (i : Nat) : Except Fault (Level × Byte) :=
  if i < listSize then .ok (true, s.listByte i) else .error (.noSuchListByte i)

/-- The (DC, byte) pair at position `k` of a transaction. -/
def payloadByte (s : State) (p : Payload) (k : Nat) : Except Fault (Level × Byte) :=
  if k < p.length then
    match p with
    | .bytes l =>
      match l[k]? with
      | some x => .ok x
      | none => .error (.noSuchPayloadByte k)
    | .listData _ => listPayloadByte s k
    | .cmdList c _ =>
      match k with
      | 0 => .ok (false, c)
      | j + 1 => listPayloadByte s j
    | .fbData base _ => fbPayloadByte s (base + k)
    | .repeated b _ => .ok (true, b)
  else .error (.noSuchPayloadByte k)

/-! ## Starting and ending an operation -/

/-- The operation's step list becomes the sequencer's, from its first step, with the framer at the start of a
transaction and the row loop at row 0 (10_state.md R45). -/
def State.load (steps : List SeqStep) (s : State) : State :=
  { s with seq := steps, phase := .csLow, rowCnt := 0 }

/-- `SendCommandWithData(c, l)` (40_bus_framer.md R136) becomes the sequencer's current step: ONE transaction of the
command byte (DC = 0) and the parameter bytes (DC = 1) (R138). -/
def State.issue (c : Byte) (params : List Byte) (s : State) : State :=
  { s with seq := .txn (.bytes ((false, c) :: params.map (fun b => (true, b)))) :: s.seq, phase := .csLow }

/-- `raise Error(code)` (00_scope.md R11, 60_exceptions.md R243): the operation ends at once; nothing else changes. -/
def State.raise (code : ErrCode) (s : State) : State :=
  { s with err := code, busy := false, seq := [] }

/-- `done` (00_scope.md R11): the operation ends normally, ERR <- 0. -/
def State.done (s : State) : State :=
  { s with err := .ok, busy := false, seq := [] }

/-- The last step of an operation: its PSTATE and MODE update (41_panel_protocol.md R161, 92 D45), then `done`. -/
def State.finish (f : Finish) (s : State) : State :=
  match f with
  | .plain => s.done
  | .initDone p => { s.done with mode := p, pstate := .initialized }
  | .toInitialized => { s.done with pstate := .initialized }
  | .toAsleep => { s.done with pstate := .asleep }

/-! ## The events of a transaction -/

/-- `Txn(l)` as the event list of 00_scope.md R13. -/
def txnEvents (l : List (Level × Byte)) : List TraceEvent :=
  .cs false :: l.map (fun x => .byte x.1 x.2) ++ [.cs true]

/-- The events of `SendCommandWithData(c, l)` (40_bus_framer.md R136). -/
def cmdEvents (c : Byte) (params : List Byte) : List TraceEvent :=
  txnEvents ((false, c) :: params.map (fun b => (true, b)))

/-- The events of `SendDataSeq(l)` (40_bus_framer.md R135). -/
def dataEvents (l : List Byte) : List TraceEvent :=
  txnEvents (l.map (fun b => (true, b)))

/-- `FB[i .. i+n-1]` (00_scope.md R9). -/
def State.fbSlice (s : State) (i n : Nat) : List Byte := (List.range n).map (fun k => s.fbByte (i + k))

/-- `LIST[0 .. n-1]` (00_scope.md R9). -/
def State.listSlice (s : State) (n : Nat) : List Byte := (List.range n).map s.listByte

end Sys2Proof.Machine
end

