-- ==== Sys2Proof/Machine/Operands.lean ====
section
/-! DEFINITION. Every operand form: argument registers as int16 and uint16 (30_encoding.md R104), pixel coordinates (20_memory.md R73), rectangles and their rounding (41_panel_protocol.md R175 to R178), windows and panel addresses (R162, R163, R167). -/

namespace Sys2Proof.Machine

/-! ## ARGn and the latched CMD word -/

/-- An int16 operand, `sext_16` (30_encoding.md R104, 00_scope.md R10). -/
def sext16 (v : Half) : Int := v.toInt

/-- A uint16 operand, `zext_16` (30_encoding.md R104). -/
def zext16 (v : Half) : Nat := v.toNat

/-- The CMD word the sequencer holds: OP and IMM as latched (10_state.md R45), ignored bits 0. -/
def State.latchedWord (s : State) : Word := cmdWordOf s.op s.imm

/-! ## Pixels (20_memory.md R73) -/

/-- `0 ≤ x < W and 0 ≤ y < H` (42_framebuffer.md R222). -/
abbrev InRange (c : Config) (x y : Int) : Prop := 0 ≤ x ∧ x < c.width ∧ 0 ≤ y ∧ y < c.height

/-- `bit_index = y*W + x`, for an in-range pair. -/
def bitIndex (c : Config) (x y : Int) : Nat := (y * c.width + x).toNat

/-- The byte a bit index lies in. -/
def byteOfBit (i : Nat) : Nat := i / 8

/-- The bit number inside that byte: 7 is the leftmost pixel. -/
def bitInByte (i : Nat) : Nat := 7 - i % 8

/-- A colour as a pixel bit: BLACK 0, WHITE 1 (42_framebuffer.md R221). -/
def colourBit : Colour → Bool
  | .black => false
  | .white => true

/-- A colour as a fill byte: 0x00 for BLACK, 0xFF for WHITE (30_encoding.md R113). -/
def colourFill : Colour → Byte
  | .black => 0x00
  | .white => 0xFF

/-- `(v AND NOT (1 << k)) OR (col << k)` (42_framebuffer.md R223). -/
def putBit (v : Byte) (k : Nat) (col : Bool) : Byte :=
  (v &&& ~~~(1#8 <<< k)) ||| ((BitVec.ofBool col).setWidth 8 <<< k)

/-! ## Rectangles (41_panel_protocol.md R175 to R178) -/

/-- `floor8` (00_scope.md R12). -/
def floor8 (x : Int) : Int := 8 * (x / 8)

/-- `ceil8` (00_scope.md R12). -/
def ceil8 (x : Int) : Int := 8 * ((x + 7) / 8)

/-- The four operands of SET_FRAME_RECT (R175). -/
structure Rect where
  xs : Int
  ys : Int
  xe : Int
  ye : Int
deriving DecidableEq, Repr

/-- ARG0 to ARG3 as SET_FRAME_RECT reads them (R175). -/
def State.rect (s : State) : Rect := ⟨sext16 s.arg0, sext16 s.arg1, sext16 s.arg2, sext16 s.arg3⟩

/-- `xs8` (R176). -/
def Rect.xs8 (r : Rect) : Int := floor8 r.xs

/-- `xe8` (R176). -/
def Rect.xe8 (r : Rect) : Int := ceil8 r.xe

/-- `width` (R176). -/
def Rect.width (r : Rect) : Int := r.xe8 - r.xs8

/-- `height` (R176). -/
def Rect.height (r : Rect) : Int := r.ye - r.ys + 1

/-- The sign and order check of R175. -/
abbrev Rect.Malformed (r : Rect) : Prop :=
  r.xs < 0 ∨ r.ys < 0 ∨ r.xe < 0 ∨ r.ye < 0 ∨ r.xe < r.xs ∨ r.ye < r.ys

/-- The extent check of R178. -/
abbrev Rect.OutOfBounds (c : Config) (r : Rect) : Prop :=
  (c.width : Int) < r.xe8 ∨ (c.height : Int) - 1 < r.ye ∨ (c.width : Int) < r.width ∨ (c.height : Int) < r.height

/-- The argument checks of SET_FRAME_RECT in the order of R179 and 60_exceptions.md R244; `ok` if none fails. -/
def rectCheck (c : Config) (r : Rect) : ErrCode :=
  if r.Malformed then .invalidArg
  else if r.OutOfBounds c then .outOfBounds
  else if r.width = 0 then .invalidArg
  else .ok

/-- Bytes per row of the rounded rectangle, `width div 8` (R179). -/
def Rect.rowLen (r : Rect) : Nat := (r.width / 8).toNat

/-- The first FB byte of row `r` of the rectangle, `(ys + r) * ROW_BYTES + xs8 div 8` (R179, R180). -/
def Rect.rowBase (c : Config) (rc : Rect) (r : Nat) : Nat :=
  ((rc.ys + r) * c.rowBytes + rc.xs8 / 8).toNat

/-! ## Address windows and panel addresses -/

/-- The arguments of `SetWindow`; its first column group and first row are those of `SetCursor` too (R167, R168). -/
structure Window where
  xb0 : Nat
  xb1 : Nat
  y0 : Nat
  y1 : Nat
deriving DecidableEq, Repr

/-- The whole panel (R170). -/
def fullWindow (c : Config) : Window := ⟨0, c.rowBytes - 1, 0, c.height - 1⟩

/-- The rounded rectangle: `SetWindow(xs8 div 8, xe8 div 8 - 1, ys, ye)` (R179). -/
def rectWindow (r : Rect) : Window := ⟨(r.xs8 / 8).toNat, (r.xe8 / 8 - 1).toNat, r.ys.toNat, r.ye.toNat⟩

/-- The window of the running operation: SET_FRAME_RECT (OP 0x12) programs its rounded rectangle (R179), every other
operation the whole panel (R170). Its operands cannot change while it runs (20_memory.md R87). -/
def State.window (s : State) : Window := if s.op = 0x12 then rectWindow s.rect else fullWindow s.cfg

/-- An X address: one byte holding a column group number `x div 8` (R162). -/
def xaddr (xb : Nat) : Byte := BitVec.ofNat 8 xb

/-- A Y address, low byte first (R163). -/
def yaddr (c : Config) (y : Nat) : List Byte :=
  match c.yAddrBytes with
  | .one => [BitVec.ofNat 8 (y % 256)]
  | .two => [BitVec.ofNat 8 (y % 256), BitVec.ofNat 8 (y / 256 % 256)]

end Sys2Proof.Machine
end

