-- ==== Sys2Proof/Machine/Flags.lean ====
section
/-! DEFINITION. The status fields (10_state.md R33 to R40, R50) and the words built of them; the gate on the panel state (41_panel_protocol.md R164). -/

namespace Sys2Proof.Machine

/-- The code of PSTATE (10_state.md R35). -/
def PState.code : PState → BitVec 3
  | .uninitialized => 0
  | .initialized => 1
  | .displaying => 2
  | .asleep => 3

/-- The code of ERR (60_exceptions.md R241). -/
def ErrCode.code : ErrCode → BitVec 4
  | .ok => 0
  | .invalidArg => 1
  | .outOfBounds => 2
  | .notInit => 3
  | .badOp => 4

/-- The MODE bit (10_state.md R36). -/
def modeBit : Mode → BitVec 1
  | .fullRefresh => 0
  | .partialRefresh => 1

/-- What a read of STATUS returns: the field layout of 10_state.md R33, bit 31 first. -/
def State.statusWord (s : State) : Word :=
  0#14 ++ BitVec.ofBool s.busyIn ++ BitVec.ofBool s.ovr ++ 0#4 ++ s.err.code ++ 0#2 ++ BitVec.ofBool s.wait ++
    modeBit s.mode ++ s.pstate.code ++ BitVec.ofBool s.busy

/-- What a read of GEOM returns: H in bits 31:16, W in bits 15:0 (10_state.md R32). -/
def geomWord (c : Config) : Word := BitVec.ofNat 16 c.height ++ BitVec.ofNat 16 c.width

/-- `PSTATE ∈ {INITIALIZED, DISPLAYING}`: the gate of the panel operations (41_panel_protocol.md R164). -/
def PState.ready : PState → Bool
  | .initialized | .displaying => true
  | .uninitialized | .asleep => false

/-- The gate: NOT_INIT before any other check (41_panel_protocol.md R164, 60_exceptions.md R244), else `k`. -/
def gated (s : State) (k : State) : State := if s.pstate.ready then k else s.raise .notInit

end Sys2Proof.Machine
end

