-- ==== Sys2Proof/Machine/Framebuffer.lean ====
section
/-! DEFINITION. The framebuffer operations (42_framebuffer.md R223, R225, R227): accepted in every panel state, no panel-side event (R226). Each has its whole effect in one sequencer step (log 8). -/

namespace Sys2Proof.Machine

open Host (Outcome)

/-- FB after SET_PIXEL (42_framebuffer.md R223): a one-byte read-modify-write in range, nothing out of range (R224). -/
def State.fbAfterSetPixel (s : State) (col : Colour) : Memory :=
  if InRange s.cfg (sext16 s.arg0) (sext16 s.arg1) then
    Memory.write s.fb (byteOfBit (bitIndex s.cfg (sext16 s.arg0) (sext16 s.arg1)))
      (putBit (s.fbByte (byteOfBit (bitIndex s.cfg (sext16 s.arg0) (sext16 s.arg1))))
        (bitInByte (bitIndex s.cfg (sext16 s.arg0) (sext16 s.arg1))) (colourBit col))
  else s.fb

/-- FB after FILL (42_framebuffer.md R225): every byte is the colour's fill byte. -/
def State.fbAfterFill (s : State) (col : Colour) : Memory := Memory.fill s.fb s.cfg.fbBytes (colourFill col)

/-- The value GET_PIXEL reads (42_framebuffer.md R227): the pixel bit in range, the marker 2 out of range. -/
def State.pixelValue (s : State) : Half :=
  if InRange s.cfg (sext16 s.arg0) (sext16 s.arg1) then
    (BitVec.ofBool ((s.fbByte (byteOfBit (bitIndex s.cfg (sext16 s.arg0) (sext16 s.arg1)))).getLsbD
      (bitInByte (bitIndex s.cfg (sext16 s.arg0) (sext16 s.arg1))))).setWidth 16
  else 2

/-- SET_PIXEL (42_framebuffer.md R223, R224). -/
def execSetPixel (col : Colour) (s : State) : Outcome State Fault Refusal :=
  .next { s.done with fb := s.fbAfterSetPixel col }

/-- FILL (42_framebuffer.md R225). -/
def execFill (col : Colour) (s : State) : Outcome State Fault Refusal :=
  .next { s.done with fb := s.fbAfterFill col }

/-- GET_PIXEL (42_framebuffer.md R227). -/
def execGetPixel (s : State) : Outcome State Fault Refusal :=
  .next { s.done with result := s.pixelValue }

/-- FB as it stands after the running operation: only SET_PIXEL (OP 0x20) and FILL (OP 0x21) write it
(10_state.md R47). -/
def State.fbAfterRunning (s : State) : Memory :=
  match s.op.toNat with
  | 0x20 => s.fbAfterSetPixel (colourOfFlag (flagOf s.imm))
  | 0x21 => s.fbAfterFill (colourOfFlag (flagOf s.imm))
  | _ => s.fb

end Sys2Proof.Machine
end

