-- ==== Sys2Proof/Machine/Framer.lean ====
section
/-! DEFINITION. The five host operations of the bus framer (40_bus_framer.md R139 to R147). Each is accepted in every panel state and never changes PSTATE or MODE (R140). -/

namespace Sys2Proof.Machine

open Host (Outcome)

/-- SEND_CMD (40_bus_framer.md R139): `SendCommand(c)`. -/
def execSendCmd (c : Byte) (s : State) : Outcome State Fault Refusal :=
  .next (s.load [.txn (.bytes [(false, c)]), .finish .plain])

/-- SEND_DATA (40_bus_framer.md R141): `SendData(d)`. -/
def execSendData (d : Byte) (s : State) : Outcome State Fault Refusal :=
  .next (s.load [.txn (.bytes [(true, d)]), .finish .plain])

/-- SEND_DATA_LIST (40_bus_framer.md R143, R144): `SendDataSeq(LIST[0 .. n-1])`, one transaction, 1 ≤ n ≤ 64. -/
def execSendDataList (s : State) : Outcome State Fault Refusal :=
  if zext16 s.arg0 = 0 ∨ listSize < zext16 s.arg0 then .next (s.raise .invalidArg)
  else .next (s.load [.txn (.listData (zext16 s.arg0)), .finish .plain])

/-- SEND_DATA_BUF (40_bus_framer.md R145, R146): `SendDataSeq(FB[off .. off+len-1])`, one transaction; the range check
is over the integers. -/
def execSendDataBuf (s : State) : Outcome State Fault Refusal :=
  if zext16 s.arg1 = 0 then .next (s.raise .invalidArg)
  else if s.cfg.fbBytes < zext16 s.arg0 + zext16 s.arg1 then .next (s.raise .invalidArg)
  else .next (s.load [.txn (.fbData (zext16 s.arg0) (zext16 s.arg1)), .finish .plain])

/-- SEND_CMD_DATA (40_bus_framer.md R147, R138): `SendCommandWithData(c, LIST[0 .. n-1])`, ONE transaction, n ≤ 64. -/
def execSendCmdData (c : Byte) (s : State) : Outcome State Fault Refusal :=
  if listSize < zext16 s.arg0 then .next (s.raise .invalidArg)
  else .next (s.load [.txn (.cmdList c (zext16 s.arg0)), .finish .plain])

end Sys2Proof.Machine
end

