-- ==== Sys2Proof/Machine/Panel.lean ====
section
/-! DEFINITION. The panel operations and queries (41_panel_protocol.md R179, R185 to R190, R198, R199) over the primitives of R165 to R170. A step `.panel c` sends panel command `c` with the parameters of its own rule (PanelCmd.lean). -/

namespace Sys2Proof.Machine

open Host (Outcome)

/-! ## Primitives -/

/-- `PanelReset()` (41_panel_protocol.md R165). -/
def panelReset (c : Config) : List SeqStep := [.rst false, .delay c.tRstAssert, .rst true, .delay c.tRstRelease]

/-- `SetWindow` (R167), then `SetCursor` (R168), for the window of the running operation: two commands each, then
WaitIdle. -/
def windowCursor : List SeqStep := [.panel 0x44, .panel 0x45, .panel 0x4E, .panel 0x4F, .waitIdle]

/-! ## Step lists -/

/-- The steps of INIT (R185). -/
def initSteps (c : Config) (p : Mode) : List SeqStep :=
  panelReset c ++ [.panel 0x01, .panel 0x0C, .panel 0x2C, .panel 0x3A, .panel 0x3B, .panel 0x11, .panel 0x32,
    .finish (.initDone p)]

/-- The steps of SET_FRAME_FULL after its gate (R187, R195). -/
def setFrameFullSteps (c : Config) : List SeqStep :=
  windowCursor ++ [.panel 0x24, .txn (.fbData 0 c.fbBytes), .finish .toInitialized]

/-- The steps of SET_FRAME_RECT after its checks (R179, R195). -/
def setFrameRectSteps : List SeqStep :=
  windowCursor ++ [.panel 0x24, .rowLoop, .finish .toInitialized]

/-- The steps of CLEAR_FRAME after its gate (R188, R195). -/
def clearFrameSteps (c : Config) (col : Colour) : List SeqStep :=
  windowCursor ++ [.panel 0x24, .txn (.repeated (colourFill col) (c.rowBytes * c.height)), .finish .toInitialized]

/-- The steps of DISPLAY_FRAME after its gate (R189): DISPLAYING before the wait (92 D45). -/
def displayFrameSteps : List SeqStep :=
  [.panel 0x22, .panel 0x20, .setDisplaying, .waitIdle, .finish .plain]

/-- The steps of SLEEP after its gate (R190). -/
def sleepSteps : List SeqStep := [.panel 0x10, .finish .toAsleep]

/-! ## Operations -/

/-- INIT (41_panel_protocol.md R185): accepted in every state, always the whole sequence (R192). -/
def execInit (p : Mode) (s : State) : Outcome State Fault Refusal :=
  .next (s.load (initSteps s.cfg p))

/-- SET_FRAME_FULL (41_panel_protocol.md R187). -/
def execSetFrameFull (s : State) : Outcome State Fault Refusal :=
  .next (gated s (s.load (setFrameFullSteps s.cfg)))

/-- SET_FRAME_RECT (41_panel_protocol.md R175 to R179): gate, argument checks in order, then the rounded rectangle. -/
def execSetFrameRect (s : State) : Outcome State Fault Refusal :=
  .next (gated s (match rectCheck s.cfg s.rect with
    | .ok => s.load setFrameRectSteps
    | e => s.raise e))

/-- CLEAR_FRAME (41_panel_protocol.md R188): FB is neither read nor written (R197). -/
def execClearFrame (col : Colour) (s : State) : Outcome State Fault Refusal :=
  .next (gated s (s.load (clearFrameSteps s.cfg col)))

/-- DISPLAY_FRAME (41_panel_protocol.md R189). -/
def execDisplayFrame (s : State) : Outcome State Fault Refusal :=
  .next (gated s (s.load displayFrameSteps))

/-- SLEEP (41_panel_protocol.md R190). -/
def execSleep (s : State) : Outcome State Fault Refusal :=
  .next (gated s (s.load sleepSteps))

/-- GET_WIDTH (41_panel_protocol.md R198): `RESULT <- W ; done`. -/
def execGetWidth (s : State) : Outcome State Fault Refusal :=
  .next { s.done with result := BitVec.ofNat 16 s.cfg.width }

/-- GET_HEIGHT (41_panel_protocol.md R199): `RESULT <- H ; done`. -/
def execGetHeight (s : State) : Outcome State Fault Refusal :=
  .next { s.done with result := BitVec.ofNat 16 s.cfg.height }

end Sys2Proof.Machine
end

