-- ==== Sys2Proof/Machine/PanelCmd.lean ====
section
/-! DEFINITION. The 15 panel command bytes (30_encoding.md R110): each is one transaction of the command byte and the parameter bytes its own rule gives (41_panel_protocol.md R195, R200 to R213). What the panel does with it is outside the block (00_scope.md R4). The window, the cursor and the LUT are those of the running operation (log 12). -/

namespace Sys2Proof.Machine

open Host (Outcome)

/-- 0x01, driver-output-control (41_panel_protocol.md R200). -/
def execDriverOutputControl (s : State) : Outcome State Fault Refusal :=
  .next (s.issue 0x01 s.cfg.initDriverOutput)

/-- 0x0C, booster soft-start (R201). -/
def execBoosterSoftStart (s : State) : Outcome State Fault Refusal :=
  .next (s.issue 0x0C s.cfg.initBooster)

/-- 0x11, data-entry-mode (R202). -/
def execDataEntryMode (s : State) : Outcome State Fault Refusal :=
  .next (s.issue 0x11 s.cfg.initDataEntry)

/-- 0x2C, VCOM (R203). -/
def execVcom (s : State) : Outcome State Fault Refusal :=
  .next (s.issue 0x2C s.cfg.initVcom)

/-- The table of R204: LUT_PARTIAL when IMM[0] = 1, LUT_FULL when IMM[0] = 0. -/
def State.lut (s : State) : List Byte := if flagOf s.imm then s.cfg.lutPartial else s.cfg.lutFull

/-- 0x32, LUT upload (R204): the whole table in one transaction. -/
def execLutUpload (s : State) : Outcome State Fault Refusal :=
  .next (s.issue 0x32 s.lut)

/-- 0x3A, dummy-line period (R205). -/
def execDummyLinePeriod (s : State) : Outcome State Fault Refusal :=
  .next (s.issue 0x3A s.cfg.initDummyLine)

/-- 0x3B, gate time (R206). -/
def execGateTime (s : State) : Outcome State Fault Refusal :=
  .next (s.issue 0x3B s.cfg.initGateTime)

/-- 0x44, address window X (R207): start and end column group. -/
def execAddressWindowX (s : State) : Outcome State Fault Refusal :=
  .next (s.issue 0x44 [xaddr s.window.xb0, xaddr s.window.xb1])

/-- 0x45, address window Y (R208): start and end row. -/
def execAddressWindowY (s : State) : Outcome State Fault Refusal :=
  .next (s.issue 0x45 (yaddr s.cfg s.window.y0 ++ yaddr s.cfg s.window.y1))

/-- 0x4E, cursor X (R209): the start column group. -/
def execCursorX (s : State) : Outcome State Fault Refusal :=
  .next (s.issue 0x4E [xaddr s.window.xb0])

/-- 0x4F, cursor Y (R210): the start row. -/
def execCursorY (s : State) : Outcome State Fault Refusal :=
  .next (s.issue 0x4F (yaddr s.cfg s.window.y0))

/-- 0x20, activate (R211): alone in its own transaction. -/
def execActivate (s : State) : Outcome State Fault Refusal :=
  .next (s.issue 0x20 [])

/-- 0x22, display-update-control (R212): the refresh-control byte. -/
def execDisplayUpdateControl (s : State) : Outcome State Fault Refusal :=
  .next (s.issue 0x22 [s.cfg.updateCtrl2])

/-- 0x24, write-RAM (R195): a transaction of its own; the frame bytes follow in data transactions. -/
def execWriteRam (s : State) : Outcome State Fault Refusal :=
  .next (s.issue 0x24 [])

/-- 0x10, deep-sleep (R213). -/
def execDeepSleep (s : State) : Outcome State Fault Refusal :=
  .next (s.issue 0x10 s.cfg.sleepData)

end Sys2Proof.Machine
end

