-- ==== Sys2Proof/Machine/Dispatch.lean ====
section
/-! DEFINITION. The meaning of every instruction, one arm per constructor. -/

namespace Sys2Proof.Machine

def exec (i : Instr) (s : State) : Host.Outcome State Fault Refusal :=
  match i with
  | .sendCmd c => Sys2Proof.Machine.execSendCmd c s
  | .sendData d => Sys2Proof.Machine.execSendData d s
  | .sendDataList => Sys2Proof.Machine.execSendDataList s
  | .sendDataBuf => Sys2Proof.Machine.execSendDataBuf s
  | .sendCmdData c => Sys2Proof.Machine.execSendCmdData c s
  | .init p => Sys2Proof.Machine.execInit p s
  | .setFrameFull => Sys2Proof.Machine.execSetFrameFull s
  | .setFrameRect => Sys2Proof.Machine.execSetFrameRect s
  | .clearFrame col => Sys2Proof.Machine.execClearFrame col s
  | .displayFrame => Sys2Proof.Machine.execDisplayFrame s
  | .sleep => Sys2Proof.Machine.execSleep s
  | .setPixel col => Sys2Proof.Machine.execSetPixel col s
  | .fill col => Sys2Proof.Machine.execFill col s
  | .getPixel => Sys2Proof.Machine.execGetPixel s
  | .getWidth => Sys2Proof.Machine.execGetWidth s
  | .getHeight => Sys2Proof.Machine.execGetHeight s
  | .driverOutputControl => Sys2Proof.Machine.execDriverOutputControl s
  | .boosterSoftStart => Sys2Proof.Machine.execBoosterSoftStart s
  | .dataEntryMode => Sys2Proof.Machine.execDataEntryMode s
  | .vcom => Sys2Proof.Machine.execVcom s
  | .lutUpload => Sys2Proof.Machine.execLutUpload s
  | .dummyLinePeriod => Sys2Proof.Machine.execDummyLinePeriod s
  | .gateTime => Sys2Proof.Machine.execGateTime s
  | .addressWindowX => Sys2Proof.Machine.execAddressWindowX s
  | .addressWindowY => Sys2Proof.Machine.execAddressWindowY s
  | .cursorX => Sys2Proof.Machine.execCursorX s
  | .cursorY => Sys2Proof.Machine.execCursorY s
  | .activate => Sys2Proof.Machine.execActivate s
  | .displayUpdateControl => Sys2Proof.Machine.execDisplayUpdateControl s
  | .writeRam => Sys2Proof.Machine.execWriteRam s
  | .deepSleep => Sys2Proof.Machine.execDeepSleep s

end Sys2Proof.Machine
end

