-- ==== Sys2Proof/Machine/Port.lean ====
section
/-! DEFINITION. The host port (10_state.md R31, 20_memory.md R72 to R80), acceptance of a CMD write (30_encoding.md R101), and block reset (70_reset_and_hazards.md R270). -/

namespace Sys2Proof.Machine

/-! ## The register map -/

/-- What a byte offset names (10_state.md R31). -/
inductive Target where
  | geom
  | status
  | cmd
  | result
  | arg0
  | arg1
  | arg2
  | arg3
  | list (i : Nat)
  | fbwin (i : Nat)
  | unmapped
deriving DecidableEq, Repr

/-- The register map of 10_state.md R31; address bits 1:0 are ignored (20_memory.md R75). -/
def target (offset : Half) : Target :=
  let w := offset.toNat / 4
  if w = 0x0000 / 4 then .geom
  else if w = 0x0004 / 4 then .status
  else if w = 0x0008 / 4 then .cmd
  else if w = 0x000C / 4 then .result
  else if w = 0x0010 / 4 then .arg0
  else if w = 0x0014 / 4 then .arg1
  else if w = 0x0018 / 4 then .arg2
  else if w = 0x001C / 4 then .arg3
  else if 0x0100 / 4 ≤ w ∧ w ≤ 0x01FC / 4 then .list (w - 0x0100 / 4)
  else if 0x8000 / 4 ≤ w then .fbwin (w - 0x8000 / 4)
  else .unmapped

/-! ## Reads -/

/-- Whether an FBWIN read races with the running operation: SET_PIXEL or FILL is running (20_memory.md R84). -/
def State.fbwinRaces (s : State) : Bool := s.busy && (s.op == 0x20 || s.op == 0x21)

/-- The value of FBWIN entry `i` (20_memory.md R72): FB[i] zero-extended, 0 past FB. In a race it is a free draw from
the byte before and the byte after the operation (93 U6). -/
def State.fbwinWord (s : State) (i : Nat) : Word :=
  if i < s.cfg.fbBytes then
    if s.fbwinRaces && Config.fbwinSeesNew s.draws then (s.fbByteOf s.fbAfterRunning i).setWidth 32
    else (s.fbByte i).setWidth 32
  else 0

/-- The value of a host read: RO and RW registers as stored, WO and unmapped offsets 0 (10_state.md R31, R41,
20_memory.md R74). -/
def State.readWord (s : State) : Target → Word
  | .geom => geomWord s.cfg
  | .status => s.statusWord
  | .cmd => 0
  | .result => s.result.setWidth 32
  | .arg0 => s.arg0.setWidth 32
  | .arg1 => s.arg1.setWidth 32
  | .arg2 => s.arg2.setWidth 32
  | .arg3 => s.arg3.setWidth 32
  | .list i => (s.listByte i).setWidth 32
  | .fbwin i => s.fbwinWord i
  | .unmapped => 0

/-- Whether a read uses up a free draw: an FBWIN read in a race. -/
def Target.isFbwin : Target → Bool
  | .fbwin _ => true
  | .geom | .status | .cmd | .result | .arg0 | .arg1 | .arg2 | .arg3 | .list _ | .unmapped => false

/-- A host read: it returns a value and has no side effect (20_memory.md R80). -/
def State.hostRead (offset : Half) (s : State) : State :=
  { s with
    reads := s.reads ++ [(offset, s.readWord (target offset))]
    draws := if (target offset).isFbwin && s.fbwinRaces then s.draws + 1 else s.draws }

/-- The schedule after a poll that read bit 0 = 1: one more move of the environment or, where the schedule has none to
make before the host's next access, of the sequencer, and then the next poll (log 19). -/
def afterPoll (offset : Half) : List Input → List Input
  | .panelBusy v :: rest => .panelBusy v :: .hostPoll offset :: rest
  | .blockReset :: rest => .blockReset :: .hostPoll offset :: rest
  | .seqStep :: rest => .seqStep :: .hostPoll offset :: rest
  | l => .seqStep :: .hostPoll offset :: l

/-- One read of the host's "repeat RD until bit 0 of the value read is 0" (30_encoding.md R115): the host goes on to its
next access if bit 0 of the value read is 0, and else polls again. -/
def State.hostPoll (offset : Half) (s : State) : State :=
  { s.hostRead offset with
    inputs := if (s.readWord (target offset)).getLsbD 0 then afterPoll offset s.inputs else s.inputs }

/-! ## Writes -/

/-- A CMD write with BUSY = 0 (30_encoding.md R101): OP and IMM are latched, BUSY <- 1, the sequencer is at the
operation's first step. -/
def State.acceptCmd (w : Word) (s : State) : State :=
  { s with op := opField w, imm := immField w, busy := true, seq := [.fetch] }

/-- A write to CMD, ARGn or LIST: refused while BUSY = 1, which sets OVR and does nothing else (10_state.md R39). -/
def State.refusedIfBusy (s : State) (accepted : State) : State :=
  if s.busy then { s with ovr := true } else accepted

/-- A host write by target (10_state.md R31 to R44, 20_memory.md R72, R74). -/
def State.writeTarget (t : Target) (v : Word) (s : State) : State :=
  match t with
  | .status => if v.getLsbD 16 then { s with ovr := false } else s
  | .cmd => s.refusedIfBusy (s.acceptCmd v)
  | .arg0 => s.refusedIfBusy { s with arg0 := v.setWidth 16 }
  | .arg1 => s.refusedIfBusy { s with arg1 := v.setWidth 16 }
  | .arg2 => s.refusedIfBusy { s with arg2 := v.setWidth 16 }
  | .arg3 => s.refusedIfBusy { s with arg3 := v.setWidth 16 }
  | .list i => s.refusedIfBusy { s with list := Memory.write s.list i (v.setWidth 8) }
  | .geom | .result | .fbwin _ | .unmapped => s

/-- A host write of one word (20_memory.md R75). -/
def State.hostWrite (offset : Half) (v : Word) (s : State) : State := s.writeTarget (target offset) v

/-! ## Block reset -/

/-- The events by which the outputs return to their reset levels: CS(1) if CS_N was 0, RST(1) if RST_N was 0
(70_reset_and_hazards.md R270; the order of the two is log 18, and no run has both). -/
def State.resetEvents (s : State) : List TraceEvent :=
  (if s.csN then [] else [.cs true]) ++ (if s.rstN then [] else [.rst true])

/-- Block reset (70_reset_and_hazards.md R270, R271): every register and output takes the value of 10_state.md R55,
FB and LIST are drawn afresh, and the BUSY input stays at the panel's level. What was recorded stays recorded: a DELAY
that the reset cuts short is in the trace as a whole event (log 21), a BYTE that it cuts short is not (log 11). The observers and what the environment
does next are no state of the block and are kept. -/
def State.blockReset (s : State) : State :=
  { State.resetWith s.cfg s.busyIn with
    trace := s.trace ++ s.resetEvents
    reads := s.reads
    busTime := s.busTime
    inputs := s.inputs
    resets := s.resets + 1
    draws := s.draws }

end Sys2Proof.Machine
end

