-- ==== Sys2Proof/Machine/Sequencer.lean ====
section
/-! DEFINITION. The sequencer (10_state.md R45, R46): what one step of an operation does, down to the wire (40_bus_framer.md R131, R132), and one step of the whole machine. The meaning of an instruction is the parameter `run`, which Step.lean sets to `exec`. -/

namespace Sys2Proof.Machine

open Host (Outcome)

/-- One line of 40_bus_framer.md R131 and R132 for the transaction `p`; `rest` are the steps after it. A `wait` adds its
cycles to `busTime`. The BYTE event is recorded at the byte's last SCLK falling edge (log 11). -/
def txnStep (p : Payload) (rest : List SeqStep) (s : State) : Outcome State Fault Refusal :=
  match s.phase with
  | .csLow =>
    .next { s with csN := false, byteCnt := 0, phase := .dcSet, trace := s.trace ++ [.cs false],
                   busTime := s.busTime + s.cfg.sclkDiv }
  | .dcSet =>
    match payloadByte s p s.byteCnt with
    | .ok x => .next { s with dc := x.1, bitCnt := 7, phase := .mosi }
    | .error f => .fault f
  | .mosi =>
    match payloadByte s p s.byteCnt with
    | .ok x => .next { s with mosi := x.2.getLsbD s.bitCnt, phase := .rise, busTime := s.busTime + s.cfg.sclkDiv }
    | .error f => .fault f
  | .rise => .next { s with sclk := true, phase := .fall, busTime := s.busTime + s.cfg.sclkDiv }
  | .fall =>
    if s.bitCnt = 0 then
      match payloadByte s p s.byteCnt with
      | .ok x =>
        .next { s with sclk := false, trace := s.trace ++ [.byte x.1 x.2], byteCnt := s.byteCnt + 1,
                       phase := if s.byteCnt + 1 < p.length then .dcSet else .trail }
      | .error f => .fault f
    else .next { s with sclk := false, bitCnt := s.bitCnt - 1, phase := .mosi }
  | .trail => .next { s with phase := .csHigh, busTime := s.busTime + s.cfg.sclkDiv }
  | .csHigh =>
    .next { s with csN := true, phase := .csLow, seq := rest, trace := s.trace ++ [.cs true],
                   busTime := s.busTime + 2 * s.cfg.sclkDiv }

/-- One turn of the loop of WaitIdle (41_panel_protocol.md R166): sample; on idle WAIT <- 0 and go on; on busy delay
T_POLL and sample again, without bound. -/
def sampleStep (rest : List SeqStep) (s : State) : State :=
  if s.busyIn = s.cfg.busyActive then
    { s with trace := s.trace ++ [.sample s.busyIn], seq := .delay s.cfg.tPoll :: .sample :: rest }
  else { s with trace := s.trace ++ [.sample s.busyIn], wait := false, seq := rest }

/-- One tick of a DELAY's count-down (10_state.md R45, R46). -/
def countdownStep (rest : List SeqStep) (s : State) : State :=
  if s.delayCnt ≤ 1 then { s with delayCnt := 0, seq := rest } else { s with delayCnt := s.delayCnt - 1 }

/-- One turn of the row loop of SET_FRAME_RECT (41_panel_protocol.md R179): the next row as one transaction, while
rows remain. -/
def rowLoopStep (rest : List SeqStep) (s : State) : State :=
  if (s.rowCnt : Int) < s.rect.height then
    { s with seq := .txn (.fbData (s.rect.rowBase s.cfg s.rowCnt) s.rect.rowLen) :: .rowLoop :: rest,
             rowCnt := s.rowCnt + 1, phase := .csLow }
  else { s with seq := rest }

/-- One step of the sequencer: idle does nothing (70_reset_and_hazards.md R272); the first step of an operation decodes
the latched CMD word and runs it, or raises BAD_OP (30_encoding.md R106); a panel command step decodes its byte and
runs it; every other step acts as its constructor's rule says. A DELAY(t) enters the trace when its wait begins, so one
that a block reset cuts short is there whole (log 21). -/
def State.sequence (run : Instr → State → Outcome State Fault Refusal) (s : State) : Outcome State Fault Refusal :=
  match s.seq with
  | [] => .next s
  | .fetch :: rest =>
    match decodeCmd s.latchedWord with
    | .ok i => run i { s with seq := rest }
    | .error _ => .next (s.raise .badOp)
  | .panel c :: rest =>
    match decodePanel c with
    | .ok i => run i { s with seq := rest }
    | .error _ => .refused (.notPanelCommand c)
  | .txn p :: rest => txnStep p rest s
  | .rst v :: rest => .next { s with rstN := v, trace := s.trace ++ [.rst v], seq := rest }
  | .delay t :: rest => .next { s with trace := s.trace ++ [.delay t], delayCnt := t, seq := .countdown :: rest }
  | .countdown :: rest => .next (countdownStep rest s)
  | .waitIdle :: rest => .next { s with wait := true, seq := .sample :: rest }
  | .sample :: rest => .next (sampleStep rest s)
  | .rowLoop :: rest => .next (rowLoopStep rest s)
  | .setDisplaying :: rest => .next { s with pstate := .displaying, seq := rest }
  | .finish f :: _ => .next (s.finish f)

/-- What one input does (log 4). -/
def State.input (run : Instr → State → Outcome State Fault Refusal) (i : Input) (s : State) :
    Outcome State Fault Refusal :=
  match i with
  | .hostRead offset => .next (s.hostRead offset)
  | .hostWrite offset v => .next (s.hostWrite offset v)
  | .hostPoll offset => .next (s.hostPoll offset)
  | .panelBusy v => .next { s with busyIn := v }
  | .blockReset => .next s.blockReset
  | .seqStep => s.sequence run

/-- One step of the machine: the next input, or the sequencer when none is scheduled (log 4). -/
def State.stepWith (run : Instr → State → Outcome State Fault Refusal) (s : State) : Outcome State Fault Refusal :=
  match s.inputs with
  | [] => s.sequence run
  | i :: rest => ({ s with inputs := rest } : State).input run i

/-- `s` with a code unit where the sequencer fetches it next: a CMD word latched as R101 latches it, or a panel command
as the current step of an operation that then ends (log 13). The sequencer moves next. -/
def State.withUnit (s : State) (u : CodeUnit) : State :=
  match u with
  | .cmdWord w => { s.acceptCmd w with inputs := .seqStep :: s.inputs }
  | .panelByte b => { s with busy := true, seq := [.panel b, .finish .plain], inputs := .seqStep :: s.inputs }

end Sys2Proof.Machine
end

