-- ==== Sys2Proof/Machine/Step.lean ====
section
/-! DEFINITION. One step of the machine, and where it fetches its next instruction. -/

namespace Sys2Proof.Machine

/-- One step: the next input of the environment, or one step of the sequencer when none is scheduled (log 4). -/
def step (s : State) : Host.Outcome State Fault Refusal := s.stepWith exec

/-- `s` with the instruction of the bits `w` of a table row of `nbits` bits where `step` fetches its next instruction:
a CMD word latched by the sequencer, or a panel command as the sequencer's current step (log 13). -/
def State.withFetchWord (s : State) (nbits w : Nat) : State := s.withUnit (tableUnit nbits w)

end Sys2Proof.Machine
end

