-- ==== Sys2Proof/Machine/HostProgram.lean ====
section
/-! DEFINITION. Host programs (30_encoding.md R114, R115): the expansion of each pseudo-instruction into host accesses, and the accesses as inputs of the machine. -/

namespace Sys2Proof.Machine

/-- An access as an input; its offset is relative to BLOCK_BASE (20_memory.md R70). -/
def accessInput : HostAccess → Input
  | .wr offset v => .hostWrite offset v
  | .rd offset => .hostRead offset
  | .rdUntilClear offset => .hostPoll offset

/-- An int16 operand as written: `v mod 65536` (R115). -/
def int16Word (v : Int) : Word := BitVec.ofInt 32 (v % 65536)

/-- `WR 0x0008` of the CMD word with the given OP and IMM. -/
def wrCmd (op imm : Byte) : HostAccess := .wr 0x0008 (cmdWordOf op imm)

/-- The expansion of R115, row by row. -/
def Pseudo.expand : Pseudo → List HostAccess
  | .sendCmd c => [wrCmd 0x01 c]
  | .sendData d => [wrCmd 0x02 d]
  | .list i b => [.wr (BitVec.ofNat 16 (0x0100 + 4 * i)) (b.setWidth 32)]
  | .sendDataList n => [.wr 0x0010 (BitVec.ofNat 32 n), wrCmd 0x03 0]
  | .sendDataBuf off len => [.wr 0x0010 (BitVec.ofNat 32 off), .wr 0x0014 (BitVec.ofNat 32 len), wrCmd 0x04 0]
  | .sendCmdData c n => [.wr 0x0010 (BitVec.ofNat 32 n), wrCmd 0x05 c]
  | .init p => [wrCmd 0x10 (modeImm p)]
  | .setFrameFull => [wrCmd 0x11 0]
  | .setFrameRect xs ys xe ye =>
    [.wr 0x0010 (int16Word xs), .wr 0x0014 (int16Word ys), .wr 0x0018 (int16Word xe), .wr 0x001C (int16Word ye),
     wrCmd 0x12 0]
  | .clearFrame col => [wrCmd 0x13 (colourImm col)]
  | .displayFrame => [wrCmd 0x14 0]
  | .sleep => [wrCmd 0x15 0]
  | .setPixel x y col => [.wr 0x0010 (int16Word x), .wr 0x0014 (int16Word y), wrCmd 0x20 (colourImm col)]
  | .fill col => [wrCmd 0x21 (colourImm col)]
  | .getPixel x y => [.wr 0x0010 (int16Word x), .wr 0x0014 (int16Word y), wrCmd 0x22 0]
  | .getWidth => [wrCmd 0x30 0]
  | .getHeight => [wrCmd 0x31 0]
  | .wait => [.rdUntilClear 0x0004]
  | .clrOvr => [.wr 0x0004 0x00010000]

end Sys2Proof.Machine
end

