-- ==== Sys2Proof/Safety.lean ====
section
/-! DEFINITION. The terms statements use: runs of the machine, the end of an operation, the final state of a transaction, and the invariant `Inv` that every step keeps. -/

namespace Sys2Proof.Machine

open Host (Outcome)

/-! ## Runs -/

/-- `k` steps, stopping at the first fault or refusal (it is `Host.Core.run` of `Sys2Proof.core`: `run_eq_core_run`). -/
def run : Nat → State → Outcome State Fault Refusal
  | 0, s => .next s
  | k + 1, s =>
    match step s with
    | .next s' => run k s'
    | .fault r => .fault r
    | .refused r => .refused r

/-- Some number of steps leads from `s` to `u`. With `s.inputs = []` they are steps of the sequencer alone. -/
def Reaches (s u : State) : Prop := ∃ k, run k s = .next u

/-! ## Operations -/

/-- The state an operation's meaning runs in, when it is fetched: the sequencer has taken the `fetch` step off, the
outputs are idle (40_bus_framer.md R133), no wait is in progress, and nothing is scheduled but the sequencer. -/
structure Quiet (s : State) : Prop where
  seq : s.seq = []
  inputs : s.inputs = []
  wait : s.wait = false
  csN : s.csN = true
  sclk : s.sclk = false
  rstN : s.rstN = true

/-- The panel is idle: BUSY is at the level that does not mean busy (41_panel_protocol.md R166). -/
def PanelIdle (s : State) : Prop := s.busyIn ≠ s.cfg.busyActive

/-- From `s`, an operation has ended by `done` (00_scope.md R11) in `u`: BUSY = 0, WAIT = 0, ERR = 0, the sequencer and
the outputs idle; it emitted exactly the events `ev`, left PSTATE and MODE at `ps` and `m`, and changed no other
register, no byte of FB or LIST, and no parameter. (`phase`, `byte_cnt`, `row_cnt`, `bit_cnt`, `delay_cnt`, the kept
levels of DC and MOSI, and the time on the bus are not said here.) -/
structure EndedWith (s u : State) (ev : List TraceEvent) (ps : PState) (m : Mode) : Prop where
  trace : u.trace = s.trace ++ ev
  pstate : u.pstate = ps
  mode : u.mode = m
  busy : u.busy = false
  wait : u.wait = false
  err : u.err = .ok
  seq : u.seq = []
  csN : u.csN = true
  sclk : u.sclk = false
  rstN : u.rstN = true
  ovr : u.ovr = s.ovr
  busyIn : u.busyIn = s.busyIn
  result : u.result = s.result
  arg0 : u.arg0 = s.arg0
  arg1 : u.arg1 = s.arg1
  arg2 : u.arg2 = s.arg2
  arg3 : u.arg3 = s.arg3
  list : u.list = s.list
  fb : u.fb = s.fb
  op : u.op = s.op
  imm : u.imm = s.imm
  cfg : u.cfg = s.cfg
  reads : u.reads = s.reads
  inputs : u.inputs = s.inputs
  resets : u.resets = s.resets
  draws : u.draws = s.draws

/-! ## Transactions -/

/-- The (DC, byte) pairs a transaction sends (40_bus_framer.md R134 to R136), in order. -/
def Payload.content (s : State) : Payload → List (Level × Byte)
  | .bytes l => l
  | .listData n => (s.listSlice n).map (fun b => (true, b))
  | .cmdList c n => (false, c) :: (s.listSlice n).map (fun b => (true, b))
  | .fbData base len => (s.fbSlice base len).map (fun b => (true, b))
  | .repeated b n => List.replicate n (true, b)

/-- A transaction the framer can send: not empty (40_bus_framer.md R130), every byte inside FB or LIST. -/
def Payload.Legal (c : Config) : Payload → Prop
  | .bytes l => l ≠ []
  | .listData n => 1 ≤ n ∧ n ≤ listSize
  | .cmdList _ n => n ≤ listSize
  | .fbData base len => 1 ≤ len ∧ base + len ≤ c.fbBytes
  | .repeated _ n => 1 ≤ n

/-- The state after the transaction of the pairs `l` (40_bus_framer.md R132, R133): CS_N = 1, SCLK = 0, DC and MOSI at
the last byte's level and last bit, the events `Txn(l)` added, and `(16*len + 4)*T` more cycles
(70_reset_and_hazards.md R285). -/
def afterTxn (l : List (Level × Byte)) (s : State) : State :=
  { s with
    csN := true
    sclk := false
    dc := (l.getLast?.map Prod.fst).getD s.dc
    mosi := (l.getLast?.map (fun x => x.2.getLsbD 0)).getD s.mosi
    phase := .csLow
    byteCnt := l.length
    bitCnt := 0
    trace := s.trace ++ txnEvents l
    busTime := s.busTime + (16 * l.length + 4) * s.cfg.sclkDiv }

/-! ## The events of the primitives -/

/-- A BYTE event (00_scope.md R13). -/
def TraceEvent.isByte : TraceEvent → Bool
  | .byte _ _ => true
  | .cs _ | .rst _ | .delay _ | .sample _ => false

/-- A SAMPLE event. -/
def TraceEvent.isSample : TraceEvent → Bool
  | .sample _ => true
  | .cs _ | .byte _ _ | .rst _ | .delay _ => false

/-- A DELAY event. -/
def TraceEvent.isDelay : TraceEvent → Bool
  | .delay _ => true
  | .cs _ | .byte _ _ | .rst _ | .sample _ => false

/-- `PanelReset()` (41_panel_protocol.md R165). -/
def panelResetEvents (c : Config) : List TraceEvent :=
  [.rst false, .delay c.tRstAssert, .rst true, .delay c.tRstRelease]

/-- `SetWindow` then `SetCursor` up to its WaitIdle (41_panel_protocol.md R167, R168), and a wait on an idle panel,
whose one sample reads `v` (R166). -/
def windowCursorEvents (c : Config) (w : Window) (v : Level) : List TraceEvent :=
  cmdEvents 0x44 [xaddr w.xb0, xaddr w.xb1] ++ cmdEvents 0x45 (yaddr c w.y0 ++ yaddr c w.y1) ++
  cmdEvents 0x4E [xaddr w.xb0] ++ cmdEvents 0x4F (yaddr c w.y0) ++ [.sample v]

/-- The events of a whole INIT (41_panel_protocol.md R185). -/
def initEvents (c : Config) (p : Mode) : List TraceEvent :=
  panelResetEvents c ++ cmdEvents 0x01 c.initDriverOutput ++ cmdEvents 0x0C c.initBooster ++
  cmdEvents 0x2C c.initVcom ++ cmdEvents 0x3A c.initDummyLine ++ cmdEvents 0x3B c.initGateTime ++
  cmdEvents 0x11 c.initDataEntry ++
  cmdEvents 0x32 (match p with | .partialRefresh => c.lutPartial | .fullRefresh => c.lutFull)

/-- The row transactions of SET_FRAME_RECT (41_panel_protocol.md R179, R180). -/
def rowEvents (s : State) (r : Rect) : List TraceEvent :=
  (List.range r.height.toNat).flatMap (fun k => dataEvents (s.fbSlice (r.rowBase s.cfg k) r.rowLen))

/-! ## Encoding -/

/-- The IMM bits an operation reads (30_encoding.md R102): all of them, IMM[0], or none. -/
def immRead : Instr → Byte
  | .sendCmd _ | .sendData _ | .sendCmdData _ => 0xFF
  | .init _ | .clearFrame _ | .setPixel _ | .fill _ => 0x01
  | .sendDataList | .sendDataBuf | .setFrameFull | .setFrameRect | .displayFrame | .sleep | .getPixel | .getWidth
  | .getHeight
  | .driverOutputControl | .boosterSoftStart | .dataEntryMode | .vcom | .lutUpload | .dummyLinePeriod | .gateTime
  | .addressWindowX | .addressWindowY | .cursorX | .cursorY | .activate | .displayUpdateControl | .writeRam
  | .deepSleep => 0x00

/-- The reserved OP values of 30_encoding.md R107. -/
def IsReservedOp (op : Byte) : Prop :=
  op.toNat = 0x00 ∨ (0x06 ≤ op.toNat ∧ op.toNat ≤ 0x0F) ∨ (0x16 ≤ op.toNat ∧ op.toNat ≤ 0x1F) ∨
  (0x23 ≤ op.toNat ∧ op.toNat ≤ 0x2F) ∨ 0x32 ≤ op.toNat

/-- The operation a pseudo-instruction starts, if it starts one (30_encoding.md R115). -/
def Pseudo.instr : Pseudo → Option Instr
  | .sendCmd c => some (.sendCmd c)
  | .sendData d => some (.sendData d)
  | .sendDataList _ => some .sendDataList
  | .sendDataBuf _ _ => some .sendDataBuf
  | .sendCmdData c _ => some (.sendCmdData c)
  | .init p => some (.init p)
  | .setFrameFull => some .setFrameFull
  | .setFrameRect _ _ _ _ => some .setFrameRect
  | .clearFrame col => some (.clearFrame col)
  | .displayFrame => some .displayFrame
  | .sleep => some .sleep
  | .setPixel _ _ col => some (.setPixel col)
  | .fill col => some (.fill col)
  | .getPixel _ _ => some .getPixel
  | .getWidth => some .getWidth
  | .getHeight => some .getHeight
  | .list _ _ | .wait | .clrOvr => none

/-- The argument registers hold the operands of a pseudo-instruction, as the operation reads them (R103, R104). -/
def Pseudo.OperandsIn (s : State) : Pseudo → Prop
  | .sendDataList n | .sendCmdData _ n => zext16 s.arg0 = n
  | .sendDataBuf off len => zext16 s.arg0 = off ∧ zext16 s.arg1 = len
  | .setFrameRect xs ys xe ye => s.rect = ⟨xs, ys, xe, ye⟩
  | .setPixel x y _ | .getPixel x y => sext16 s.arg0 = x ∧ sext16 s.arg1 = y
  | .sendCmd _ | .sendData _ | .list _ _ | .init _ | .setFrameFull | .clearFrame _ | .displayFrame | .sleep | .fill _
  | .getWidth | .getHeight | .wait | .clrOvr => True

/-! ## The invariant -/

/-- The command bytes (DC = 0) of a transaction are panel commands of R110, unless the host sends them itself through
SEND_CMD (OP 0x01) or SEND_CMD_DATA (OP 0x05) (30_encoding.md R111). -/
def Payload.CommandsKnown (op : Byte) : Payload → Prop
  | .bytes l => op = 0x01 ∨ ∀ x ∈ l, x.1 = false → ∃ i, decodePanel x.2 = .ok i
  | .cmdList _ _ => op = 0x05
  | .listData _ | .fbData _ _ | .repeated _ _ => True

/-- A step an operation's step list may hold, with what must hold for it: a panel command of R110; a transaction the
framer can send; a row loop of SET_FRAME_RECT over a rectangle that passed the checks of R178; and a change of PSTATE or
MODE only in the operation that makes it (41_panel_protocol.md R161), past its gate (R164). -/
def SeqStep.Legal (s : State) : SeqStep → Prop
  | .panel c => ∃ i, decodePanel c = .ok i
  | .txn p => p.Legal s.cfg ∧ p.CommandsKnown s.op
  | .rowLoop => s.op = 0x12 ∧ rectCheck s.cfg s.rect = .ok
  | .setDisplaying => s.op = 0x14 ∧ s.pstate.ready = true
  | .finish (.initDone p) => s.op = 0x10 ∧ p = modeOfFlag (flagOf s.imm)
  | .finish .toInitialized => (s.op = 0x11 ∨ s.op = 0x12 ∨ s.op = 0x13) ∧ s.pstate.ready = true
  | .finish .toAsleep => s.op = 0x15 ∧ s.pstate.ready = true
  | .rst _ | .delay _ | .waitIdle | .finish .plain => True
  | .fetch | .countdown | .sample => False

/-- Steps an operation still has to run: legal steps up to exactly one `finish`, which stands last, and a reset pulse
that begins also ends. -/
def StepsOk (s : State) : List SeqStep → Prop
  | [] => False
  | st :: rest =>
    st.Legal s ∧
    (match st with
      | .finish _ => rest = []
      | .rst false => SeqStep.rst true ∈ rest ∧ StepsOk s rest
      | _ => StepsOk s rest)

/-- Where the sequencer may stand: idle, before the fetch, inside a DELAY or a WaitIdle, or before a step. -/
def SeqOk (s : State) : Prop :=
  match s.seq with
  | [] => True
  | [.fetch] => True
  | .countdown :: .sample :: rest => StepsOk s rest
  | .countdown :: rest => StepsOk s rest
  | .delay _ :: .sample :: rest => StepsOk s rest
  | .sample :: rest => StepsOk s rest
  | l => StepsOk s l

/-- The sequencer executes WaitIdle: it is about to sample, or delays between two samples (41_panel_protocol.md R166). -/
def inWaitIdle : List SeqStep → Bool
  | .sample :: _ => true
  | .delay _ :: .sample :: _ => true
  | .countdown :: .sample :: _ => true
  | _ => false

/-- The wires inside a transaction (40_bus_framer.md R131, R132). -/
structure WiresOk (s : State) : Prop where
  /-- CS_N = 0 exactly between CS(0) and CS(1) -/
  csN : s.csN = true ↔ s.phase = .csLow
  /-- SCLK = 1 exactly between a rise and its fall -/
  sclk : s.sclk = true ↔ s.phase = .fall
  /-- only a transaction moves the framer -/
  txn : s.phase ≠ .csLow → ∃ p rest, s.seq = .txn p :: rest
  /-- while bytes are being sent there is a byte at the framer's position -/
  inside : ∀ p rest, s.seq = .txn p :: rest → s.phase ∈ [.dcSet, .mosi, .rise, .fall] → s.byteCnt < p.length
  /-- `bit_cnt` is 0 to 7 -/
  bitCnt : s.bitCnt ≤ 7
  /-- DC holds the level of the byte being sent from before its first rising edge to after its last falling edge -/
  dc : ∀ p rest, s.seq = .txn p :: rest → s.phase ∈ [.mosi, .rise, .fall] →
    ∃ b, payloadByte s p s.byteCnt = .ok (s.dc, b)
  /-- MOSI holds the byte's bit around the rising edge -/
  mosi : ∀ p rest, s.seq = .txn p :: rest → s.phase ∈ [.rise, .fall] →
    ∃ b, payloadByte s p s.byteCnt = .ok (s.dc, b) ∧ s.mosi = b.getLsbD s.bitCnt

/-- The invariant: what holds in every state a run reaches from reset in a configuration that meets 00_scope.md R8. -/
structure Inv (s : State) : Prop where
  /-- the parameters meet R8 -/
  cfg : s.cfg.WellFormed
  /-- FB is in canonical form -/
  fbWf : Memory.wf s.fb
  /-- LIST is in canonical form -/
  listWf : Memory.wf s.list
  /-- FB has no index outside 0 .. FB_BYTES-1 (20_memory.md R71) -/
  fbBound : ∀ c ∈ s.fb, c.1 < s.cfg.fbBytes
  /-- LIST has no index outside 0 .. 63 (20_memory.md R70) -/
  listBound : ∀ c ∈ s.list, c.1 < listSize
  /-- BUSY = 1 exactly while an operation is in progress (10_state.md R34) -/
  busy : s.busy = true ↔ s.seq ≠ []
  /-- WAIT = 1 exactly while the sequencer executes WaitIdle (10_state.md R37) -/
  wait : s.wait = inWaitIdle s.seq
  /-- RST_N = 0 only inside the reset pulse of INIT (41_panel_protocol.md R165) -/
  rstN : s.rstN = false → SeqStep.rst true ∈ s.seq
  /-- the sequencer stands at a step of an operation -/
  seq : SeqOk s
  /-- the wires are as R131 and R132 have them -/
  wires : WiresOk s

end Sys2Proof.Machine
end

