-- ==== Sys2Proof/Certificates/Slice0/Obligations.lean ====
section
/-! DEFINITION. The statements about the model, one per entry of OBLIGATIONS.json. A statement about a run has `s.inputs = []` (in `Quiet`): its steps are the sequencer's own. Every statement is for every configuration `s.cfg`. -/

open Sys2Proof Sys2Proof.Machine

/-! ## Encoding -/

/-- Decoding an encoded instruction gives it back, with every operand at every value (30_encoding.md R100, R105, R110). -/
def Obligations.DecodeOfEncode : Prop :=
  ∀ i : Instr, i.WellFormed → decode (encode i) = .ok i

/-- Encoding a decoded code unit gives back every bit that has a meaning: OP, and of IMM the bits the operation reads
(R102); the ignored bits come back as 0. -/
def Obligations.EncodeOfDecode : Prop :=
  (∀ (w : Word) (i : Instr), decode (.cmdWord w) = .ok i →
    encode i = .cmdWord (cmdWordOf (opField w) (immField w &&& immRead i))) ∧
  (∀ (b : Byte) (i : Instr), decode (.panelByte b) = .ok i → encode i = .panelByte b)

/-- The reserved OP values are exactly those of R107, and each starts an operation that at once raises BAD_OP, with no
other effect and no bus event, whatever its other bits (R106). -/
def Obligations.ReservedOpRaisesBadOp : Prop :=
  (∀ w : Word, (∃ r, decode (.cmdWord w) = .error r) ↔ IsReservedOp (opField w)) ∧
  (∀ (s : State) (rest : List SeqStep), s.inputs = [] → s.seq = .fetch :: rest → IsReservedOp s.op →
    step s = .next { s with err := .badOp, busy := false, seq := [] })

/-- Words written out from the tables of R105 and R110 decode to what they stand for. -/
def Obligations.TableWordsDecode : Prop :=
  decode (.cmdWord 0x12345601) = .ok (.sendCmd 0x56) ∧ decode (.cmdWord 0x0000A502) = .ok (.sendData 0xA5) ∧
  decode (.cmdWord 0x00000110) = .ok (.init .partialRefresh) ∧ decode (.cmdWord 0x0000FE13) = .ok (.clearFrame .black) ∧
  decode (.cmdWord 0x00000120) = .ok (.setPixel .white) ∧ decode (.cmdWord 0x00000031) = .ok .getHeight ∧
  decode (.panelByte 0x10) = .ok .deepSleep ∧ decode (.panelByte 0x44) = .ok .addressWindowX

/-- Running the expansion of a well-formed pseudo-instruction from an idle block leaves the sequencer at the first step
of the operation it names, with the operands it names in the argument registers (R115, R104). That the CMD write leaves
the sequencer at a `fetch` step of its own is the model's (log 10). -/
def Obligations.PseudoInstructionsStartTheirOperation : Prop :=
  ∀ (s : State) (p : Pseudo) (i : Instr), p.WellFormed → Pseudo.instr p = some i → s.busy = false →
    s.inputs = (Pseudo.expand p).map accessInput →
    ∃ u, Reaches s u ∧ u.busy = true ∧ u.seq = [.fetch] ∧ u.inputs = [] ∧ decode (.cmdWord u.latchedWord) = .ok i ∧
      Pseudo.OperandsIn u p

/-- The pseudo-instructions that start no operation (R115). LIST writes its byte to its entry. CLROVR clears OVR. WAIT
reads STATUS until the value read has bit 0 = 0: a run that has ended it made reads of STATUS alone, all with bit 0 = 1
but the last, and BUSY is 0; on an idle block it is one read; and if the running operation ends, so does WAIT. (Which
move comes between two reads is the model's choice, log 19.) -/
def Obligations.PseudoInstructionsOfTheHost : Prop :=
  (∀ (s : State) (i : Nat) (b : Byte) (more : List Input), (Pseudo.list i b).WellFormed → s.busy = false →
    s.inputs = (Pseudo.expand (.list i b)).map accessInput ++ more →
    ∃ t, step s = .next t ∧ t = { s with inputs := more, list := t.list } ∧
      ∀ j, t.listByte j = if j = i then b else s.listByte j) ∧
  (∀ (s : State) (more : List Input), s.inputs = (Pseudo.expand .clrOvr).map accessInput ++ more →
    step s = .next { s with inputs := more, ovr := false }) ∧
  (∀ (s : State) (more : List Input), s.inputs = (Pseudo.expand .wait).map accessInput ++ more → s.busy = false →
    step s = .next { s with inputs := more, reads := s.reads ++ [(0x0004, s.statusWord)] }) ∧
  (∀ (s u : State) (n : Nat), s.inputs = (Pseudo.expand .wait).map accessInput → run n s = .next u → u.inputs = [] →
    u.busy = false ∧ ∃ l v, u.reads = s.reads ++ l ++ [(0x0004, v)] ∧ v.getLsbD 0 = false ∧
      ∀ x ∈ l, x.1 = 0x0004 ∧ x.2.getLsbD 0 = true) ∧
  (∀ (s u : State) (n : Nat), s.inputs = (Pseudo.expand .wait).map accessInput →
    run n { s with inputs := [] } = .next u → u.busy = false →
    ∃ t m, run m s = .next t ∧ t.inputs = [])

/-! ## Steps -/

/-- A step runs the decoded instruction: at the first step of an operation that of the latched CMD word (R101), at a panel
command step that of its byte (R110). Around the meaning, the step takes that sequencer step off; a scheduled `seqStep`
is taken off too. That decoding is a step of its own, that a panel command is decoded from the sequencer's step list,
and that the schedule says who moves are the model's (log 10, log 12, log 4). -/
def Obligations.StepRunsTheDecodedInstruction : Prop :=
  ∀ (s : State) (rest : List SeqStep) (i : Instr) (more : List Input),
    ((s.seq = .fetch :: rest ∧ decode (.cmdWord s.latchedWord) = .ok i) ∨
      (∃ c, s.seq = .panel c :: rest ∧ decode (.panelByte c) = .ok i)) →
    (s.inputs = [] → step s = exec i { s with seq := rest }) ∧
    (s.inputs = .seqStep :: more → step s = exec i { s with inputs := more, seq := rest })

/-- A CMD write with BUSY = 0 latches OP and IMM, sets BUSY and puts the sequencer at the operation's first step (R101);
it changes nothing else. That this first step is `fetch`, which decodes, is the model's (log 10). -/
def Obligations.CmdWriteStartsAnOperation : Prop :=
  ∀ (s : State) (a : Half) (w : Word) (more : List Input), a.toNat / 4 = 2 → s.busy = false →
    s.inputs = .hostWrite a w :: more →
    step s = .next { s with inputs := more, op := w.extractLsb' 0 8, imm := w.extractLsb' 8 8, busy := true,
                            seq := [.fetch] }

/-! ## The host port -/

/-- STATUS (R33): what each bit of a read holds, that a read has no side effect, that a write clears OVR if bit 16 is 1
and does nothing else, busy or not, and its value at reset. -/
def Obligations.StatusRegister : Prop :=
  (∀ s : State,
    s.statusWord.getLsbD 0 = s.busy ∧ s.statusWord.extractLsb' 1 3 = s.pstate.code ∧
    s.statusWord.extractLsb' 4 1 = modeBit s.mode ∧ s.statusWord.getLsbD 5 = s.wait ∧
    s.statusWord.extractLsb' 6 2 = 0 ∧ s.statusWord.extractLsb' 8 4 = s.err.code ∧
    s.statusWord.extractLsb' 12 4 = 0 ∧ s.statusWord.getLsbD 16 = s.ovr ∧ s.statusWord.getLsbD 17 = s.busyIn ∧
    s.statusWord.extractLsb' 18 14 = 0) ∧
  (∀ (s : State) (a : Half) (more : List Input), a.toNat / 4 = 1 → s.inputs = .hostRead a :: more →
    step s = .next { s with inputs := more, reads := s.reads ++ [(a, s.statusWord)] }) ∧
  (∀ (s : State) (a : Half) (v : Word) (more : List Input), a.toNat / 4 = 1 → s.inputs = .hostWrite a v :: more →
    step s = .next { s with inputs := more, ovr := if v.getLsbD 16 then false else s.ovr }) ∧
  (∀ (c : Config) (v : Level), (State.resetWith c v).statusWord = if v then 0x00020000 else 0x00000000)

/-- The codes of PSTATE (R35), MODE (R36) and ERR (R241) are distinct, and ERR is OK exactly when its code is 0. -/
def Obligations.StatusCodes : Prop :=
  (PState.uninitialized.code = 0 ∧ PState.initialized.code = 1 ∧ PState.displaying.code = 2 ∧ PState.asleep.code = 3) ∧
  (modeBit .fullRefresh = 0 ∧ modeBit .partialRefresh = 1) ∧
  (ErrCode.ok.code = 0 ∧ ErrCode.invalidArg.code = 1 ∧ ErrCode.outOfBounds.code = 2 ∧ ErrCode.notInit.code = 3 ∧
    ErrCode.badOp.code = 4)

/-- GEOM (R32): W in bits 15:0, H in bits 31:16 (for a configuration of R8); no step changes it, a write changes nothing,
and the reference geometry reads 0x00C800C8. -/
def Obligations.GeomRegister : Prop :=
  (∀ (s : State) (a : Half) (more : List Input), s.cfg.WellFormed → a.toNat / 4 = 0 → s.inputs = .hostRead a :: more →
    ∃ v : Word, step s = .next { s with inputs := more, reads := s.reads ++ [(a, v)] } ∧ v = geomWord s.cfg ∧
      (v.extractLsb' 0 16).toNat = s.cfg.width ∧ (v.extractLsb' 16 16).toNat = s.cfg.height) ∧
  (∀ s t : State, step s = .next t → geomWord t.cfg = geomWord s.cfg) ∧
  (∀ (s : State) (a : Half) (v : Word) (more : List Input), a.toNat / 4 = 0 → s.inputs = .hostWrite a v :: more →
    step s = .next { s with inputs := more }) ∧
  geomWord Config.reference = 0x00C800C8

/-- A write of CMD, ARGn or LIST while BUSY = 1 sets OVR and does nothing else; and OVR goes from 0 to 1 and from 1 to 0
by nothing else than such a write, and a STATUS write with bit 16 = 1 or block reset (R39). -/
def Obligations.RefusedWriteSetsOvr : Prop :=
  (∀ (s : State) (a : Half) (v : Word) (more : List Input), s.busy = true →
    (a.toNat / 4 = 2 ∨ (4 ≤ a.toNat / 4 ∧ a.toNat / 4 ≤ 7) ∨ (0x40 ≤ a.toNat / 4 ∧ a.toNat / 4 ≤ 0x7F)) →
    s.inputs = .hostWrite a v :: more → step s = .next { s with inputs := more, ovr := true }) ∧
  (∀ s t : State, step s = .next t → s.ovr = false → t.ovr = true →
    s.busy = true ∧ ∃ a v more, s.inputs = .hostWrite a v :: more ∧
      (a.toNat / 4 = 2 ∨ (4 ≤ a.toNat / 4 ∧ a.toNat / 4 ≤ 7) ∨ (0x40 ≤ a.toNat / 4 ∧ a.toNat / 4 ≤ 0x7F))) ∧
  (∀ s t : State, step s = .next t → s.ovr = true → t.ovr = false →
    ∃ more, s.inputs = .blockReset :: more ∨
      ∃ a v, s.inputs = .hostWrite a v :: more ∧ a.toNat / 4 = 1 ∧ v.getLsbD 16 = true)

/-- ARG0 to ARG3 (R43): a write with BUSY = 0 stores bits 15:0 and changes nothing else; a read returns the stored value
zero-extended; and no step but such a write of that register, or block reset, changes it. -/
def Obligations.ArgRegisters : Prop :=
  (∀ (s : State) (a : Half) (v : Word) (more : List Input), s.busy = false → s.inputs = .hostWrite a v :: more →
    (a.toNat / 4 = 4 → step s = .next { s with inputs := more, arg0 := v.extractLsb' 0 16 }) ∧
    (a.toNat / 4 = 5 → step s = .next { s with inputs := more, arg1 := v.extractLsb' 0 16 }) ∧
    (a.toNat / 4 = 6 → step s = .next { s with inputs := more, arg2 := v.extractLsb' 0 16 }) ∧
    (a.toNat / 4 = 7 → step s = .next { s with inputs := more, arg3 := v.extractLsb' 0 16 })) ∧
  (∀ (s : State) (a : Half) (more : List Input), s.inputs = .hostRead a :: more →
    (a.toNat / 4 = 4 → step s = .next { s with inputs := more, reads := s.reads ++ [(a, s.arg0.zeroExtend 32)] }) ∧
    (a.toNat / 4 = 5 → step s = .next { s with inputs := more, reads := s.reads ++ [(a, s.arg1.zeroExtend 32)] }) ∧
    (a.toNat / 4 = 6 → step s = .next { s with inputs := more, reads := s.reads ++ [(a, s.arg2.zeroExtend 32)] }) ∧
    (a.toNat / 4 = 7 → step s = .next { s with inputs := more, reads := s.reads ++ [(a, s.arg3.zeroExtend 32)] })) ∧
  (∀ s t : State, step s = .next t → (∀ more, s.inputs ≠ .blockReset :: more) →
    (t.arg0 ≠ s.arg0 → s.busy = false ∧ ∃ a v more, a.toNat / 4 = 4 ∧ s.inputs = .hostWrite a v :: more) ∧
    (t.arg1 ≠ s.arg1 → s.busy = false ∧ ∃ a v more, a.toNat / 4 = 5 ∧ s.inputs = .hostWrite a v :: more) ∧
    (t.arg2 ≠ s.arg2 → s.busy = false ∧ ∃ a v more, a.toNat / 4 = 6 ∧ s.inputs = .hostWrite a v :: more) ∧
    (t.arg3 ≠ s.arg3 → s.busy = false ∧ ∃ a v more, a.toNat / 4 = 7 ∧ s.inputs = .hostWrite a v :: more))

/-- LIST (R44): a write of entry `i` with BUSY = 0 stores bits 7:0 there, leaves every other entry and everything else as
it was; a read of entry `i` returns it zero-extended; and no step but a write of a LIST entry with BUSY = 0, or block reset,
changes LIST. -/
def Obligations.ListBuffer : Prop :=
  (∀ (s : State) (a : Half) (v : Word) (more : List Input) (i : Nat), s.busy = false → i < 64 → a.toNat / 4 = 0x40 + i →
    s.inputs = .hostWrite a v :: more →
    ∃ t, step s = .next t ∧ t = { s with inputs := more, list := t.list } ∧
      ∀ j, t.listByte j = if j = i then v.extractLsb' 0 8 else s.listByte j) ∧
  (∀ (s : State) (a : Half) (more : List Input) (i : Nat), i < 64 → a.toNat / 4 = 0x40 + i →
    s.inputs = .hostRead a :: more →
    step s = .next { s with inputs := more, reads := s.reads ++ [(a, (s.listByte i).zeroExtend 32)] }) ∧
  (∀ s t : State, step s = .next t → t.list ≠ s.list →
    ∃ more, s.inputs = .blockReset :: more ∨
      (s.busy = false ∧ ∃ a v, 0x40 ≤ a.toNat / 4 ∧ a.toNat / 4 ≤ 0x7F ∧ s.inputs = .hostWrite a v :: more))

/-- FBWIN (R72), outside the race of R84: entry `i` reads FB[i] zero-extended below FB_BYTES and 0 from there on, with no
other effect, and a write to the window changes nothing, OVR included. -/
def Obligations.FramebufferWindow : Prop :=
  (∀ (s : State) (a : Half) (more : List Input) (i : Nat), a.toNat / 4 = 0x2000 + i →
    ¬(s.busy = true ∧ (s.op = 0x20 ∨ s.op = 0x21)) → s.inputs = .hostRead a :: more →
    step s = .next { s with inputs := more, reads := s.reads ++
      [(a, if i < s.cfg.fbBytes then (s.fbByte i).zeroExtend 32 else 0)] }) ∧
  (∀ (s : State) (a : Half) (v : Word) (more : List Input), 0x2000 ≤ a.toNat / 4 → s.inputs = .hostWrite a v :: more →
    step s = .next { s with inputs := more })

/-- While SET_PIXEL or FILL runs, an FBWIN read below FB_BYTES returns the byte before or the byte after the operation
(R84): the byte FB holds now, or the byte it holds once the operation's one step has run (log 8). The choice between them
is the model's free value (log 7). From FB_BYTES on such a read returns 0 (R72). -/
def Obligations.FramebufferWindowRace : Prop :=
  (∀ (s u : State) (a : Half) (more : List Input) (i : Nat), a.toNat / 4 = 0x2000 + i → i < s.cfg.fbBytes →
    s.busy = true → (s.op = 0x20 ∨ s.op = 0x21) → s.seq = [.fetch] → s.inputs = .hostRead a :: more →
    s.sequence exec = .next u →
    ∃ t v, step s = .next t ∧ t = { s with inputs := more, reads := s.reads ++ [(a, v)], draws := s.draws + 1 } ∧
      (v = (s.fbByte i).zeroExtend 32 ∨ v = (u.fbByte i).zeroExtend 32)) ∧
  (∀ (s : State) (a : Half) (more : List Input) (i : Nat), a.toNat / 4 = 0x2000 + i → s.cfg.fbBytes ≤ i →
    s.busy = true → (s.op = 0x20 ∨ s.op = 0x21) → s.inputs = .hostRead a :: more →
    step s = .next { s with inputs := more, reads := s.reads ++ [(a, 0)], draws := s.draws + 1 })

/-- An unmapped access (R74): a read returns 0 and a write has no effect; neither raises an error or sets OVR. The
unmapped words are those no row of R31 maps. CMD, which is write-only, reads 0 too (R41). -/
def Obligations.UnmappedAccess : Prop :=
  (∀ (s : State) (a : Half) (more : List Input),
    ((8 ≤ a.toNat / 4 ∧ a.toNat / 4 < 0x40) ∨ (0x7F < a.toNat / 4 ∧ a.toNat / 4 < 0x2000) ∨ a.toNat / 4 = 2) →
    s.inputs = .hostRead a :: more → step s = .next { s with inputs := more, reads := s.reads ++ [(a, 0)] }) ∧
  (∀ (s : State) (a : Half) (v : Word) (more : List Input),
    ((8 ≤ a.toNat / 4 ∧ a.toNat / 4 < 0x40) ∨ (0x7F < a.toNat / 4 ∧ a.toNat / 4 < 0x2000)) →
    s.inputs = .hostWrite a v :: more → step s = .next { s with inputs := more })

/-- The block ignores address bits 1:0 (R75): an access at offset `a` behaves as one at `a - a mod 4`, and none traps. A
write gives the same next state at both; a read gives the same value and, but for the offset in the record of reads, the
same next state. -/
def Obligations.AddressBitsIgnored : Prop :=
  ∀ (s : State) (a b : Half) (more : List Input), b.toNat = a.toNat - a.toNat % 4 →
    (∀ v : Word, ∃ t, step { s with inputs := .hostWrite a v :: more } = .next t ∧
      step { s with inputs := .hostWrite b v :: more } = .next t) ∧
    (∃ (t : State) (v : Word), step { s with inputs := .hostRead a :: more } = .next t ∧ t.reads = s.reads ++ [(a, v)] ∧
      step { s with inputs := .hostRead b :: more } = .next { t with reads := s.reads ++ [(b, v)] })

/-- RESULT (R42): a read returns it zero-extended with no other effect; a host write of it is ignored, busy or not (R31);
it changes only at the end, by `done`, of a GET_PIXEL, GET_WIDTH or GET_HEIGHT, or by block reset. (That the end is the
very step that writes RESULT is log 8.) -/
def Obligations.ResultRegister : Prop :=
  (∀ (s : State) (a : Half) (more : List Input), a.toNat / 4 = 3 → s.inputs = .hostRead a :: more →
    step s = .next { s with inputs := more, reads := s.reads ++ [(a, s.result.zeroExtend 32)] }) ∧
  (∀ (s : State) (a : Half) (v : Word) (more : List Input), a.toNat / 4 = 3 → s.inputs = .hostWrite a v :: more →
    step s = .next { s with inputs := more }) ∧
  (∀ s t : State, step s = .next t → t.result ≠ s.result →
    (∃ more, s.inputs = .blockReset :: more) ∨
    ((s.op = 0x22 ∨ s.op = 0x30 ∨ s.op = 0x31) ∧ t.err = .ok ∧ t.busy = false))

/-! ## Reset -/

/-- Block reset from any state (R270, R55, R271): every register and output at its reset value, FB and LIST drawn afresh
(nothing written, so each byte is that reset's free draw), CS(1) and RST(1) in the trace where the line was low. That
CS(1) comes first is the model's choice (log 18), as are that a byte the reset cuts short leaves no BYTE event (log 11)
and that the trace keeps a DELAY it cuts short (log 21). -/
def Obligations.BlockReset : Prop :=
  ∀ (s : State) (more : List Input), s.inputs = .blockReset :: more →
    ∃ t, step s = .next t ∧
      t.busy = false ∧ t.pstate = .uninitialized ∧ t.mode = .fullRefresh ∧ t.wait = false ∧ t.err = .ok ∧
      t.ovr = false ∧ t.busyIn = s.busyIn ∧ t.result = 0 ∧ t.arg0 = 0 ∧ t.arg1 = 0 ∧ t.arg2 = 0 ∧ t.arg3 = 0 ∧
      t.seq = [] ∧ t.csN = true ∧ t.dc = true ∧ t.sclk = false ∧ t.mosi = false ∧ t.rstN = true ∧ t.cfg = s.cfg ∧
      (∀ i, t.fbByte i = Config.fbDraw (s.resets + 1) i) ∧ (∀ i, t.listByte i = Config.listDraw (s.resets + 1) i) ∧
      t.trace = s.trace ++ (if s.csN then [] else [.cs true]) ++ (if s.rstN then [] else [.rst true]) ∧
      t.inputs = more ∧ t.reads = s.reads

/-- Power-on leaves what R55 gives, in every configuration and for every BUSY level, and `State.reset` is the power-on
state of one configuration: no event has happened and an idle block stays as it is (R272). -/
def Obligations.PowerOnState : Prop :=
  (∀ (c : Config) (v : Level),
    (State.resetWith c v).busy = false ∧ (State.resetWith c v).pstate = .uninitialized ∧
    (State.resetWith c v).mode = .fullRefresh ∧ (State.resetWith c v).wait = false ∧
    (State.resetWith c v).err = .ok ∧ (State.resetWith c v).ovr = false ∧ (State.resetWith c v).busyIn = v ∧
    (State.resetWith c v).result = 0 ∧ (State.resetWith c v).arg0 = 0 ∧ (State.resetWith c v).arg1 = 0 ∧
    (State.resetWith c v).arg2 = 0 ∧ (State.resetWith c v).arg3 = 0 ∧ (State.resetWith c v).seq = [] ∧
    (State.resetWith c v).csN = true ∧ (State.resetWith c v).dc = true ∧ (State.resetWith c v).sclk = false ∧
    (State.resetWith c v).mosi = false ∧ (State.resetWith c v).rstN = true ∧ (State.resetWith c v).trace = [] ∧
    (∀ i, (State.resetWith c v).fbByte i = Config.fbDraw 0 i) ∧
    (∀ i, (State.resetWith c v).listByte i = Config.listDraw 0 i) ∧
    step (State.resetWith c v) = .next (State.resetWith c v)) ∧
  (∃ c v, State.reset = State.resetWith c v)

/-! ## The whole machine -/

/-- The invariant holds at reset, in every configuration that meets R8, and in `State.reset`. -/
def Obligations.InvariantAtReset : Prop :=
  (∀ (c : Config) (v : Level), c.WellFormed → Inv (State.resetWith c v)) ∧ Inv State.reset

/-- Every step keeps the invariant, from every state that meets it and whatever comes next. -/
def Obligations.InvariantKept : Prop :=
  ∀ s t : State, Inv s → step s = .next t → Inv t

/-- A state that meets the invariant never stops: the model's own faults and refusal (log 15) guard states outside it. In
particular the framer shifts out no FB byte outside FB and no LIST byte outside LIST (R71, R180), and no host access errs
(R53, R74). -/
def Obligations.InvariantStatesNeverStop : Prop :=
  ∀ s : State, Inv s → ∃ t, step s = .next t

/-- No step changes the parameters (R7: fixed when the block is built). -/
def Obligations.ParametersFixed : Prop :=
  ∀ s t : State, step s = .next t → t.cfg = s.cfg

/-- Only SET_PIXEL and FILL write FB; block reset leaves it unspecified (R47, R71). That the write is one step, the step
that also ends the operation by `done`, is the model's choice (log 8). -/
def Obligations.OnlySetPixelAndFillWriteFb : Prop :=
  ∀ s t : State, step s = .next t → t.fb ≠ s.fb →
    (∃ more, s.inputs = .blockReset :: more) ∨
    ((s.op = 0x20 ∨ s.op = 0x21) ∧ (∃ rest, s.seq = .fetch :: rest) ∧ t.err = .ok ∧ t.busy = false)

/-- PSTATE moves only as the table of R161 says, in the operation that the table names, and by block reset. DISPLAY_FRAME
apart (R84, R189), the move is in the step that ends the operation: that PSTATE, ERR and BUSY change in one step is the
model's choice (log 14). -/
def Obligations.PanelStateMoves : Prop :=
  ∀ s t : State, Inv s → step s = .next t → t.pstate ≠ s.pstate →
    (t.pstate = .uninitialized ∧ ∃ more, s.inputs = .blockReset :: more) ∨
    (t.pstate = .initialized ∧ s.op = 0x10 ∧ t.err = .ok ∧ t.busy = false) ∨
    (s.pstate = .displaying ∧ t.pstate = .initialized ∧ (s.op = 0x11 ∨ s.op = 0x12 ∨ s.op = 0x13) ∧ t.err = .ok ∧
      t.busy = false) ∨
    (s.pstate = .initialized ∧ t.pstate = .displaying ∧ s.op = 0x14 ∧ t.busy = true) ∨
    ((s.pstate = .initialized ∨ s.pstate = .displaying) ∧ t.pstate = .asleep ∧ s.op = 0x15 ∧ t.err = .ok ∧
      t.busy = false)

/-- MODE changes only at the successful end of INIT, to INIT's flag, and by block reset (R36). That MODE, PSTATE, ERR and
BUSY change in one step is the model's choice (log 14). -/
def Obligations.OnlyInitWritesMode : Prop :=
  ∀ s t : State, Inv s → step s = .next t → t.mode ≠ s.mode →
    (t.mode = .fullRefresh ∧ ∃ more, s.inputs = .blockReset :: more) ∨
    (s.op = 0x10 ∧ t.mode = modeOfFlag (s.imm.getLsbD 0) ∧ t.pstate = .initialized ∧ t.err = .ok ∧ t.busy = false)

/-- ERR is written only at the end of an operation: a step that changes it ends the operation, or is block reset (R38).
That ERR and BUSY change in one step is the model's choice (log 14). -/
def Obligations.ErrWrittenOnlyAtTheEnd : Prop :=
  ∀ s t : State, Inv s → step s = .next t → t.err ≠ s.err →
    (∃ more, s.inputs = .blockReset :: more) ∨ (s.busy = true ∧ t.busy = false ∧ t.seq = [])

/-- While an operation runs, a step that does not reset the block changes no ARGn, no LIST byte, no OP and no IMM: the
operation sees the operands that stood when its CMD write was accepted (R87). -/
def Obligations.OperandsFixedWhileBusy : Prop :=
  ∀ s t : State, step s = .next t → s.busy = true → (∀ more, s.inputs ≠ .blockReset :: more) →
    t.arg0 = s.arg0 ∧ t.arg1 = s.arg1 ∧ t.arg2 = s.arg2 ∧ t.arg3 = s.arg3 ∧ t.list = s.list ∧ t.op = s.op ∧ t.imm = s.imm

/-- The block never sends a command byte other than the 15 of R110 on its own: a command byte enters the trace only in
an operation by which the host sends it (SEND_CMD, SEND_CMD_DATA), or it is a panel command (R111). -/
def Obligations.OnlyPanelCommandsAreSent : Prop :=
  ∀ (s t : State) (b : Byte), Inv s → step s = .next t → t.trace = s.trace ++ [.byte false b] →
    (s.op = 0x01 ∨ s.op = 0x05) ∨ ∃ i, decode (.panelByte b) = .ok i

/-- The bus lines (R131 to R133): every edge of SCLK, rising or falling, has CS_N = 0 on both sides, with DC and MOSI held
across it; while CS_N stays 1 neither SCLK nor DC nor MOSI moves; and SCLK is 0 on both sides of every edge of CS_N. Block
reset, which drives every line to its reset level at once (R270), can end a transaction anywhere; it raises no SCLK. -/
def Obligations.ClockOnlyInsideTransactions : Prop :=
  ∀ s t : State, Inv s → step s = .next t →
    (s.sclk = false → t.sclk = true → s.csN = false ∧ t.csN = false ∧ t.dc = s.dc ∧ t.mosi = s.mosi) ∧
    ((∀ more, s.inputs ≠ .blockReset :: more) →
      (s.sclk = true → t.sclk = false → s.csN = false ∧ t.csN = false ∧ t.dc = s.dc ∧ t.mosi = s.mosi) ∧
      (s.csN = true → t.csN = true → t.sclk = s.sclk ∧ t.dc = s.dc ∧ t.mosi = s.mosi) ∧
      (t.csN ≠ s.csN → s.sclk = false ∧ t.sclk = false))

/-! ## Errors -/

/-- Errors are precise (R243): when a CMD write starts an operation that raises, the state after it equals the state
before the CMD write, except for ERR (and the latched OP and IMM, which no register shows): no event, no output, no
register, no byte. (That it raises in the step after the CMD write is log 10.) -/
def Obligations.ErrorsArePrecise : Prop :=
  ∀ (s u : State) (a : Half) (w : Word), a.toNat / 4 = 2 → s.busy = false → s.seq = [] → s.inputs = [.hostWrite a w] →
    run 2 s = .next u → u.seq = [] → u.err ≠ .ok →
    u = { s with inputs := [], err := u.err, op := w.extractLsb' 0 8, imm := w.extractLsb' 8 8 }

/-- The five gated operations raise NOT_INIT in UNINITIALIZED and ASLEEP before any other check and any event (R164,
R244), whatever their operands. -/
def Obligations.PanelOperationsNeedInit : Prop :=
  ∀ (s : State) (col : Colour) (i : Instr), (s.pstate = .uninitialized ∨ s.pstate = .asleep) →
    i ∈ [.setFrameFull, .setFrameRect, .clearFrame col, .displayFrame, .sleep] →
    exec i s = .next { s with err := .notInit, busy := false, seq := [] }

/-- SET_FRAME_RECT's argument checks, past the gate (R175, R176, R178), in the order of R244: negative or inverted
coordinates raise INVALID_ARG; else a rounded rectangle that exceeds the panel raises OUT_OF_BOUNDS; else a rectangle of
width 0 (`xs = xe`, a multiple of 8) raises INVALID_ARG. -/
def Obligations.RectangleChecks : Prop :=
  ∀ (s : State) (xs ys xe ye : Int), (s.pstate = .initialized ∨ s.pstate = .displaying) →
    xs = s.arg0.toInt → ys = s.arg1.toInt → xe = s.arg2.toInt → ye = s.arg3.toInt →
    (if xs < 0 ∨ ys < 0 ∨ xe < 0 ∨ ye < 0 ∨ xs > xe ∨ ys > ye then
      exec .setFrameRect s = .next { s with err := .invalidArg, busy := false, seq := [] }
    else if 8 * ((xe + 7) / 8) > s.cfg.width ∨ ye > s.cfg.height - 1 then
      exec .setFrameRect s = .next { s with err := .outOfBounds, busy := false, seq := [] }
    else if xs = xe ∧ xs % 8 = 0 then
      exec .setFrameRect s = .next { s with err := .invalidArg, busy := false, seq := [] }
    else ∃ t, exec .setFrameRect s = .next t ∧ t.err = s.err ∧ t.seq ≠ [])

/-! ## The framer -/

/-- One BYTE on the wires (R131): DC first, then for each bit from 7 down to 0 MOSI is set with SCLK low, and SCLK rises
with DC and MOSI held; after the last falling edge SCLK is low and `16*T` cycles have passed. The number of model steps
this takes, and that the BYTE event enters the trace at the last falling edge, are the model's choice (log 11). -/
def Obligations.ByteOnTheWires : Prop :=
  ∀ (s : State) (p : Payload) (rest : List SeqStep) (dc : Level) (b : Byte), s.inputs = [] → s.seq = .txn p :: rest →
    s.phase = .dcSet → s.sclk = false → payloadByte s p s.byteCnt = .ok (dc, b) →
    (∀ i, i < 8 → ∃ t u, run (3 * i + 2) s = .next t ∧ run (3 * i + 3) s = .next u ∧
      t.sclk = false ∧ t.mosi = b.getLsbD (7 - i) ∧ t.dc = dc ∧ t.csN = s.csN ∧
      u.sclk = true ∧ u.mosi = b.getLsbD (7 - i) ∧ u.dc = dc ∧ u.csN = s.csN) ∧
    (∃ u, run 25 s = .next u ∧ u.sclk = false ∧ u.dc = dc ∧ u.csN = s.csN ∧ u.trace = s.trace ++ [.byte dc b] ∧
      u.busTime = s.busTime + 16 * s.cfg.sclkDiv)

/-- A transaction, step by wire step (log 11), is its events (R132, R133): from its first step the framer reaches the state
with `Txn(l)` added to the trace for the pairs `l` it sends, CS_N = 1 and SCLK = 0, DC and MOSI at the last byte's levels,
`(16*k + 4)*T` cycles later (R285), everything else as it was, and the sequencer at the next step. -/
def Obligations.TransactionOnTheWires : Prop :=
  ∀ (s : State) (p : Payload) (rest : List SeqStep), s.inputs = [] → s.seq = .txn p :: rest → s.phase = .csLow →
    p.Legal s.cfg → Reaches s { afterTxn (p.content s) s with seq := rest }

/-- SEND_CMD (R139) and SEND_DATA (R141): their encoding, and that each, in every panel state, emits one transaction of
its one byte and ends by `done` with nothing else changed. -/
def Obligations.SendCmdAndSendData : Prop :=
  (∀ w : Word, opField w = 0x01 → decode (.cmdWord w) = .ok (.sendCmd (immField w))) ∧
  (∀ w : Word, opField w = 0x02 → decode (.cmdWord w) = .ok (.sendData (immField w))) ∧
  (∀ (c : Byte) (s : State), Quiet s → ∃ t u, exec (.sendCmd c) s = .next t ∧ Reaches t u ∧
    EndedWith s u [.cs false, .byte false c, .cs true] s.pstate s.mode) ∧
  (∀ (d : Byte) (s : State), Quiet s → ∃ t u, exec (.sendData d) s = .next t ∧ Reaches t u ∧
    EndedWith s u [.cs false, .byte true d, .cs true] s.pstate s.mode)

/-- SEND_DATA_LIST (R143): INVALID_ARG and no event for n = 0 or n > 64, else one transaction of the n data bytes
LIST[0 .. n-1], whatever IMM and the panel state. -/
def Obligations.SendDataList : Prop :=
  (∀ w : Word, opField w = 0x03 → decode (.cmdWord w) = .ok .sendDataList) ∧
  (∀ s : State, s.arg0.toNat = 0 ∨ 64 < s.arg0.toNat →
    exec .sendDataList s = .next { s with err := .invalidArg, busy := false, seq := [] }) ∧
  (∀ s : State, Quiet s → 1 ≤ s.arg0.toNat → s.arg0.toNat ≤ 64 → ∃ t u, exec .sendDataList s = .next t ∧ Reaches t u ∧
    EndedWith s u (dataEvents (s.listSlice s.arg0.toNat)) s.pstate s.mode)

/-- SEND_DATA_BUF (R145, R146): INVALID_ARG and no event for len = 0 or off + len > FB_BYTES over the integers, else one
transaction of the data bytes FB[off .. off+len-1]. -/
def Obligations.SendDataBuf : Prop :=
  (∀ w : Word, opField w = 0x04 → decode (.cmdWord w) = .ok .sendDataBuf) ∧
  (∀ s : State, s.arg1.toNat = 0 ∨ s.cfg.fbBytes < s.arg0.toNat + s.arg1.toNat →
    exec .sendDataBuf s = .next { s with err := .invalidArg, busy := false, seq := [] }) ∧
  (∀ s : State, Quiet s → 1 ≤ s.arg1.toNat → s.arg0.toNat + s.arg1.toNat ≤ s.cfg.fbBytes →
    ∃ t u, exec .sendDataBuf s = .next t ∧ Reaches t u ∧
      EndedWith s u (dataEvents (s.fbSlice s.arg0.toNat s.arg1.toNat)) s.pstate s.mode)

/-- SEND_CMD_DATA (R147, R138): INVALID_ARG and no event for n > 64, else ONE transaction of the command byte and the n
parameter bytes LIST[0 .. n-1]; n = 0 sends the command alone. -/
def Obligations.SendCmdData : Prop :=
  (∀ w : Word, opField w = 0x05 → decode (.cmdWord w) = .ok (.sendCmdData (immField w))) ∧
  (∀ (c : Byte) (s : State), 64 < s.arg0.toNat →
    exec (.sendCmdData c) s = .next { s with err := .invalidArg, busy := false, seq := [] }) ∧
  (∀ (c : Byte) (s : State), Quiet s → s.arg0.toNat ≤ 64 → ∃ t u, exec (.sendCmdData c) s = .next t ∧ Reaches t u ∧
    EndedWith s u ([.cs false, .byte false c] ++ (s.listSlice s.arg0.toNat).map (.byte true) ++ [.cs true])
      s.pstate s.mode)

/-! ## The panel commands -/

/-- The seven commands of INIT (R200 to R206): from every state the command's meaning answers the state in which the
framer then sends, in one transaction, the command byte and the parameter bytes its rule gives, and nothing else
changes. The LUT of 0x32 is the one the latched IMM[0] selects (R204; log 12). -/
def Obligations.InitCommandsSend : Prop :=
  ∀ s : State, s.inputs = [] → ∀ x ∈ [(Instr.driverOutputControl, 0x01#8, s.cfg.initDriverOutput),
      (.boosterSoftStart, 0x0C#8, s.cfg.initBooster), (.vcom, 0x2C#8, s.cfg.initVcom),
      (.dummyLinePeriod, 0x3A#8, s.cfg.initDummyLine), (.gateTime, 0x3B#8, s.cfg.initGateTime),
      (.dataEntryMode, 0x11#8, s.cfg.initDataEntry),
      (.lutUpload, 0x32#8, if s.imm.getLsbD 0 then s.cfg.lutPartial else s.cfg.lutFull)],
    ∃ t, exec x.1 s = .next t ∧
      Reaches t (afterTxn ((false, x.2.1) :: x.2.2.map (fun b => (true, b))) s)

/-- The write-RAM, refresh and sleep commands (R195, R211 to R213), from every state, and the window and cursor commands
(R207 to R210): as for INIT's. The window is the rounded rectangle while SET_FRAME_RECT runs (OP 0x12) and the whole panel
otherwise (R170, R179); that a command of the panel takes it from the running operation is log 12. -/
def Obligations.WindowAndRefreshCommandsSend : Prop :=
  (∀ s : State, s.inputs = [] →
    ∀ x ∈ [(Instr.activate, 0x20#8, []), (.displayUpdateControl, 0x22#8, [s.cfg.updateCtrl2]), (.writeRam, 0x24#8, []),
      (.deepSleep, 0x10#8, s.cfg.sleepData)],
    ∃ t, exec x.1 s = .next t ∧ Reaches t (afterTxn ((false, x.2.1) :: x.2.2.map (fun b => (true, b))) s)) ∧
  (∀ (s : State) (xb0 xb1 y0 y1 : Nat), s.inputs = [] →
    ((s.op = 0x12 ∧ (xb0 : Int) = s.arg0.toInt / 8 ∧ (xb1 : Int) = (s.arg2.toInt + 7) / 8 - 1 ∧
        (y0 : Int) = s.arg1.toInt ∧ (y1 : Int) = s.arg3.toInt) ∨
      (s.op ≠ 0x12 ∧ xb0 = 0 ∧ xb1 = s.cfg.rowBytes - 1 ∧ y0 = 0 ∧ y1 = s.cfg.height - 1)) →
    ∀ x ∈ [(Instr.addressWindowX, 0x44#8, [BitVec.ofNat 8 xb0, BitVec.ofNat 8 xb1]),
      (.addressWindowY, 0x45#8, yaddr s.cfg y0 ++ yaddr s.cfg y1), (.cursorX, 0x4E#8, [BitVec.ofNat 8 xb0]),
      (.cursorY, 0x4F#8, yaddr s.cfg y0)],
    ∃ t, exec x.1 s = .next t ∧ Reaches t (afterTxn ((false, x.2.1) :: x.2.2.map (fun b => (true, b))) s))

/-! ## The panel operations -/

/-- INIT (R185): accepted in every panel state, it emits the reset pulse and the seven commands in order, with the LUT of
its flag, and ends INITIALIZED with MODE = its flag. -/
def Obligations.InitRuns : Prop :=
  (∀ w : Word, opField w = 0x10 → decode (.cmdWord w) = .ok (.init (modeOfFlag ((immField w).getLsbD 0)))) ∧
  (∀ (p : Mode) (s : State), Quiet s → s.op = 0x10 → p = modeOfFlag (s.imm.getLsbD 0) →
    ∃ t u, exec (.init p) s = .next t ∧ Reaches t u ∧ EndedWith s u (initEvents s.cfg p) .initialized p)

/-- SET_FRAME_FULL (R187, R170) on an idle panel: window and cursor of the whole panel, one sample, 0x24, then the whole
FB in one data transaction; it ends INITIALIZED with MODE kept. -/
def Obligations.SetFrameFullRuns : Prop :=
  (∀ w : Word, opField w = 0x11 → decode (.cmdWord w) = .ok .setFrameFull) ∧
  (∀ s : State, Quiet s → s.cfg.WellFormed → s.op = 0x11 → (s.pstate = .initialized ∨ s.pstate = .displaying) →
    PanelIdle s → ∃ t u, exec .setFrameFull s = .next t ∧ Reaches t u ∧
      EndedWith s u (windowCursorEvents s.cfg ⟨0, s.cfg.rowBytes - 1, 0, s.cfg.height - 1⟩ s.busyIn ++
        cmdEvents 0x24 [] ++ dataEvents (s.fbSlice 0 s.cfg.fbBytes)) .initialized s.mode)

/-- SET_FRAME_RECT (R179, R180) on an idle panel, for a rectangle that passes its checks: the window and cursor of the
rounded rectangle, one sample, 0x24, then one data transaction per row read from FB at the real row stride; it ends
INITIALIZED with MODE kept. -/
def Obligations.SetFrameRectRuns : Prop :=
  (∀ w : Word, opField w = 0x12 → decode (.cmdWord w) = .ok .setFrameRect) ∧
  (∀ (s : State) (xs ys xe ye : Nat), Quiet s → s.cfg.WellFormed → s.op = 0x12 →
    (s.pstate = .initialized ∨ s.pstate = .displaying) → PanelIdle s →
    s.arg0.toInt = xs → s.arg1.toInt = ys → s.arg2.toInt = xe → s.arg3.toInt = ye →
    xs ≤ xe → ys ≤ ye → 8 * ((xe + 7) / 8) ≤ s.cfg.width → ye < s.cfg.height → ¬(xs = xe ∧ xs % 8 = 0) →
    ∃ t u, exec .setFrameRect s = .next t ∧ Reaches t u ∧
      EndedWith s u (windowCursorEvents s.cfg ⟨xs / 8, (xe + 7) / 8 - 1, ys, ye⟩ s.busyIn ++ cmdEvents 0x24 [] ++
        (List.range (ye - ys + 1)).flatMap (fun r =>
          dataEvents (s.fbSlice ((ys + r) * s.cfg.rowBytes + xs / 8) ((xe + 7) / 8 - xs / 8)))) .initialized s.mode)

/-- CLEAR_FRAME (R188, R197) on an idle panel: window and cursor of the whole panel, one sample, 0x24, then
ROW_BYTES * H data bytes 0x00 for BLACK or 0xFF for WHITE in one transaction; FB is unchanged. -/
def Obligations.ClearFrameRuns : Prop :=
  (∀ w : Word, opField w = 0x13 → decode (.cmdWord w) = .ok (.clearFrame (colourOfFlag ((immField w).getLsbD 0)))) ∧
  (∀ (col : Colour) (s : State), Quiet s → s.cfg.WellFormed → s.op = 0x13 →
    (s.pstate = .initialized ∨ s.pstate = .displaying) → PanelIdle s →
    ∃ t u, exec (.clearFrame col) s = .next t ∧ Reaches t u ∧
      EndedWith s u (windowCursorEvents s.cfg ⟨0, s.cfg.rowBytes - 1, 0, s.cfg.height - 1⟩ s.busyIn ++
        cmdEvents 0x24 [] ++
        dataEvents (List.replicate (s.cfg.rowBytes * s.cfg.height) (match col with | .black => 0x00 | .white => 0xFF)))
        .initialized s.mode)

/-- DISPLAY_FRAME (R189) on an idle panel: 0x22 with the refresh-control byte, 0x20, one sample; it ends DISPLAYING with
MODE kept. (On a busy panel it polls: `WaitIdlePolls`, `WaitIdleHangs`.) -/
def Obligations.DisplayFrameRuns : Prop :=
  (∀ w : Word, opField w = 0x14 → decode (.cmdWord w) = .ok .displayFrame) ∧
  (∀ s : State, Quiet s → (s.pstate = .initialized ∨ s.pstate = .displaying) → PanelIdle s →
    ∃ t u, exec .displayFrame s = .next t ∧ Reaches t u ∧
      EndedWith s u (cmdEvents 0x22 [s.cfg.updateCtrl2] ++ cmdEvents 0x20 [] ++ [.sample s.busyIn]) .displaying s.mode)

/-- SLEEP (R190): 0x10 with SLEEP_DATA in one transaction, no wait; it ends ASLEEP with MODE kept. -/
def Obligations.SleepRuns : Prop :=
  (∀ w : Word, opField w = 0x15 → decode (.cmdWord w) = .ok .sleep) ∧
  (∀ s : State, Quiet s → (s.pstate = .initialized ∨ s.pstate = .displaying) →
    ∃ t u, exec .sleep s = .next t ∧ Reaches t u ∧ EndedWith s u (cmdEvents 0x10 s.cfg.sleepData) .asleep s.mode)

/-- GET_WIDTH (R198) and GET_HEIGHT (R199): RESULT is W or H, the values of GEOM, in every panel state, with no event and
nothing else changed. -/
def Obligations.GeometryQueries : Prop :=
  (∀ w : Word, opField w = 0x30 → decode (.cmdWord w) = .ok .getWidth) ∧
  (∀ w : Word, opField w = 0x31 → decode (.cmdWord w) = .ok .getHeight) ∧
  (∀ s : State, s.cfg.WellFormed →
    (∃ v, exec .getWidth s = .next { s with result := v, err := .ok, busy := false, seq := [] } ∧
      v.toNat = s.cfg.width ∧ v = (geomWord s.cfg).extractLsb' 0 16) ∧
    (∃ v, exec .getHeight s = .next { s with result := v, err := .ok, busy := false, seq := [] } ∧
      v.toNat = s.cfg.height ∧ v = (geomWord s.cfg).extractLsb' 16 16))

/-- WaitIdle on a panel that stays busy (R166, R284): from its loop, for every number `n` of polls, a run makes them, each
`SAMPLE DELAY(T_POLL)`, and is back at the loop with everything else as it was; and no run ends the operation or the
wait. (The count-down of `delay_cnt` is log 16.) -/
def Obligations.WaitIdleHangs : Prop :=
  ∀ (s : State) (rest : List SeqStep), s.inputs = [] → s.seq = .sample :: rest → s.busyIn = s.cfg.busyActive →
    s.busy = true → s.wait = true →
    (∀ n, Reaches s { s with
      trace := s.trace ++ (List.replicate n [TraceEvent.sample s.busyIn, .delay s.cfg.tPoll]).flatten
      delayCnt := if n = 0 then s.delayCnt else 0 }) ∧
    (∀ u, Reaches s u → u.busy = true ∧ u.wait = true ∧ u.pstate = s.pstate ∧ u.err = s.err)

/-- WaitIdle on a panel that is busy for `n` samples and then idle (R166, R168, R189): it samples first, delays T_POLL
after each busy sample, and leaves the loop with WAIT = 0 at the idle one. (How many sequencer steps a poll takes is the
model's: log 4, log 16; that WAIT clears with the idle sample is log 14.) -/
def Obligations.WaitIdlePolls : Prop :=
  ∀ (s : State) (rest : List SeqStep) (n : Nat), s.cfg.WellFormed → s.seq = .waitIdle :: rest →
    s.busyIn = s.cfg.busyActive →
    s.inputs = List.replicate (1 + n * (2 + s.cfg.tPoll)) .seqStep ++ [.panelBusy (!s.cfg.busyActive)] →
    ∃ u, Reaches s u ∧ u.seq = rest ∧ u.wait = false ∧ u.inputs = [] ∧ u.busy = s.busy ∧ u.pstate = s.pstate ∧
      u.fb = s.fb ∧ u.list = s.list ∧
      u.trace = s.trace ++ (List.replicate n [TraceEvent.sample s.cfg.busyActive, .delay s.cfg.tPoll]).flatten ++
        [.sample (!s.cfg.busyActive)]

/-! ## The framebuffer -/

/-- SET_PIXEL (R223, R224): in range, exactly the bit `7 - i mod 8` of byte `i div 8` becomes the colour, for
`i = y*W + x`, and every other FB byte and bit is kept; out of range FB is kept; in both cases ERR = 0, no event, and
nothing else changes, in every panel state. -/
def Obligations.SetPixelEffect : Prop :=
  (∀ w : Word, opField w = 0x20 → decode (.cmdWord w) = .ok (.setPixel (colourOfFlag ((immField w).getLsbD 0)))) ∧
  (∀ (col : Colour) (s : State), ∃ t, exec (.setPixel col) s = .next t ∧
    t = { s with fb := t.fb, err := .ok, busy := false, seq := [] } ∧
    (∀ x y : Nat, s.arg0.toInt = x → s.arg1.toInt = y → x < s.cfg.width → y < s.cfg.height →
      ∀ j k, k < 8 → (t.fbByte j).getLsbD k =
        if j = (y * s.cfg.width + x) / 8 ∧ k = 7 - (y * s.cfg.width + x) % 8 then (col == .white)
        else (s.fbByte j).getLsbD k) ∧
    (¬(0 ≤ s.arg0.toInt ∧ s.arg0.toInt < s.cfg.width ∧ 0 ≤ s.arg1.toInt ∧ s.arg1.toInt < s.cfg.height) → t.fb = s.fb))

/-- The source's pixel law (R228): after SET_PIXEL at an in-range (x, y), GET_PIXEL there ends with the colour written in
RESULT, and GET_PIXEL at any other in-range pixel with what it would have given before. -/
def Obligations.PixelReadBack : Prop :=
  ∀ (s t : State) (col : Colour) (x y x' y' : Half), s.arg0 = x → s.arg1 = y →
    (0 ≤ x.toInt ∧ x.toInt < s.cfg.width ∧ 0 ≤ y.toInt ∧ y.toInt < s.cfg.height) →
    (0 ≤ x'.toInt ∧ x'.toInt < s.cfg.width ∧ 0 ≤ y'.toInt ∧ y'.toInt < s.cfg.height) →
    exec (.setPixel col) s = .next t →
    ∃ before after, exec .getPixel { s with arg0 := x', arg1 := y' } = .next before ∧
      exec .getPixel { t with arg0 := x', arg1 := y' } = .next after ∧
      after.result = if x' = x ∧ y' = y then (match col with | .black => 0 | .white => 1) else before.result

/-- FILL (R225): every byte of FB becomes 0x00 for BLACK or 0xFF for WHITE, so (R229, which the spec derives from R225 and
R227) GET_PIXEL then gives its
colour at every in-range pixel; ERR = 0, no event, and nothing else changes, in every panel state. -/
def Obligations.FillEffect : Prop :=
  (∀ w : Word, opField w = 0x21 → decode (.cmdWord w) = .ok (.fill (colourOfFlag ((immField w).getLsbD 0)))) ∧
  (∀ (col : Colour) (s : State), s.cfg.WellFormed → ∃ t, exec (.fill col) s = .next t ∧
    t = { s with fb := t.fb, err := .ok, busy := false, seq := [] } ∧
    (∀ i, i < s.cfg.fbBytes → t.fbByte i = (match col with | .black => 0x00 | .white => 0xFF)) ∧
    (∀ x y : Half, (0 ≤ x.toInt ∧ x.toInt < s.cfg.width ∧ 0 ≤ y.toInt ∧ y.toInt < s.cfg.height) →
      ∃ u, exec .getPixel { t with arg0 := x, arg1 := y } = .next u ∧
        u.result = (match col with | .black => 0 | .white => 1)))

/-- GET_PIXEL (R227): RESULT is bit `7 - i mod 8` of FB byte `i div 8` for an in-range pixel, and 2 out of range; ERR = 0
in both cases, and nothing else changes. -/
def Obligations.GetPixelEffect : Prop :=
  (∀ w : Word, opField w = 0x22 → decode (.cmdWord w) = .ok .getPixel) ∧
  (∀ s : State, ∃ v, exec .getPixel s = .next { s with result := v, err := .ok, busy := false, seq := [] } ∧
    (∀ x y : Nat, s.arg0.toInt = x → s.arg1.toInt = y → x < s.cfg.width → y < s.cfg.height →
      v = if (s.fbByte ((y * s.cfg.width + x) / 8)).getLsbD (7 - (y * s.cfg.width + x) % 8) then 1 else 0) ∧
    (¬(0 ≤ s.arg0.toInt ∧ s.arg0.toInt < s.cfg.width ∧ 0 ≤ s.arg1.toInt ∧ s.arg1.toInt < s.cfg.height) → v = 2))

/-! ## Frames -/

/-- What a meaning leaves unchanged when it answers a next state, for every instruction: everything but the sequencer's
position, BUSY and ERR, and FB for SET_PIXEL and FILL, and RESULT for the three queries. The events and the changes of
PSTATE and MODE of a bus operation come with the steps it loads. -/
def Obligations.MeaningFrame : Prop :=
  ∀ (i : Instr) (s t : State), exec i s = .next t →
    t = { s with seq := t.seq, phase := t.phase, rowCnt := t.rowCnt, busy := t.busy, err := t.err, fb := t.fb,
                 result := t.result } ∧
    ((∀ col, i ≠ .setPixel col ∧ i ≠ .fill col) → t.fb = s.fb) ∧
    (i ≠ .getPixel ∧ i ≠ .getWidth ∧ i ≠ .getHeight → t.result = s.result)

/-- What the outside does never disturbs the sequencer. A read, in any state, changes only the record of reads, the count
of racing reads and the schedule (R80, R53); one read of a host's poll (R115) is a read, with its own effect on the
schedule (log 19); a write while BUSY = 1 changes only OVR and the schedule (R39, R142); a change of the BUSY input
changes the level STATUS.BUSYIN shows and nothing else (R40). -/
def Obligations.HostAccessesDoNotDisturb : Prop :=
  (∀ (s : State) (a : Half) (more : List Input), s.inputs = .hostRead a :: more →
    ∃ t, step s = .next t ∧ t = { s with inputs := more, reads := t.reads, draws := t.draws } ∧
      ∃ v, t.reads = s.reads ++ [(a, v)]) ∧
  (∀ (s : State) (a : Half) (more : List Input), s.inputs = .hostPoll a :: more →
    ∃ t u, step s = .next t ∧ step { s with inputs := .hostRead a :: more } = .next u ∧
      t = { u with inputs := t.inputs }) ∧
  (∀ (s : State) (a : Half) (v : Word) (more : List Input), s.busy = true → s.inputs = .hostWrite a v :: more →
    ∃ t, step s = .next t ∧ t = { s with inputs := more, ovr := t.ovr }) ∧
  (∀ (s : State) (v : Level) (more : List Input), s.inputs = .panelBusy v :: more →
    ∃ t, step s = .next t ∧ t = { s with inputs := more, busyIn := v } ∧ t.statusWord.getLsbD 17 = v)

/-- The trace of a successful SET_FRAME_RECT (R182), on an idle panel: the run from its meaning to its end by `done` adds
events `ev` with 5 + height transactions, `8 + 3*Y_ADDR_BYTES + height * (width div 8)` BYTE events, one SAMPLE and no
DELAY. -/
def Obligations.RectangleTraceLength : Prop :=
  ∀ (s : State) (xs ys xe ye yb : Nat), Quiet s → s.cfg.WellFormed → s.op = 0x12 →
    (s.pstate = .initialized ∨ s.pstate = .displaying) → PanelIdle s →
    s.arg0.toInt = xs → s.arg1.toInt = ys → s.arg2.toInt = xe → s.arg3.toInt = ye →
    xs ≤ xe → ys ≤ ye → 8 * ((xe + 7) / 8) ≤ s.cfg.width → ye < s.cfg.height → ¬(xs = xe ∧ xs % 8 = 0) →
    (match s.cfg.yAddrBytes with | .one => yb = 1 | .two => yb = 2) →
    ∃ t u ev, exec .setFrameRect s = .next t ∧ Reaches t u ∧ EndedWith s u ev .initialized s.mode ∧
      ev.count (.cs false) = 5 + (ye - ys + 1) ∧ ev.count (.cs true) = 5 + (ye - ys + 1) ∧
      ev.countP TraceEvent.isByte = 8 + 3 * yb + (ye - ys + 1) * ((xe + 7) / 8 - xs / 8) ∧
      ev.countP TraceEvent.isSample = 1 ∧ ev.countP TraceEvent.isDelay = 0
end

