-- ==== Sys2Proof/Laws/Decode.lean ====
section
/-! SUPPORT. The fields of a CMD word and the flags of IMM. -/

namespace Sys2Proof

/-- The bits of a CMD word (30_encoding.md R100): OP in 7:0, IMM in 15:8, zeros above. -/
theorem getLsbD_cmdWordOf (op imm : Byte) (i : Nat) :
    (cmdWordOf op imm).getLsbD i = if i < 8 then op.getLsbD i else imm.getLsbD (i - 8) := by
  have h : (cmdWordOf op imm).getLsbD i = (0#16 ++ imm ++ op : BitVec (16 + 8 + 8)).getLsbD i := rfl
  rw [h, BitVec.getLsbD_append, BitVec.getLsbD_append]
  by_cases h8 : i < 8
  · simp [h8]
  · by_cases h16 : i - 8 < 8 <;> simp [h8, h16]
    exact BitVec.getLsbD_of_ge _ _ (by omega)

@[simp] theorem opField_cmdWordOf (op imm : Byte) : opField (cmdWordOf op imm) = op := by
  apply BitVec.eq_of_getLsbD_eq
  intro i hi
  rw [opField, BitVec.getLsbD_extractLsb', getLsbD_cmdWordOf]
  simp [hi]

@[simp] theorem immField_cmdWordOf (op imm : Byte) : immField (cmdWordOf op imm) = imm := by
  apply BitVec.eq_of_getLsbD_eq
  intro i hi
  rw [immField, BitVec.getLsbD_extractLsb', getLsbD_cmdWordOf]
  simp [hi]

@[simp] theorem decodeCmd_cmdWordOf (op imm : Byte) : decodeCmd (cmdWordOf op imm) = decodeOp op imm := by
  simp [decodeCmd]

@[simp] theorem colourOfFlag_colourImm (c : Colour) : colourOfFlag (flagOf (colourImm c)) = c := by
  cases c <;> rfl

@[simp] theorem modeOfFlag_modeImm (p : Mode) : modeOfFlag (flagOf (modeImm p)) = p := by
  cases p <;> rfl

/-! ## What decodes -/

/-- The OP value of each host operation. -/
theorem op_of_decodeOp {op imm : Byte} {i : Instr} (h : decodeOp op imm = .ok i) :
    (i = .sendCmd imm ∧ op = 0x01) ∨ (i = .sendData imm ∧ op = 0x02) ∨ (i = .sendDataList ∧ op = 0x03) ∨
    (i = .sendDataBuf ∧ op = 0x04) ∨ (i = .sendCmdData imm ∧ op = 0x05) ∨
    (i = .init (modeOfFlag (flagOf imm)) ∧ op = 0x10) ∨ (i = .setFrameFull ∧ op = 0x11) ∨
    (i = .setFrameRect ∧ op = 0x12) ∨ (i = .clearFrame (colourOfFlag (flagOf imm)) ∧ op = 0x13) ∨
    (i = .displayFrame ∧ op = 0x14) ∨ (i = .sleep ∧ op = 0x15) ∨
    (i = .setPixel (colourOfFlag (flagOf imm)) ∧ op = 0x20) ∨ (i = .fill (colourOfFlag (flagOf imm)) ∧ op = 0x21) ∨
    (i = .getPixel ∧ op = 0x22) ∨ (i = .getWidth ∧ op = 0x30) ∨ (i = .getHeight ∧ op = 0x31) := by
  unfold decodeOp at h
  split at h <;> cases h <;>
    (rename_i e
     have e' : op = BitVec.ofNat 8 op.toNat := by simp
     rw [e] at e'; simp [e'])

end Sys2Proof
end

