-- ==== Sys2Proof/Laws/Memory.lean ====
section
/-! SUPPORT. The laws of byte memories: read after write, and that every operation keeps the canonical form and the bound on indices. -/

namespace Sys2Proof.Machine

theorem lookup_eq_none_of_lt {m : Memory} {a : Nat} (h : ∀ c ∈ m, a < c.1) : Memory.lookup m a = none := by
  induction m with
  | nil => rfl
  | cons x rest ih =>
    obtain ⟨k, b⟩ := x
    have hk : a < k := h (k, b) (by simp)
    have hr : Memory.lookup rest a = none := ih fun c hc => h c (by simp [hc])
    simp [Memory.lookup, hr, Nat.ne_of_gt hk]

/-- Read after write. -/
theorem lookup_write (m : Memory) (a i : Nat) (v : Byte) :
    Memory.lookup (Memory.write m a v) i = if i = a then some v else Memory.lookup m i := by
  induction m with
  | nil =>
    by_cases h : i = a
    · simp [Memory.write, Memory.lookup, h]
    · simp [Memory.write, Memory.lookup, h, Ne.symm h]
  | cons x rest ih =>
    obtain ⟨k, b⟩ := x
    by_cases h1 : a < k
    · by_cases h : i = a
      · simp [Memory.write, Memory.lookup, h1, h]
      · simp [Memory.write, Memory.lookup, h1, h, Ne.symm h]
    · by_cases h2 : a = k
      · subst h2
        by_cases h : i = a
        · simp [Memory.write, Memory.lookup, h]
        · simp [Memory.write, Memory.lookup, h, Ne.symm h]
      · by_cases h : i = k
        · subst h
          simp [Memory.write, Memory.lookup, h1, h2, Ne.symm h2]
        · simp [Memory.write, Memory.lookup, h1, h2, ih, Ne.symm h]

theorem mem_write {m : Memory} {a : Nat} {v : Byte} {c : Host.Cell} (h : c ∈ Memory.write m a v) :
    c = (a, v) ∨ c ∈ m := by
  induction m with
  | nil => simpa [Memory.write] using h
  | cons x rest ih =>
    obtain ⟨k, b⟩ := x
    simp only [Memory.write] at h
    split at h
    · simpa using h
    · split at h
      · rcases List.mem_cons.1 h with h | h
        · exact .inl h
        · exact .inr (by simp [h])
      · rcases List.mem_cons.1 h with h | h
        · exact .inr (by simp [h])
        · exact (ih h).imp id fun h => by simp [h]

/-- A write keeps the canonical form. -/
theorem write_wf {m : Memory} (h : Memory.wf m) (a : Nat) (v : Byte) : Memory.wf (Memory.write m a v) := by
  induction m with
  | nil => simp [Memory.write, Memory.wf]
  | cons x rest ih =>
    obtain ⟨k, b⟩ := x
    have hhead : ∀ c ∈ rest, k < c.1 := (List.pairwise_cons.1 h).1
    have htail : Memory.wf rest := (List.pairwise_cons.1 h).2
    simp only [Memory.write]
    split
    · next hlt =>
      refine List.pairwise_cons.2 ⟨fun c hc => ?_, h⟩
      rcases List.mem_cons.1 hc with rfl | hc
      · exact hlt
      · exact hlt.trans (hhead c hc)
    · split
      · next heq => exact List.pairwise_cons.2 ⟨fun c hc => heq ▸ hhead c hc, htail⟩
      · next hlt hne =>
        refine List.pairwise_cons.2 ⟨fun c hc => ?_, ih htail⟩
        rcases mem_write hc with rfl | hc
        · show k < a
          omega
        · exact hhead c hc

/-- A write inside a bound keeps every index inside it. -/
theorem write_bound {m : Memory} {n a : Nat} {v : Byte} (h : ∀ c ∈ m, c.1 < n) (ha : a < n) :
    ∀ c ∈ Memory.write m a v, c.1 < n := fun c hc => by
  rcases mem_write hc with rfl | hc
  · exact ha
  · exact h c hc

theorem mem_fill {m : Memory} {n : Nat} {v : Byte} {c : Host.Cell} (h : c ∈ Memory.fill m n v) :
    (c.1 < n ∧ c.2 = v) ∨ (n ≤ c.1 ∧ c ∈ m) := by
  rcases List.mem_append.1 h with h | h
  · obtain ⟨i, hi, rfl⟩ := List.mem_map.1 h
    exact .inl ⟨List.mem_range.1 hi, rfl⟩
  · have := List.mem_filter.1 h
    exact .inr ⟨by simpa using this.2, this.1⟩

/-- A fill keeps the canonical form. -/
theorem fill_wf {m : Memory} (h : Memory.wf m) (n : Nat) (v : Byte) : Memory.wf (Memory.fill m n v) := by
  refine List.pairwise_append.2 ⟨?_, h.filter _, fun x hx y hy => ?_⟩
  · exact List.pairwise_map.2 (List.pairwise_lt_range.imp fun h => h)
  · obtain ⟨i, hi, rfl⟩ := List.mem_map.1 hx
    have := List.mem_filter.1 hy
    have hn : n ≤ y.1 := by simpa using this.2
    exact (List.mem_range.1 hi).trans_le hn

/-- A fill up to `n` keeps every index below a bound `b ≥ n`. -/
theorem fill_bound {m : Memory} {n b : Nat} {v : Byte} (h : ∀ c ∈ m, c.1 < b) (hn : n ≤ b) :
    ∀ c ∈ Memory.fill m n v, c.1 < b := fun c hc => by
  rcases mem_fill hc with hc | hc
  · omega
  · exact h c hc.2

theorem lookup_append (m m' : Memory) (i : Nat) :
    Memory.lookup (m ++ m') i = (Memory.lookup m i).or (Memory.lookup m' i) := by
  induction m with
  | nil => rfl
  | cons x rest ih =>
    obtain ⟨k, b⟩ := x
    by_cases h : k = i <;> simp [Memory.lookup, h, ih]

theorem lookup_map_const (l : List Nat) (v : Byte) (i : Nat) :
    Memory.lookup (l.map fun j => (j, v)) i = if i ∈ l then some v else none := by
  induction l with
  | nil => rfl
  | cons j rest ih =>
    by_cases h : j = i
    · simp [Memory.lookup, h]
    · simp [Memory.lookup, h, ih, Ne.symm h]

theorem lookup_filter_ge (m : Memory) (n i : Nat) (h : n ≤ i) :
    Memory.lookup (m.filter fun c => n ≤ c.1) i = Memory.lookup m i := by
  induction m with
  | nil => rfl
  | cons x rest ih =>
    obtain ⟨k, b⟩ := x
    by_cases hk : n ≤ k
    · simp [hk, Memory.lookup, ih]
    · have : k ≠ i := by omega
      simp [hk, Memory.lookup, this, ih]

/-- Read after fill. -/
theorem lookup_fill (m : Memory) (n i : Nat) (v : Byte) :
    Memory.lookup (Memory.fill m n v) i = if i < n then some v else Memory.lookup m i := by
  unfold Memory.fill
  rw [lookup_append, lookup_map_const]
  by_cases h : i < n
  · simp [h]
  · simp [h, lookup_filter_ge m n i (by omega)]

/-! ## FB bytes -/

theorem fbByteOf_write (s : State) (m : Memory) (a i : Nat) (v : Byte) :
    s.fbByteOf (Memory.write m a v) i = if i = a then v else s.fbByteOf m i := by
  by_cases h : i = a <;> simp [State.fbByteOf, lookup_write, h]

theorem fbByteOf_fill (s : State) (m : Memory) (n i : Nat) (v : Byte) :
    s.fbByteOf (Memory.fill m n v) i = if i < n then v else s.fbByteOf m i := by
  by_cases h : i < n <;> simp [State.fbByteOf, lookup_fill, h]

end Sys2Proof.Machine
end

