-- ==== Sys2Proof/Laws/State.lean ====
section
/-! SUPPORT. The fields of each named update of the state: one lemma per field per update, true by `rfl`. -/

namespace Sys2Proof.Machine

/-! ## `State.load` -/

@[simp] theorem load_cfg (s : State) (steps : List SeqStep) : (s.load steps).cfg = s.cfg := rfl
@[simp] theorem load_busy (s : State) (steps : List SeqStep) : (s.load steps).busy = s.busy := rfl
@[simp] theorem load_pstate (s : State) (steps : List SeqStep) : (s.load steps).pstate = s.pstate := rfl
@[simp] theorem load_mode (s : State) (steps : List SeqStep) : (s.load steps).mode = s.mode := rfl
@[simp] theorem load_wait (s : State) (steps : List SeqStep) : (s.load steps).wait = s.wait := rfl
@[simp] theorem load_err (s : State) (steps : List SeqStep) : (s.load steps).err = s.err := rfl
@[simp] theorem load_ovr (s : State) (steps : List SeqStep) : (s.load steps).ovr = s.ovr := rfl
@[simp] theorem load_busyIn (s : State) (steps : List SeqStep) : (s.load steps).busyIn = s.busyIn := rfl
@[simp] theorem load_result (s : State) (steps : List SeqStep) : (s.load steps).result = s.result := rfl
@[simp] theorem load_arg0 (s : State) (steps : List SeqStep) : (s.load steps).arg0 = s.arg0 := rfl
@[simp] theorem load_arg1 (s : State) (steps : List SeqStep) : (s.load steps).arg1 = s.arg1 := rfl
@[simp] theorem load_arg2 (s : State) (steps : List SeqStep) : (s.load steps).arg2 = s.arg2 := rfl
@[simp] theorem load_arg3 (s : State) (steps : List SeqStep) : (s.load steps).arg3 = s.arg3 := rfl
@[simp] theorem load_list (s : State) (steps : List SeqStep) : (s.load steps).list = s.list := rfl
@[simp] theorem load_fb (s : State) (steps : List SeqStep) : (s.load steps).fb = s.fb := rfl
@[simp] theorem load_op (s : State) (steps : List SeqStep) : (s.load steps).op = s.op := rfl
@[simp] theorem load_imm (s : State) (steps : List SeqStep) : (s.load steps).imm = s.imm := rfl
@[simp] theorem load_seq (s : State) (steps : List SeqStep) : (s.load steps).seq = steps := rfl
@[simp] theorem load_phase (s : State) (steps : List SeqStep) : (s.load steps).phase = .csLow := rfl
@[simp] theorem load_byteCnt (s : State) (steps : List SeqStep) : (s.load steps).byteCnt = s.byteCnt := rfl
@[simp] theorem load_rowCnt (s : State) (steps : List SeqStep) : (s.load steps).rowCnt = 0 := rfl
@[simp] theorem load_bitCnt (s : State) (steps : List SeqStep) : (s.load steps).bitCnt = s.bitCnt := rfl
@[simp] theorem load_delayCnt (s : State) (steps : List SeqStep) : (s.load steps).delayCnt = s.delayCnt := rfl
@[simp] theorem load_csN (s : State) (steps : List SeqStep) : (s.load steps).csN = s.csN := rfl
@[simp] theorem load_dc (s : State) (steps : List SeqStep) : (s.load steps).dc = s.dc := rfl
@[simp] theorem load_sclk (s : State) (steps : List SeqStep) : (s.load steps).sclk = s.sclk := rfl
@[simp] theorem load_mosi (s : State) (steps : List SeqStep) : (s.load steps).mosi = s.mosi := rfl
@[simp] theorem load_rstN (s : State) (steps : List SeqStep) : (s.load steps).rstN = s.rstN := rfl
@[simp] theorem load_trace (s : State) (steps : List SeqStep) : (s.load steps).trace = s.trace := rfl
@[simp] theorem load_reads (s : State) (steps : List SeqStep) : (s.load steps).reads = s.reads := rfl
@[simp] theorem load_busTime (s : State) (steps : List SeqStep) : (s.load steps).busTime = s.busTime := rfl
@[simp] theorem load_inputs (s : State) (steps : List SeqStep) : (s.load steps).inputs = s.inputs := rfl
@[simp] theorem load_resets (s : State) (steps : List SeqStep) : (s.load steps).resets = s.resets := rfl
@[simp] theorem load_draws (s : State) (steps : List SeqStep) : (s.load steps).draws = s.draws := rfl

/-! ## `State.issue` -/

@[simp] theorem issue_cfg (s : State) (c : Byte) (params : List Byte) : (s.issue c params).cfg = s.cfg := rfl
@[simp] theorem issue_busy (s : State) (c : Byte) (params : List Byte) : (s.issue c params).busy = s.busy := rfl
@[simp] theorem issue_pstate (s : State) (c : Byte) (params : List Byte) : (s.issue c params).pstate = s.pstate := rfl
@[simp] theorem issue_mode (s : State) (c : Byte) (params : List Byte) : (s.issue c params).mode = s.mode := rfl
@[simp] theorem issue_wait (s : State) (c : Byte) (params : List Byte) : (s.issue c params).wait = s.wait := rfl
@[simp] theorem issue_err (s : State) (c : Byte) (params : List Byte) : (s.issue c params).err = s.err := rfl
@[simp] theorem issue_ovr (s : State) (c : Byte) (params : List Byte) : (s.issue c params).ovr = s.ovr := rfl
@[simp] theorem issue_busyIn (s : State) (c : Byte) (params : List Byte) : (s.issue c params).busyIn = s.busyIn := rfl
@[simp] theorem issue_result (s : State) (c : Byte) (params : List Byte) : (s.issue c params).result = s.result := rfl
@[simp] theorem issue_arg0 (s : State) (c : Byte) (params : List Byte) : (s.issue c params).arg0 = s.arg0 := rfl
@[simp] theorem issue_arg1 (s : State) (c : Byte) (params : List Byte) : (s.issue c params).arg1 = s.arg1 := rfl
@[simp] theorem issue_arg2 (s : State) (c : Byte) (params : List Byte) : (s.issue c params).arg2 = s.arg2 := rfl
@[simp] theorem issue_arg3 (s : State) (c : Byte) (params : List Byte) : (s.issue c params).arg3 = s.arg3 := rfl
@[simp] theorem issue_list (s : State) (c : Byte) (params : List Byte) : (s.issue c params).list = s.list := rfl
@[simp] theorem issue_fb (s : State) (c : Byte) (params : List Byte) : (s.issue c params).fb = s.fb := rfl
@[simp] theorem issue_op (s : State) (c : Byte) (params : List Byte) : (s.issue c params).op = s.op := rfl
@[simp] theorem issue_imm (s : State) (c : Byte) (params : List Byte) : (s.issue c params).imm = s.imm := rfl
@[simp] theorem issue_seq (s : State) (c : Byte) (params : List Byte) : (s.issue c params).seq = .txn (.bytes ((false, c) :: params.map (fun b => (true, b)))) :: s.seq := rfl
@[simp] theorem issue_phase (s : State) (c : Byte) (params : List Byte) : (s.issue c params).phase = .csLow := rfl
@[simp] theorem issue_byteCnt (s : State) (c : Byte) (params : List Byte) : (s.issue c params).byteCnt = s.byteCnt := rfl
@[simp] theorem issue_rowCnt (s : State) (c : Byte) (params : List Byte) : (s.issue c params).rowCnt = s.rowCnt := rfl
@[simp] theorem issue_bitCnt (s : State) (c : Byte) (params : List Byte) : (s.issue c params).bitCnt = s.bitCnt := rfl
@[simp] theorem issue_delayCnt (s : State) (c : Byte) (params : List Byte) : (s.issue c params).delayCnt = s.delayCnt := rfl
@[simp] theorem issue_csN (s : State) (c : Byte) (params : List Byte) : (s.issue c params).csN = s.csN := rfl
@[simp] theorem issue_dc (s : State) (c : Byte) (params : List Byte) : (s.issue c params).dc = s.dc := rfl
@[simp] theorem issue_sclk (s : State) (c : Byte) (params : List Byte) : (s.issue c params).sclk = s.sclk := rfl
@[simp] theorem issue_mosi (s : State) (c : Byte) (params : List Byte) : (s.issue c params).mosi = s.mosi := rfl
@[simp] theorem issue_rstN (s : State) (c : Byte) (params : List Byte) : (s.issue c params).rstN = s.rstN := rfl
@[simp] theorem issue_trace (s : State) (c : Byte) (params : List Byte) : (s.issue c params).trace = s.trace := rfl
@[simp] theorem issue_reads (s : State) (c : Byte) (params : List Byte) : (s.issue c params).reads = s.reads := rfl
@[simp] theorem issue_busTime (s : State) (c : Byte) (params : List Byte) : (s.issue c params).busTime = s.busTime := rfl
@[simp] theorem issue_inputs (s : State) (c : Byte) (params : List Byte) : (s.issue c params).inputs = s.inputs := rfl
@[simp] theorem issue_resets (s : State) (c : Byte) (params : List Byte) : (s.issue c params).resets = s.resets := rfl
@[simp] theorem issue_draws (s : State) (c : Byte) (params : List Byte) : (s.issue c params).draws = s.draws := rfl

/-! ## `State.raise` -/

@[simp] theorem raise_cfg (s : State) (code : ErrCode) : (s.raise code).cfg = s.cfg := rfl
@[simp] theorem raise_busy (s : State) (code : ErrCode) : (s.raise code).busy = false := rfl
@[simp] theorem raise_pstate (s : State) (code : ErrCode) : (s.raise code).pstate = s.pstate := rfl
@[simp] theorem raise_mode (s : State) (code : ErrCode) : (s.raise code).mode = s.mode := rfl
@[simp] theorem raise_wait (s : State) (code : ErrCode) : (s.raise code).wait = s.wait := rfl
@[simp] theorem raise_err (s : State) (code : ErrCode) : (s.raise code).err = code := rfl
@[simp] theorem raise_ovr (s : State) (code : ErrCode) : (s.raise code).ovr = s.ovr := rfl
@[simp] theorem raise_busyIn (s : State) (code : ErrCode) : (s.raise code).busyIn = s.busyIn := rfl
@[simp] theorem raise_result (s : State) (code : ErrCode) : (s.raise code).result = s.result := rfl
@[simp] theorem raise_arg0 (s : State) (code : ErrCode) : (s.raise code).arg0 = s.arg0 := rfl
@[simp] theorem raise_arg1 (s : State) (code : ErrCode) : (s.raise code).arg1 = s.arg1 := rfl
@[simp] theorem raise_arg2 (s : State) (code : ErrCode) : (s.raise code).arg2 = s.arg2 := rfl
@[simp] theorem raise_arg3 (s : State) (code : ErrCode) : (s.raise code).arg3 = s.arg3 := rfl
@[simp] theorem raise_list (s : State) (code : ErrCode) : (s.raise code).list = s.list := rfl
@[simp] theorem raise_fb (s : State) (code : ErrCode) : (s.raise code).fb = s.fb := rfl
@[simp] theorem raise_op (s : State) (code : ErrCode) : (s.raise code).op = s.op := rfl
@[simp] theorem raise_imm (s : State) (code : ErrCode) : (s.raise code).imm = s.imm := rfl
@[simp] theorem raise_seq (s : State) (code : ErrCode) : (s.raise code).seq = [] := rfl
@[simp] theorem raise_phase (s : State) (code : ErrCode) : (s.raise code).phase = s.phase := rfl
@[simp] theorem raise_byteCnt (s : State) (code : ErrCode) : (s.raise code).byteCnt = s.byteCnt := rfl
@[simp] theorem raise_rowCnt (s : State) (code : ErrCode) : (s.raise code).rowCnt = s.rowCnt := rfl
@[simp] theorem raise_bitCnt (s : State) (code : ErrCode) : (s.raise code).bitCnt = s.bitCnt := rfl
@[simp] theorem raise_delayCnt (s : State) (code : ErrCode) : (s.raise code).delayCnt = s.delayCnt := rfl
@[simp] theorem raise_csN (s : State) (code : ErrCode) : (s.raise code).csN = s.csN := rfl
@[simp] theorem raise_dc (s : State) (code : ErrCode) : (s.raise code).dc = s.dc := rfl
@[simp] theorem raise_sclk (s : State) (code : ErrCode) : (s.raise code).sclk = s.sclk := rfl
@[simp] theorem raise_mosi (s : State) (code : ErrCode) : (s.raise code).mosi = s.mosi := rfl
@[simp] theorem raise_rstN (s : State) (code : ErrCode) : (s.raise code).rstN = s.rstN := rfl
@[simp] theorem raise_trace (s : State) (code : ErrCode) : (s.raise code).trace = s.trace := rfl
@[simp] theorem raise_reads (s : State) (code : ErrCode) : (s.raise code).reads = s.reads := rfl
@[simp] theorem raise_busTime (s : State) (code : ErrCode) : (s.raise code).busTime = s.busTime := rfl
@[simp] theorem raise_inputs (s : State) (code : ErrCode) : (s.raise code).inputs = s.inputs := rfl
@[simp] theorem raise_resets (s : State) (code : ErrCode) : (s.raise code).resets = s.resets := rfl
@[simp] theorem raise_draws (s : State) (code : ErrCode) : (s.raise code).draws = s.draws := rfl

/-! ## `State.done` -/

@[simp] theorem done_cfg (s : State) : (s.done).cfg = s.cfg := rfl
@[simp] theorem done_busy (s : State) : (s.done).busy = false := rfl
@[simp] theorem done_pstate (s : State) : (s.done).pstate = s.pstate := rfl
@[simp] theorem done_mode (s : State) : (s.done).mode = s.mode := rfl
@[simp] theorem done_wait (s : State) : (s.done).wait = s.wait := rfl
@[simp] theorem done_err (s : State) : (s.done).err = .ok := rfl
@[simp] theorem done_ovr (s : State) : (s.done).ovr = s.ovr := rfl
@[simp] theorem done_busyIn (s : State) : (s.done).busyIn = s.busyIn := rfl
@[simp] theorem done_result (s : State) : (s.done).result = s.result := rfl
@[simp] theorem done_arg0 (s : State) : (s.done).arg0 = s.arg0 := rfl
@[simp] theorem done_arg1 (s : State) : (s.done).arg1 = s.arg1 := rfl
@[simp] theorem done_arg2 (s : State) : (s.done).arg2 = s.arg2 := rfl
@[simp] theorem done_arg3 (s : State) : (s.done).arg3 = s.arg3 := rfl
@[simp] theorem done_list (s : State) : (s.done).list = s.list := rfl
@[simp] theorem done_fb (s : State) : (s.done).fb = s.fb := rfl
@[simp] theorem done_op (s : State) : (s.done).op = s.op := rfl
@[simp] theorem done_imm (s : State) : (s.done).imm = s.imm := rfl
@[simp] theorem done_seq (s : State) : (s.done).seq = [] := rfl
@[simp] theorem done_phase (s : State) : (s.done).phase = s.phase := rfl
@[simp] theorem done_byteCnt (s : State) : (s.done).byteCnt = s.byteCnt := rfl
@[simp] theorem done_rowCnt (s : State) : (s.done).rowCnt = s.rowCnt := rfl
@[simp] theorem done_bitCnt (s : State) : (s.done).bitCnt = s.bitCnt := rfl
@[simp] theorem done_delayCnt (s : State) : (s.done).delayCnt = s.delayCnt := rfl
@[simp] theorem done_csN (s : State) : (s.done).csN = s.csN := rfl
@[simp] theorem done_dc (s : State) : (s.done).dc = s.dc := rfl
@[simp] theorem done_sclk (s : State) : (s.done).sclk = s.sclk := rfl
@[simp] theorem done_mosi (s : State) : (s.done).mosi = s.mosi := rfl
@[simp] theorem done_rstN (s : State) : (s.done).rstN = s.rstN := rfl
@[simp] theorem done_trace (s : State) : (s.done).trace = s.trace := rfl
@[simp] theorem done_reads (s : State) : (s.done).reads = s.reads := rfl
@[simp] theorem done_busTime (s : State) : (s.done).busTime = s.busTime := rfl
@[simp] theorem done_inputs (s : State) : (s.done).inputs = s.inputs := rfl
@[simp] theorem done_resets (s : State) : (s.done).resets = s.resets := rfl
@[simp] theorem done_draws (s : State) : (s.done).draws = s.draws := rfl

/-! ## `State.acceptCmd` -/

@[simp] theorem acceptCmd_cfg (s : State) (w : Word) : (s.acceptCmd w).cfg = s.cfg := rfl
@[simp] theorem acceptCmd_busy (s : State) (w : Word) : (s.acceptCmd w).busy = true := rfl
@[simp] theorem acceptCmd_pstate (s : State) (w : Word) : (s.acceptCmd w).pstate = s.pstate := rfl
@[simp] theorem acceptCmd_mode (s : State) (w : Word) : (s.acceptCmd w).mode = s.mode := rfl
@[simp] theorem acceptCmd_wait (s : State) (w : Word) : (s.acceptCmd w).wait = s.wait := rfl
@[simp] theorem acceptCmd_err (s : State) (w : Word) : (s.acceptCmd w).err = s.err := rfl
@[simp] theorem acceptCmd_ovr (s : State) (w : Word) : (s.acceptCmd w).ovr = s.ovr := rfl
@[simp] theorem acceptCmd_busyIn (s : State) (w : Word) : (s.acceptCmd w).busyIn = s.busyIn := rfl
@[simp] theorem acceptCmd_result (s : State) (w : Word) : (s.acceptCmd w).result = s.result := rfl
@[simp] theorem acceptCmd_arg0 (s : State) (w : Word) : (s.acceptCmd w).arg0 = s.arg0 := rfl
@[simp] theorem acceptCmd_arg1 (s : State) (w : Word) : (s.acceptCmd w).arg1 = s.arg1 := rfl
@[simp] theorem acceptCmd_arg2 (s : State) (w : Word) : (s.acceptCmd w).arg2 = s.arg2 := rfl
@[simp] theorem acceptCmd_arg3 (s : State) (w : Word) : (s.acceptCmd w).arg3 = s.arg3 := rfl
@[simp] theorem acceptCmd_list (s : State) (w : Word) : (s.acceptCmd w).list = s.list := rfl
@[simp] theorem acceptCmd_fb (s : State) (w : Word) : (s.acceptCmd w).fb = s.fb := rfl
@[simp] theorem acceptCmd_op (s : State) (w : Word) : (s.acceptCmd w).op = opField w := rfl
@[simp] theorem acceptCmd_imm (s : State) (w : Word) : (s.acceptCmd w).imm = immField w := rfl
@[simp] theorem acceptCmd_seq (s : State) (w : Word) : (s.acceptCmd w).seq = [.fetch] := rfl
@[simp] theorem acceptCmd_phase (s : State) (w : Word) : (s.acceptCmd w).phase = s.phase := rfl
@[simp] theorem acceptCmd_byteCnt (s : State) (w : Word) : (s.acceptCmd w).byteCnt = s.byteCnt := rfl
@[simp] theorem acceptCmd_rowCnt (s : State) (w : Word) : (s.acceptCmd w).rowCnt = s.rowCnt := rfl
@[simp] theorem acceptCmd_bitCnt (s : State) (w : Word) : (s.acceptCmd w).bitCnt = s.bitCnt := rfl
@[simp] theorem acceptCmd_delayCnt (s : State) (w : Word) : (s.acceptCmd w).delayCnt = s.delayCnt := rfl
@[simp] theorem acceptCmd_csN (s : State) (w : Word) : (s.acceptCmd w).csN = s.csN := rfl
@[simp] theorem acceptCmd_dc (s : State) (w : Word) : (s.acceptCmd w).dc = s.dc := rfl
@[simp] theorem acceptCmd_sclk (s : State) (w : Word) : (s.acceptCmd w).sclk = s.sclk := rfl
@[simp] theorem acceptCmd_mosi (s : State) (w : Word) : (s.acceptCmd w).mosi = s.mosi := rfl
@[simp] theorem acceptCmd_rstN (s : State) (w : Word) : (s.acceptCmd w).rstN = s.rstN := rfl
@[simp] theorem acceptCmd_trace (s : State) (w : Word) : (s.acceptCmd w).trace = s.trace := rfl
@[simp] theorem acceptCmd_reads (s : State) (w : Word) : (s.acceptCmd w).reads = s.reads := rfl
@[simp] theorem acceptCmd_busTime (s : State) (w : Word) : (s.acceptCmd w).busTime = s.busTime := rfl
@[simp] theorem acceptCmd_inputs (s : State) (w : Word) : (s.acceptCmd w).inputs = s.inputs := rfl
@[simp] theorem acceptCmd_resets (s : State) (w : Word) : (s.acceptCmd w).resets = s.resets := rfl
@[simp] theorem acceptCmd_draws (s : State) (w : Word) : (s.acceptCmd w).draws = s.draws := rfl

/-! ## `State.hostPoll` -/

@[simp] theorem hostPoll_cfg (s : State) (a : Half) : (s.hostPoll a).cfg = s.cfg := rfl
@[simp] theorem hostPoll_busy (s : State) (a : Half) : (s.hostPoll a).busy = s.busy := rfl
@[simp] theorem hostPoll_pstate (s : State) (a : Half) : (s.hostPoll a).pstate = s.pstate := rfl
@[simp] theorem hostPoll_mode (s : State) (a : Half) : (s.hostPoll a).mode = s.mode := rfl
@[simp] theorem hostPoll_wait (s : State) (a : Half) : (s.hostPoll a).wait = s.wait := rfl
@[simp] theorem hostPoll_err (s : State) (a : Half) : (s.hostPoll a).err = s.err := rfl
@[simp] theorem hostPoll_ovr (s : State) (a : Half) : (s.hostPoll a).ovr = s.ovr := rfl
@[simp] theorem hostPoll_busyIn (s : State) (a : Half) : (s.hostPoll a).busyIn = s.busyIn := rfl
@[simp] theorem hostPoll_result (s : State) (a : Half) : (s.hostPoll a).result = s.result := rfl
@[simp] theorem hostPoll_arg0 (s : State) (a : Half) : (s.hostPoll a).arg0 = s.arg0 := rfl
@[simp] theorem hostPoll_arg1 (s : State) (a : Half) : (s.hostPoll a).arg1 = s.arg1 := rfl
@[simp] theorem hostPoll_arg2 (s : State) (a : Half) : (s.hostPoll a).arg2 = s.arg2 := rfl
@[simp] theorem hostPoll_arg3 (s : State) (a : Half) : (s.hostPoll a).arg3 = s.arg3 := rfl
@[simp] theorem hostPoll_list (s : State) (a : Half) : (s.hostPoll a).list = s.list := rfl
@[simp] theorem hostPoll_fb (s : State) (a : Half) : (s.hostPoll a).fb = s.fb := rfl
@[simp] theorem hostPoll_op (s : State) (a : Half) : (s.hostPoll a).op = s.op := rfl
@[simp] theorem hostPoll_imm (s : State) (a : Half) : (s.hostPoll a).imm = s.imm := rfl
@[simp] theorem hostPoll_seq (s : State) (a : Half) : (s.hostPoll a).seq = s.seq := rfl
@[simp] theorem hostPoll_phase (s : State) (a : Half) : (s.hostPoll a).phase = s.phase := rfl
@[simp] theorem hostPoll_byteCnt (s : State) (a : Half) : (s.hostPoll a).byteCnt = s.byteCnt := rfl
@[simp] theorem hostPoll_rowCnt (s : State) (a : Half) : (s.hostPoll a).rowCnt = s.rowCnt := rfl
@[simp] theorem hostPoll_bitCnt (s : State) (a : Half) : (s.hostPoll a).bitCnt = s.bitCnt := rfl
@[simp] theorem hostPoll_delayCnt (s : State) (a : Half) : (s.hostPoll a).delayCnt = s.delayCnt := rfl
@[simp] theorem hostPoll_csN (s : State) (a : Half) : (s.hostPoll a).csN = s.csN := rfl
@[simp] theorem hostPoll_dc (s : State) (a : Half) : (s.hostPoll a).dc = s.dc := rfl
@[simp] theorem hostPoll_sclk (s : State) (a : Half) : (s.hostPoll a).sclk = s.sclk := rfl
@[simp] theorem hostPoll_mosi (s : State) (a : Half) : (s.hostPoll a).mosi = s.mosi := rfl
@[simp] theorem hostPoll_rstN (s : State) (a : Half) : (s.hostPoll a).rstN = s.rstN := rfl
@[simp] theorem hostPoll_trace (s : State) (a : Half) : (s.hostPoll a).trace = s.trace := rfl
@[simp] theorem hostPoll_reads (s : State) (a : Half) : (s.hostPoll a).reads = (s.hostRead a).reads := rfl
@[simp] theorem hostPoll_busTime (s : State) (a : Half) : (s.hostPoll a).busTime = s.busTime := rfl
@[simp] theorem hostPoll_resets (s : State) (a : Half) : (s.hostPoll a).resets = s.resets := rfl
@[simp] theorem hostPoll_draws (s : State) (a : Half) : (s.hostPoll a).draws = (s.hostRead a).draws := rfl
@[simp] theorem hostPoll_inputs (s : State) (a : Half) :
    (s.hostPoll a).inputs = if (s.readWord (target a)).getLsbD 0 then afterPoll a s.inputs else s.inputs := rfl

/-! ## `State.hostRead` -/

@[simp] theorem hostRead_cfg (s : State) (a : Half) : (s.hostRead a).cfg = s.cfg := rfl
@[simp] theorem hostRead_busy (s : State) (a : Half) : (s.hostRead a).busy = s.busy := rfl
@[simp] theorem hostRead_pstate (s : State) (a : Half) : (s.hostRead a).pstate = s.pstate := rfl
@[simp] theorem hostRead_mode (s : State) (a : Half) : (s.hostRead a).mode = s.mode := rfl
@[simp] theorem hostRead_wait (s : State) (a : Half) : (s.hostRead a).wait = s.wait := rfl
@[simp] theorem hostRead_err (s : State) (a : Half) : (s.hostRead a).err = s.err := rfl
@[simp] theorem hostRead_ovr (s : State) (a : Half) : (s.hostRead a).ovr = s.ovr := rfl
@[simp] theorem hostRead_busyIn (s : State) (a : Half) : (s.hostRead a).busyIn = s.busyIn := rfl
@[simp] theorem hostRead_result (s : State) (a : Half) : (s.hostRead a).result = s.result := rfl
@[simp] theorem hostRead_arg0 (s : State) (a : Half) : (s.hostRead a).arg0 = s.arg0 := rfl
@[simp] theorem hostRead_arg1 (s : State) (a : Half) : (s.hostRead a).arg1 = s.arg1 := rfl
@[simp] theorem hostRead_arg2 (s : State) (a : Half) : (s.hostRead a).arg2 = s.arg2 := rfl
@[simp] theorem hostRead_arg3 (s : State) (a : Half) : (s.hostRead a).arg3 = s.arg3 := rfl
@[simp] theorem hostRead_list (s : State) (a : Half) : (s.hostRead a).list = s.list := rfl
@[simp] theorem hostRead_fb (s : State) (a : Half) : (s.hostRead a).fb = s.fb := rfl
@[simp] theorem hostRead_op (s : State) (a : Half) : (s.hostRead a).op = s.op := rfl
@[simp] theorem hostRead_imm (s : State) (a : Half) : (s.hostRead a).imm = s.imm := rfl
@[simp] theorem hostRead_seq (s : State) (a : Half) : (s.hostRead a).seq = s.seq := rfl
@[simp] theorem hostRead_phase (s : State) (a : Half) : (s.hostRead a).phase = s.phase := rfl
@[simp] theorem hostRead_byteCnt (s : State) (a : Half) : (s.hostRead a).byteCnt = s.byteCnt := rfl
@[simp] theorem hostRead_rowCnt (s : State) (a : Half) : (s.hostRead a).rowCnt = s.rowCnt := rfl
@[simp] theorem hostRead_bitCnt (s : State) (a : Half) : (s.hostRead a).bitCnt = s.bitCnt := rfl
@[simp] theorem hostRead_delayCnt (s : State) (a : Half) : (s.hostRead a).delayCnt = s.delayCnt := rfl
@[simp] theorem hostRead_csN (s : State) (a : Half) : (s.hostRead a).csN = s.csN := rfl
@[simp] theorem hostRead_dc (s : State) (a : Half) : (s.hostRead a).dc = s.dc := rfl
@[simp] theorem hostRead_sclk (s : State) (a : Half) : (s.hostRead a).sclk = s.sclk := rfl
@[simp] theorem hostRead_mosi (s : State) (a : Half) : (s.hostRead a).mosi = s.mosi := rfl
@[simp] theorem hostRead_rstN (s : State) (a : Half) : (s.hostRead a).rstN = s.rstN := rfl
@[simp] theorem hostRead_trace (s : State) (a : Half) : (s.hostRead a).trace = s.trace := rfl
@[simp] theorem hostRead_reads (s : State) (a : Half) : (s.hostRead a).reads = s.reads ++ [(a, s.readWord (target a))] := rfl
@[simp] theorem hostRead_busTime (s : State) (a : Half) : (s.hostRead a).busTime = s.busTime := rfl
@[simp] theorem hostRead_inputs (s : State) (a : Half) : (s.hostRead a).inputs = s.inputs := rfl
@[simp] theorem hostRead_resets (s : State) (a : Half) : (s.hostRead a).resets = s.resets := rfl
@[simp] theorem hostRead_draws (s : State) (a : Half) : (s.hostRead a).draws = if (target a).isFbwin && s.fbwinRaces then s.draws + 1 else s.draws := rfl

/-! ## `State.finish` (by its four forms) -/

@[simp] theorem finish_cfg (s : State) (x : Finish) : (s.finish x).cfg = s.cfg := by cases x <;> rfl
@[simp] theorem finish_busy (s : State) (x : Finish) : (s.finish x).busy = false := by cases x <;> rfl
@[simp] theorem finish_wait (s : State) (x : Finish) : (s.finish x).wait = s.wait := by cases x <;> rfl
@[simp] theorem finish_err (s : State) (x : Finish) : (s.finish x).err = .ok := by cases x <;> rfl
@[simp] theorem finish_ovr (s : State) (x : Finish) : (s.finish x).ovr = s.ovr := by cases x <;> rfl
@[simp] theorem finish_busyIn (s : State) (x : Finish) : (s.finish x).busyIn = s.busyIn := by cases x <;> rfl
@[simp] theorem finish_result (s : State) (x : Finish) : (s.finish x).result = s.result := by cases x <;> rfl
@[simp] theorem finish_arg0 (s : State) (x : Finish) : (s.finish x).arg0 = s.arg0 := by cases x <;> rfl
@[simp] theorem finish_arg1 (s : State) (x : Finish) : (s.finish x).arg1 = s.arg1 := by cases x <;> rfl
@[simp] theorem finish_arg2 (s : State) (x : Finish) : (s.finish x).arg2 = s.arg2 := by cases x <;> rfl
@[simp] theorem finish_arg3 (s : State) (x : Finish) : (s.finish x).arg3 = s.arg3 := by cases x <;> rfl
@[simp] theorem finish_list (s : State) (x : Finish) : (s.finish x).list = s.list := by cases x <;> rfl
@[simp] theorem finish_fb (s : State) (x : Finish) : (s.finish x).fb = s.fb := by cases x <;> rfl
@[simp] theorem finish_op (s : State) (x : Finish) : (s.finish x).op = s.op := by cases x <;> rfl
@[simp] theorem finish_imm (s : State) (x : Finish) : (s.finish x).imm = s.imm := by cases x <;> rfl
@[simp] theorem finish_seq (s : State) (x : Finish) : (s.finish x).seq = [] := by cases x <;> rfl
@[simp] theorem finish_phase (s : State) (x : Finish) : (s.finish x).phase = s.phase := by cases x <;> rfl
@[simp] theorem finish_byteCnt (s : State) (x : Finish) : (s.finish x).byteCnt = s.byteCnt := by cases x <;> rfl
@[simp] theorem finish_rowCnt (s : State) (x : Finish) : (s.finish x).rowCnt = s.rowCnt := by cases x <;> rfl
@[simp] theorem finish_bitCnt (s : State) (x : Finish) : (s.finish x).bitCnt = s.bitCnt := by cases x <;> rfl
@[simp] theorem finish_delayCnt (s : State) (x : Finish) : (s.finish x).delayCnt = s.delayCnt := by cases x <;> rfl
@[simp] theorem finish_csN (s : State) (x : Finish) : (s.finish x).csN = s.csN := by cases x <;> rfl
@[simp] theorem finish_dc (s : State) (x : Finish) : (s.finish x).dc = s.dc := by cases x <;> rfl
@[simp] theorem finish_sclk (s : State) (x : Finish) : (s.finish x).sclk = s.sclk := by cases x <;> rfl
@[simp] theorem finish_mosi (s : State) (x : Finish) : (s.finish x).mosi = s.mosi := by cases x <;> rfl
@[simp] theorem finish_rstN (s : State) (x : Finish) : (s.finish x).rstN = s.rstN := by cases x <;> rfl
@[simp] theorem finish_trace (s : State) (x : Finish) : (s.finish x).trace = s.trace := by cases x <;> rfl
@[simp] theorem finish_reads (s : State) (x : Finish) : (s.finish x).reads = s.reads := by cases x <;> rfl
@[simp] theorem finish_busTime (s : State) (x : Finish) : (s.finish x).busTime = s.busTime := by cases x <;> rfl
@[simp] theorem finish_inputs (s : State) (x : Finish) : (s.finish x).inputs = s.inputs := by cases x <;> rfl
@[simp] theorem finish_resets (s : State) (x : Finish) : (s.finish x).resets = s.resets := by cases x <;> rfl
@[simp] theorem finish_draws (s : State) (x : Finish) : (s.finish x).draws = s.draws := by cases x <;> rfl
@[simp] theorem finish_plain_pstate (s : State) : (s.finish .plain).pstate = s.pstate := rfl
@[simp] theorem finish_plain_mode (s : State) : (s.finish .plain).mode = s.mode := rfl
@[simp] theorem finish_initDone_pstate (s : State) (p : Mode) : (s.finish (.initDone p)).pstate = .initialized := rfl
@[simp] theorem finish_initDone_mode (s : State) (p : Mode) : (s.finish (.initDone p)).mode = p := rfl
@[simp] theorem finish_toInitialized_pstate (s : State) : (s.finish .toInitialized).pstate = .initialized := rfl
@[simp] theorem finish_toInitialized_mode (s : State) : (s.finish .toInitialized).mode = s.mode := rfl
@[simp] theorem finish_toAsleep_pstate (s : State) : (s.finish .toAsleep).pstate = .asleep := rfl
@[simp] theorem finish_toAsleep_mode (s : State) : (s.finish .toAsleep).mode = s.mode := rfl

/-! ## `State.blockReset` and `State.resetWith` -/

@[simp] theorem blockReset_cfg (s : State) : s.blockReset.cfg = s.cfg := rfl
@[simp] theorem blockReset_busy (s : State) : s.blockReset.busy = false := rfl
@[simp] theorem blockReset_pstate (s : State) : s.blockReset.pstate = .uninitialized := rfl
@[simp] theorem blockReset_mode (s : State) : s.blockReset.mode = .fullRefresh := rfl
@[simp] theorem blockReset_wait (s : State) : s.blockReset.wait = false := rfl
@[simp] theorem blockReset_err (s : State) : s.blockReset.err = .ok := rfl
@[simp] theorem blockReset_ovr (s : State) : s.blockReset.ovr = false := rfl
@[simp] theorem blockReset_busyIn (s : State) : s.blockReset.busyIn = s.busyIn := rfl
@[simp] theorem blockReset_result (s : State) : s.blockReset.result = 0 := rfl
@[simp] theorem blockReset_arg0 (s : State) : s.blockReset.arg0 = 0 := rfl
@[simp] theorem blockReset_arg1 (s : State) : s.blockReset.arg1 = 0 := rfl
@[simp] theorem blockReset_arg2 (s : State) : s.blockReset.arg2 = 0 := rfl
@[simp] theorem blockReset_arg3 (s : State) : s.blockReset.arg3 = 0 := rfl
@[simp] theorem blockReset_list (s : State) : s.blockReset.list = [] := rfl
@[simp] theorem blockReset_fb (s : State) : s.blockReset.fb = [] := rfl
@[simp] theorem blockReset_op (s : State) : s.blockReset.op = 0 := rfl
@[simp] theorem blockReset_imm (s : State) : s.blockReset.imm = 0 := rfl
@[simp] theorem blockReset_seq (s : State) : s.blockReset.seq = [] := rfl
@[simp] theorem blockReset_phase (s : State) : s.blockReset.phase = .csLow := rfl
@[simp] theorem blockReset_byteCnt (s : State) : s.blockReset.byteCnt = 0 := rfl
@[simp] theorem blockReset_rowCnt (s : State) : s.blockReset.rowCnt = 0 := rfl
@[simp] theorem blockReset_bitCnt (s : State) : s.blockReset.bitCnt = 0 := rfl
@[simp] theorem blockReset_delayCnt (s : State) : s.blockReset.delayCnt = 0 := rfl
@[simp] theorem blockReset_csN (s : State) : s.blockReset.csN = true := rfl
@[simp] theorem blockReset_dc (s : State) : s.blockReset.dc = true := rfl
@[simp] theorem blockReset_sclk (s : State) : s.blockReset.sclk = false := rfl
@[simp] theorem blockReset_mosi (s : State) : s.blockReset.mosi = false := rfl
@[simp] theorem blockReset_rstN (s : State) : s.blockReset.rstN = true := rfl
@[simp] theorem blockReset_trace (s : State) : s.blockReset.trace = s.trace ++ s.resetEvents := rfl
@[simp] theorem blockReset_reads (s : State) : s.blockReset.reads = s.reads := rfl
@[simp] theorem blockReset_busTime (s : State) : s.blockReset.busTime = s.busTime := rfl
@[simp] theorem blockReset_inputs (s : State) : s.blockReset.inputs = s.inputs := rfl
@[simp] theorem blockReset_resets (s : State) : s.blockReset.resets = s.resets + 1 := rfl
@[simp] theorem blockReset_draws (s : State) : s.blockReset.draws = s.draws := rfl
@[simp] theorem resetWith_cfg (c : Config) (v : Level) : (State.resetWith c v).cfg = c := rfl
@[simp] theorem resetWith_busy (c : Config) (v : Level) : (State.resetWith c v).busy = false := rfl
@[simp] theorem resetWith_pstate (c : Config) (v : Level) : (State.resetWith c v).pstate = .uninitialized := rfl
@[simp] theorem resetWith_mode (c : Config) (v : Level) : (State.resetWith c v).mode = .fullRefresh := rfl
@[simp] theorem resetWith_wait (c : Config) (v : Level) : (State.resetWith c v).wait = false := rfl
@[simp] theorem resetWith_err (c : Config) (v : Level) : (State.resetWith c v).err = .ok := rfl
@[simp] theorem resetWith_ovr (c : Config) (v : Level) : (State.resetWith c v).ovr = false := rfl
@[simp] theorem resetWith_busyIn (c : Config) (v : Level) : (State.resetWith c v).busyIn = v := rfl
@[simp] theorem resetWith_result (c : Config) (v : Level) : (State.resetWith c v).result = 0 := rfl
@[simp] theorem resetWith_arg0 (c : Config) (v : Level) : (State.resetWith c v).arg0 = 0 := rfl
@[simp] theorem resetWith_arg1 (c : Config) (v : Level) : (State.resetWith c v).arg1 = 0 := rfl
@[simp] theorem resetWith_arg2 (c : Config) (v : Level) : (State.resetWith c v).arg2 = 0 := rfl
@[simp] theorem resetWith_arg3 (c : Config) (v : Level) : (State.resetWith c v).arg3 = 0 := rfl
@[simp] theorem resetWith_list (c : Config) (v : Level) : (State.resetWith c v).list = [] := rfl
@[simp] theorem resetWith_fb (c : Config) (v : Level) : (State.resetWith c v).fb = [] := rfl
@[simp] theorem resetWith_op (c : Config) (v : Level) : (State.resetWith c v).op = 0 := rfl
@[simp] theorem resetWith_imm (c : Config) (v : Level) : (State.resetWith c v).imm = 0 := rfl
@[simp] theorem resetWith_seq (c : Config) (v : Level) : (State.resetWith c v).seq = [] := rfl
@[simp] theorem resetWith_phase (c : Config) (v : Level) : (State.resetWith c v).phase = .csLow := rfl
@[simp] theorem resetWith_byteCnt (c : Config) (v : Level) : (State.resetWith c v).byteCnt = 0 := rfl
@[simp] theorem resetWith_rowCnt (c : Config) (v : Level) : (State.resetWith c v).rowCnt = 0 := rfl
@[simp] theorem resetWith_bitCnt (c : Config) (v : Level) : (State.resetWith c v).bitCnt = 0 := rfl
@[simp] theorem resetWith_delayCnt (c : Config) (v : Level) : (State.resetWith c v).delayCnt = 0 := rfl
@[simp] theorem resetWith_csN (c : Config) (v : Level) : (State.resetWith c v).csN = true := rfl
@[simp] theorem resetWith_dc (c : Config) (v : Level) : (State.resetWith c v).dc = true := rfl
@[simp] theorem resetWith_sclk (c : Config) (v : Level) : (State.resetWith c v).sclk = false := rfl
@[simp] theorem resetWith_mosi (c : Config) (v : Level) : (State.resetWith c v).mosi = false := rfl
@[simp] theorem resetWith_rstN (c : Config) (v : Level) : (State.resetWith c v).rstN = true := rfl
@[simp] theorem resetWith_trace (c : Config) (v : Level) : (State.resetWith c v).trace = [] := rfl
@[simp] theorem resetWith_reads (c : Config) (v : Level) : (State.resetWith c v).reads = [] := rfl
@[simp] theorem resetWith_busTime (c : Config) (v : Level) : (State.resetWith c v).busTime = 0 := rfl
@[simp] theorem resetWith_inputs (c : Config) (v : Level) : (State.resetWith c v).inputs = [] := rfl
@[simp] theorem resetWith_resets (c : Config) (v : Level) : (State.resetWith c v).resets = 0 := rfl
@[simp] theorem resetWith_draws (c : Config) (v : Level) : (State.resetWith c v).draws = 0 := rfl

end Sys2Proof.Machine
end

