-- ==== Sys2Proof/Laws/Step.lean ====
section
/-! SUPPORT. Steps and runs: what one step is at each head of the sequencer, how runs compose, and what an instruction's meaning can answer. -/

namespace Sys2Proof.Machine

open Host (Outcome)

/-! ## One step -/

theorem step_seq {s : State} (h : s.inputs = []) : step s = s.sequence exec := by
  simp [step, State.stepWith, h]

theorem step_input {s : State} {i : Input} {rest : List Input} (h : s.inputs = i :: rest) :
    step s = ({ s with inputs := rest } : State).input exec i := by
  simp [step, State.stepWith, h]

section Sequence
variable {run : Instr → State → Outcome State Fault Refusal} {s : State} {rest : List SeqStep}

theorem sequence_idle (h : s.seq = []) : s.sequence run = .next s := by
  simp [State.sequence, h]

theorem sequence_fetch {i : Instr} (h : s.seq = .fetch :: rest) (hd : decodeCmd s.latchedWord = .ok i) :
    s.sequence run = run i { s with seq := rest } := by
  simp [State.sequence, h, hd]

theorem sequence_fetch_reserved {r : Reject} (h : s.seq = .fetch :: rest) (hd : decodeCmd s.latchedWord = .error r) :
    s.sequence run = .next (s.raise .badOp) := by
  simp [State.sequence, h, hd]

theorem sequence_panel {c : Byte} {i : Instr} (h : s.seq = .panel c :: rest) (hd : decodePanel c = .ok i) :
    s.sequence run = run i { s with seq := rest } := by
  simp [State.sequence, h, hd]

theorem sequence_txn {p : Payload} (h : s.seq = .txn p :: rest) : s.sequence run = txnStep p rest s := by
  simp [State.sequence, h]

theorem sequence_rst {v : Level} (h : s.seq = .rst v :: rest) :
    s.sequence run = .next { s with rstN := v, trace := s.trace ++ [.rst v], seq := rest } := by
  simp [State.sequence, h]

theorem sequence_delay {t : Nat} (h : s.seq = .delay t :: rest) :
    s.sequence run = .next { s with trace := s.trace ++ [.delay t], delayCnt := t, seq := .countdown :: rest } := by
  simp [State.sequence, h]

theorem sequence_countdown (h : s.seq = .countdown :: rest) : s.sequence run = .next (countdownStep rest s) := by
  simp [State.sequence, h]

theorem sequence_waitIdle (h : s.seq = .waitIdle :: rest) :
    s.sequence run = .next { s with wait := true, seq := .sample :: rest } := by
  simp [State.sequence, h]

theorem sequence_sample (h : s.seq = .sample :: rest) : s.sequence run = .next (sampleStep rest s) := by
  simp [State.sequence, h]

theorem sequence_rowLoop (h : s.seq = .rowLoop :: rest) : s.sequence run = .next (rowLoopStep rest s) := by
  simp [State.sequence, h]

theorem sequence_setDisplaying (h : s.seq = .setDisplaying :: rest) :
    s.sequence run = .next { s with pstate := .displaying, seq := rest } := by
  simp [State.sequence, h]

theorem sequence_finish {f : Finish} (h : s.seq = .finish f :: rest) : s.sequence run = .next (s.finish f) := by
  simp [State.sequence, h]

end Sequence

/-! ## Runs -/

@[simp] theorem run_zero (s : State) : run 0 s = .next s := rfl

theorem run_succ {s t : State} (h : step s = .next t) (k : Nat) : run (k + 1) s = run k t := by
  simp [run, h]

theorem run_eq_core_run (k : Nat) (s : State) : run k s = Host.Core.run Sys2Proof.core k s := by
  induction k generalizing s with
  | zero => rfl
  | succ k ih =>
    simp only [run, Host.Core.run, Sys2Proof.core]
    cases h : step s with
    | next t => exact ih t
    | fault r => rfl
    | refused r => rfl

theorem run_add {s t : State} {j : Nat} (h : run j s = .next t) (k : Nat) : run (j + k) s = run k t := by
  induction j generalizing s with
  | zero => cases h; simp
  | succ j ih =>
    rw [Nat.succ_add]
    cases hs : step s with
    | next s' => rw [run_succ hs] at h ⊢; exact ih h
    | fault r => simp [run, hs] at h
    | refused r => simp [run, hs] at h

theorem Reaches.refl (s : State) : Reaches s s := ⟨0, rfl⟩

theorem Reaches.trans {s t u : State} (h : Reaches s t) (h' : Reaches t u) : Reaches s u := by
  obtain ⟨j, hj⟩ := h
  obtain ⟨k, hk⟩ := h'
  exact ⟨j + k, by rw [run_add hj, hk]⟩

theorem Reaches.step {s t : State} (h : step s = .next t) : Reaches s t := ⟨1, by rw [run_succ h]; rfl⟩

theorem Reaches.head {s t u : State} (h : Machine.step s = .next t) (h' : Reaches t u) : Reaches s u :=
  (Reaches.step h).trans h'

/-! ## What a meaning can answer -/

/-- The step list an instruction loads when none of its checks fails; the empty list for one that loads none. -/
def loadedSteps (s : State) : Instr → List SeqStep
  | .sendCmd c => [.txn (.bytes [(false, c)]), .finish .plain]
  | .sendData d => [.txn (.bytes [(true, d)]), .finish .plain]
  | .sendDataList => [.txn (.listData (zext16 s.arg0)), .finish .plain]
  | .sendDataBuf => [.txn (.fbData (zext16 s.arg0) (zext16 s.arg1)), .finish .plain]
  | .sendCmdData c => [.txn (.cmdList c (zext16 s.arg0)), .finish .plain]
  | .init p => initSteps s.cfg p
  | .setFrameFull => setFrameFullSteps s.cfg
  | .setFrameRect => setFrameRectSteps
  | .clearFrame col => clearFrameSteps s.cfg col
  | .displayFrame => displayFrameSteps
  | .sleep => sleepSteps
  | .setPixel _ | .fill _ | .getPixel | .getWidth | .getHeight
  | .driverOutputControl | .boosterSoftStart | .dataEntryMode | .vcom | .lutUpload | .dummyLinePeriod | .gateTime
  | .addressWindowX | .addressWindowY | .cursorX | .cursorY | .activate | .displayUpdateControl | .writeRam
  | .deepSleep => []

/-- Everything a meaning can answer: an error raised, a step list loaded, a panel command issued, or an operation ended
in one step with a new FB or a new RESULT. -/
theorem exec_cases (i : Instr) (s : State) :
    (∃ e, e ≠ .ok ∧ exec i s = .next (s.raise e)) ∨
    (loadedSteps s i ≠ [] ∧ exec i s = .next (s.load (loadedSteps s i))) ∨
    (∃ c ps, exec i s = .next (s.issue c ps)) ∨
    (∃ col, i = .setPixel col ∧ exec i s = .next { s.done with fb := s.fbAfterSetPixel col }) ∨
    (∃ col, i = .fill col ∧ exec i s = .next { s.done with fb := s.fbAfterFill col }) ∨
    (∃ v, (i = .getPixel ∨ i = .getWidth ∨ i = .getHeight) ∧ exec i s = .next { s.done with result := v }) := by
  have gate : ∀ l : List SeqStep, l ≠ [] →
      (∃ e, e ≠ ErrCode.ok ∧ gated s (s.load l) = s.raise e) ∨ (l ≠ [] ∧ gated s (s.load l) = s.load l) := by
    intro l hl
    by_cases h : s.pstate.ready = true
    · exact .inr ⟨hl, by simp [gated, h]⟩
    · exact .inl ⟨.notInit, by simp, by simp [gated, h]⟩
  cases i with
  | sendCmd c => exact .inr (.inl ⟨by simp [loadedSteps], rfl⟩)
  | sendData d => exact .inr (.inl ⟨by simp [loadedSteps], rfl⟩)
  | sendDataList =>
    by_cases h : zext16 s.arg0 = 0 ∨ listSize < zext16 s.arg0
    · exact .inl ⟨.invalidArg, by simp, by simp [exec, execSendDataList, h]⟩
    · exact .inr (.inl ⟨by simp [loadedSteps], by simp [exec, execSendDataList, h, loadedSteps]⟩)
  | sendDataBuf =>
    by_cases h : zext16 s.arg1 = 0
    · exact .inl ⟨.invalidArg, by simp, by simp [exec, execSendDataBuf, h]⟩
    · by_cases h' : s.cfg.fbBytes < zext16 s.arg0 + zext16 s.arg1
      · exact .inl ⟨.invalidArg, by simp, by simp [exec, execSendDataBuf, h']⟩
      · exact .inr (.inl ⟨by simp [loadedSteps], by simp [exec, execSendDataBuf, h, h', loadedSteps]⟩)
  | sendCmdData c =>
    by_cases h : listSize < zext16 s.arg0
    · exact .inl ⟨.invalidArg, by simp, by simp [exec, execSendCmdData, h]⟩
    · exact .inr (.inl ⟨by simp [loadedSteps], by simp [exec, execSendCmdData, h, loadedSteps]⟩)
  | init p => exact .inr (.inl ⟨by simp [loadedSteps, initSteps], rfl⟩)
  | setFrameFull =>
    rcases gate (setFrameFullSteps s.cfg) (by simp [setFrameFullSteps]) with ⟨e, he, h⟩ | h
    · exact .inl ⟨e, he, by simp [exec, execSetFrameFull, h]⟩
    · exact .inr (.inl ⟨h.1, by simp [exec, execSetFrameFull, h.2, loadedSteps]⟩)
  | setFrameRect =>
    by_cases h : s.pstate.ready = true
    · cases hr : rectCheck s.cfg s.rect with
      | ok =>
        exact .inr (.inl ⟨by simp [loadedSteps, setFrameRectSteps],
          by simp [exec, execSetFrameRect, gated, h, hr, loadedSteps]⟩)
      | invalidArg => exact .inl ⟨.invalidArg, by simp, by simp [exec, execSetFrameRect, gated, h, hr]⟩
      | outOfBounds => exact .inl ⟨.outOfBounds, by simp, by simp [exec, execSetFrameRect, gated, h, hr]⟩
      | notInit => exact .inl ⟨.notInit, by simp, by simp [exec, execSetFrameRect, gated, h, hr]⟩
      | badOp => exact .inl ⟨.badOp, by simp, by simp [exec, execSetFrameRect, gated, h, hr]⟩
    · exact .inl ⟨.notInit, by simp, by simp [exec, execSetFrameRect, gated, h]⟩
  | clearFrame col =>
    rcases gate (clearFrameSteps s.cfg col) (by simp [clearFrameSteps]) with ⟨e, he, h⟩ | h
    · exact .inl ⟨e, he, by simp [exec, execClearFrame, h]⟩
    · exact .inr (.inl ⟨h.1, by simp [exec, execClearFrame, h.2, loadedSteps]⟩)
  | displayFrame =>
    rcases gate displayFrameSteps (by simp [displayFrameSteps]) with ⟨e, he, h⟩ | h
    · exact .inl ⟨e, he, by simp [exec, execDisplayFrame, h]⟩
    · exact .inr (.inl ⟨h.1, by simp [exec, execDisplayFrame, h.2, loadedSteps]⟩)
  | sleep =>
    rcases gate sleepSteps (by simp [sleepSteps]) with ⟨e, he, h⟩ | h
    · exact .inl ⟨e, he, by simp [exec, execSleep, h]⟩
    · exact .inr (.inl ⟨h.1, by simp [exec, execSleep, h.2, loadedSteps]⟩)
  | setPixel col => exact .inr (.inr (.inr (.inl ⟨col, rfl, rfl⟩)))
  | fill col => exact .inr (.inr (.inr (.inr (.inl ⟨col, rfl, rfl⟩))))
  | getPixel => exact .inr (.inr (.inr (.inr (.inr ⟨_, by simp, rfl⟩))))
  | getWidth => exact .inr (.inr (.inr (.inr (.inr ⟨_, by simp, rfl⟩))))
  | getHeight => exact .inr (.inr (.inr (.inr (.inr ⟨_, by simp, rfl⟩))))
  | driverOutputControl | boosterSoftStart | dataEntryMode | vcom | lutUpload | dummyLinePeriod | gateTime
  | addressWindowX | addressWindowY | cursorX | cursorY | activate | displayUpdateControl | writeRam
  | deepSleep => exact .inr (.inr (.inl ⟨_, _, rfl⟩))

/-- Every meaning answers a next state, in every state. -/
theorem exec_next (i : Instr) (s : State) : ∃ t, exec i s = .next t := by
  rcases exec_cases i s with ⟨_, _, h⟩ | ⟨_, h⟩ | ⟨_, _, h⟩ | ⟨_, _, h⟩ | ⟨_, _, h⟩ | ⟨_, _, h⟩ <;> exact ⟨_, h⟩

end Sys2Proof.Machine
end

