-- ==== Sys2Proof/Laws/Txn.lean ====
section
/-! SUPPORT. The bytes of a transaction and the run of one byte on the wires (40_bus_framer.md R131). -/

namespace Sys2Proof.Machine

/-! ## The bytes of a transaction -/

/-- A transaction's bytes depend on FB, LIST and FB_BYTES alone. -/
theorem payloadByte_congr {s t : State} (p : Payload) (k : Nat) (hc : t.cfg = s.cfg) (hf : t.fb = s.fb)
    (hl : t.list = s.list) (hr : t.resets = s.resets) : payloadByte t p k = payloadByte s p k := by
  cases p <;>
    simp [payloadByte, fbPayloadByte, listPayloadByte, State.fbByte, State.fbByteOf, State.listByte, hc, hf, hl, hr]

/-- A transaction's bytes depend on FB and LIST alone. -/
theorem content_congr {s t : State} (p : Payload) (hf : t.fb = s.fb) (hl : t.list = s.list) (hr : t.resets = s.resets) :
    p.content t = p.content s := by
  cases p <;>
    simp [Payload.content, State.listSlice, State.fbSlice, State.fbByte, State.fbByteOf, State.listByte, hf, hl, hr]

theorem content_length (s : State) (p : Payload) : (p.content s).length = p.length := by
  cases p <;> simp [Payload.content, Payload.length, State.listSlice, State.fbSlice]

/-- A legal transaction's byte at each position is its content's. -/
theorem payloadByte_content {s : State} {p : Payload} (hp : p.Legal s.cfg) {k : Nat} (hk : k < p.length) :
    payloadByte s p k = .ok ((p.content s)[k]'(by rw [content_length]; exact hk)) := by
  unfold payloadByte
  rw [if_pos hk]
  cases p with
  | bytes l =>
    have hk' : k < l.length := hk
    simp [Payload.content, List.getElem?_eq_getElem hk']
  | listData n =>
    have h1 : k < n := hk
    have h2 : n ≤ listSize := hp.2
    simp [Payload.content, State.listSlice, listPayloadByte, show k < listSize by omega]
  | cmdList c n =>
    have h1 : k < n + 1 := hk
    have h2 : n ≤ listSize := hp
    cases k with
    | zero => simp [Payload.content]
    | succ j => simp [Payload.content, State.listSlice, listPayloadByte, show j < listSize by omega]
  | fbData base len =>
    have h1 : k < len := hk
    have h2 := hp.2
    simp [Payload.content, State.fbSlice, fbPayloadByte, show base + k < s.cfg.fbBytes by omega]
  | repeated b n => simp [Payload.content]

theorem Legal.length_pos {c : Config} {p : Payload} (hp : p.Legal c) : 0 < p.length := by
  cases p with
  | bytes l => exact List.length_pos_iff.2 hp
  | listData n => exact hp.1
  | cmdList c n => exact Nat.succ_pos n
  | fbData base len => exact hp.1
  | repeated b n => exact hp

/-! ## One byte on the wires -/

section Byte
variable {s : State} {p : Payload} {rest : List SeqStep} {x : Level × Byte}

theorem step_csLow (hi : s.inputs = []) (hs : s.seq = .txn p :: rest) (hph : s.phase = .csLow) :
    step s = .next { s with csN := false, byteCnt := 0, phase := .dcSet, trace := s.trace ++ [.cs false],
                            busTime := s.busTime + s.cfg.sclkDiv } := by
  rw [step_seq hi, sequence_txn hs]; simp [txnStep, hph]

theorem step_dcSet (hi : s.inputs = []) (hs : s.seq = .txn p :: rest) (hph : s.phase = .dcSet)
    (hx : payloadByte s p s.byteCnt = .ok x) :
    step s = .next { s with dc := x.1, bitCnt := 7, phase := .mosi } := by
  rw [step_seq hi, sequence_txn hs]; simp [txnStep, hph, hx]

theorem step_mosi (hi : s.inputs = []) (hs : s.seq = .txn p :: rest) (hph : s.phase = .mosi)
    (hx : payloadByte s p s.byteCnt = .ok x) :
    step s = .next { s with mosi := x.2.getLsbD s.bitCnt, phase := .rise, busTime := s.busTime + s.cfg.sclkDiv } := by
  rw [step_seq hi, sequence_txn hs]; simp [txnStep, hph, hx]

theorem step_rise (hi : s.inputs = []) (hs : s.seq = .txn p :: rest) (hph : s.phase = .rise) :
    step s = .next { s with sclk := true, phase := .fall, busTime := s.busTime + s.cfg.sclkDiv } := by
  rw [step_seq hi, sequence_txn hs]; simp [txnStep, hph]

theorem step_fall {n : Nat} (hi : s.inputs = []) (hs : s.seq = .txn p :: rest) (hph : s.phase = .fall)
    (hb : s.bitCnt = n + 1) : step s = .next { s with sclk := false, bitCnt := n, phase := .mosi } := by
  rw [step_seq hi, sequence_txn hs]; simp [txnStep, hph, hb]

theorem step_fall_last (hi : s.inputs = []) (hs : s.seq = .txn p :: rest) (hph : s.phase = .fall) (hb : s.bitCnt = 0)
    (hx : payloadByte s p s.byteCnt = .ok x) :
    step s = .next { s with sclk := false, trace := s.trace ++ [.byte x.1 x.2], byteCnt := s.byteCnt + 1,
                            phase := if s.byteCnt + 1 < p.length then .dcSet else .trail } := by
  rw [step_seq hi, sequence_txn hs]; simp [txnStep, hph, hb, hx]

theorem step_trail (hi : s.inputs = []) (hs : s.seq = .txn p :: rest) (hph : s.phase = .trail) :
    step s = .next { s with phase := .csHigh, busTime := s.busTime + s.cfg.sclkDiv } := by
  rw [step_seq hi, sequence_txn hs]; simp [txnStep, hph]

theorem step_csHigh (hi : s.inputs = []) (hs : s.seq = .txn p :: rest) (hph : s.phase = .csHigh) :
    step s = .next { s with csN := true, phase := .csLow, seq := rest, trace := s.trace ++ [.cs true],
                            busTime := s.busTime + 2 * s.cfg.sclkDiv } := by
  rw [step_seq hi, sequence_txn hs]; simp [txnStep, hph]

/-- MOSI <- b[i], then the rising edge: two half-periods. -/
theorem bit_run (hi : s.inputs = []) (hs : s.seq = .txn p :: rest) (hph : s.phase = .mosi)
    (hx : payloadByte s p s.byteCnt = .ok x) :
    Reaches s { s with mosi := x.2.getLsbD s.bitCnt, sclk := true, phase := .fall,
                       busTime := s.busTime + 2 * s.cfg.sclkDiv } := by
  refine Reaches.head (step_mosi hi hs hph hx) ?_
  have h := step_rise (s := { s with mosi := x.2.getLsbD s.bitCnt, phase := .rise,
                                     busTime := s.busTime + s.cfg.sclkDiv }) hi hs rfl
  convert Reaches.step h using 2
  ring

/-- From MOSI <- b[n] of the byte `x` to its last falling edge: `2*(n+1)` half-periods, then the BYTE event. -/
theorem bits_run (n : Nat) (hi : s.inputs = []) (hs : s.seq = .txn p :: rest) (hph : s.phase = .mosi)
    (hx : payloadByte s p s.byteCnt = .ok x) (hb : s.bitCnt = n) :
    Reaches s { s with
      mosi := x.2.getLsbD 0, sclk := false, bitCnt := 0, byteCnt := s.byteCnt + 1,
      phase := if s.byteCnt + 1 < p.length then .dcSet else .trail,
      trace := s.trace ++ [.byte x.1 x.2], busTime := s.busTime + 2 * (n + 1) * s.cfg.sclkDiv } := by
  refine (bit_run hi hs hph hx).trans ?_
  have hx' := fun (t : State) h1 h2 h3 h4 => (payloadByte_congr (s := s) (t := t) p s.byteCnt h1 h2 h3 h4).trans hx
  induction n generalizing s with
  | zero =>
    have h := step_fall_last (s := { s with mosi := x.2.getLsbD s.bitCnt, sclk := true, phase := .fall,
                                            busTime := s.busTime + 2 * s.cfg.sclkDiv }) hi hs rfl hb (hx' _ rfl rfl rfl rfl)
    convert Reaches.step h using 2 <;> simp [hb]
  | succ n ih =>
    have h := step_fall (s := { s with mosi := x.2.getLsbD s.bitCnt, sclk := true, phase := .fall,
                                       busTime := s.busTime + 2 * s.cfg.sclkDiv }) hi hs rfl hb
    have hy := hx' { s with mosi := x.2.getLsbD s.bitCnt, sclk := false, phase := .mosi, bitCnt := n,
                            busTime := s.busTime + 2 * s.cfg.sclkDiv } rfl rfl rfl rfl
    have hr := bit_run (s := { s with mosi := x.2.getLsbD s.bitCnt, sclk := false, phase := .mosi, bitCnt := n,
                                      busTime := s.busTime + 2 * s.cfg.sclkDiv }) hi hs rfl hy
    refine Reaches.head h (hr.trans ?_)
    convert ih (s := { s with mosi := x.2.getLsbD s.bitCnt, sclk := false, phase := .mosi, bitCnt := n,
                              busTime := s.busTime + 2 * s.cfg.sclkDiv }) hi hs rfl hy rfl hx' using 2
    ring

/-- One BYTE of a transaction, from DC <- dc to the last falling edge: `16*T` cycles (40_bus_framer.md R131). -/
theorem byte_run (hi : s.inputs = []) (hs : s.seq = .txn p :: rest) (hx : payloadByte s p s.byteCnt = .ok x)
    (hph : s.phase = .dcSet) :
    Reaches s { s with
      dc := x.1, mosi := x.2.getLsbD 0, sclk := false, bitCnt := 0, byteCnt := s.byteCnt + 1,
      phase := if s.byteCnt + 1 < p.length then .dcSet else .trail,
      trace := s.trace ++ [.byte x.1 x.2], busTime := s.busTime + 16 * s.cfg.sclkDiv } := by
  exact Reaches.head (step_dcSet hi hs hph hx) (bits_run (s := { s with dc := x.1, bitCnt := 7, phase := .mosi }) 7 hi hs rfl
    ((payloadByte_congr (s := s) p s.byteCnt rfl rfl rfl rfl).trans hx) rfl)

end Byte

/-! ## The bytes of one transaction on the wires -/

/-- The `n` bytes of a transaction that are still to be sent: `16*n*T` cycles, then the trailing wait
(40_bus_framer.md R132). -/
theorem bytes_run {p : Payload} {rest : List SeqStep} (l : List (Level × Byte)) (n : Nat) :
    ∀ (s : State), s.inputs = [] → s.seq = .txn p :: rest → s.phase = .dcSet →
    p.Legal s.cfg → p.content s = l → s.byteCnt < l.length → l.length - s.byteCnt = n →
    Reaches s { s with
      dc := (l.getLast?.map Prod.fst).getD s.dc
      mosi := (l.getLast?.map (fun x => x.2.getLsbD 0)).getD s.mosi
      sclk := false, bitCnt := 0, byteCnt := l.length, phase := .trail,
      trace := s.trace ++ (l.drop s.byteCnt).map (fun x => .byte x.1 x.2)
      busTime := s.busTime + 16 * n * s.cfg.sclkDiv } := by
  induction n with
  | zero => intro s _ _ _ _ _ h h'; omega
  | succ n ih =>
    intro s hi hs hph hp hl hk hn
    have hlen : p.length = l.length := by rw [← content_length s, hl]
    have hx : payloadByte s p s.byteCnt = .ok l[s.byteCnt] := by
      subst hl; exact payloadByte_content hp (by omega)
    refine (byte_run hi hs hx hph).trans ?_
    have hdrop : l.drop s.byteCnt = l[s.byteCnt] :: l.drop (s.byteCnt + 1) := List.drop_eq_getElem_cons hk
    generalize hxx : l[s.byteCnt] = x at *
    have hne : l ≠ [] := by rintro rfl; simp at hk
    rw [hlen, List.getLast?_eq_some_getLast hne, hdrop]
    by_cases hlast : s.byteCnt + 1 < l.length
    · have := ih { s with
        dc := x.1, mosi := x.2.getLsbD 0, sclk := false, bitCnt := 0, byteCnt := s.byteCnt + 1, phase := .dcSet
        trace := s.trace ++ [.byte x.1 x.2], busTime := s.busTime + 16 * s.cfg.sclkDiv } hi hs rfl hp
        ((content_congr p rfl rfl rfl).trans hl) hlast (by simp only []; omega)
      rw [if_pos hlast]
      rw [List.getLast?_eq_some_getLast hne] at this
      convert this using 2
      · simp
      · simp
      · simp
      · simp only []; ring
    · have h1 : l.length = s.byteCnt + 1 := by omega
      have hgl : l.getLast hne = x := by
        rw [List.getLast_eq_getElem, ← hxx]; congr 1; omega
      rw [if_neg hlast]
      convert Reaches.refl _ using 2
      · simp [hgl]
      · simp [hgl]
      · rw [List.drop_eq_nil_of_le (by omega)]; simp
      · have : n = 0 := by omega
        subst this; ring

end Sys2Proof.Machine
end

