-- ==== Sys2Proof/Laws/Sequencer.lean ====
section
/-! SUPPORT. What a sequencer step can change: the fields no step changes, and the steps that change PSTATE, MODE, ERR, BUSY, FB or RESULT; and that no step sees the schedule or the record of reads. -/

namespace Sys2Proof.Machine

open Host (Outcome)

/-- The meaning of a panel command issues that command. -/
theorem exec_panel {c : Byte} {i : Instr} (h : decodePanel c = .ok i) (s : State) :
    ∃ ps, exec i s = .next (s.issue c ps) := by
  unfold decodePanel at h
  split at h <;> cases h <;>
    (rename_i e
     have e' : c = BitVec.ofNat 8 c.toNat := by simp
     rw [e] at e'
     subst e'
     exact ⟨_, rfl⟩)

/-- The fields a sequencer step never changes: the operands, what the host and the panel write, and the observers of the
host's reads. -/
structure StepFrame (s t : State) : Prop where
  cfg : t.cfg = s.cfg
  ovr : t.ovr = s.ovr
  busyIn : t.busyIn = s.busyIn
  arg0 : t.arg0 = s.arg0
  arg1 : t.arg1 = s.arg1
  arg2 : t.arg2 = s.arg2
  arg3 : t.arg3 = s.arg3
  list : t.list = s.list
  op : t.op = s.op
  imm : t.imm = s.imm
  reads : t.reads = s.reads
  inputs : t.inputs = s.inputs
  resets : t.resets = s.resets
  draws : t.draws = s.draws

theorem sequence_frame {s t : State} (ht : s.sequence exec = .next t) : StepFrame s t := by
  have hex : ∀ i rest, exec i { s with seq := rest } = .next t → StepFrame s t := by
    intro i rest ht
    rcases exec_cases i { s with seq := rest } with
      ⟨e, he, h'⟩ | ⟨hl, h'⟩ | ⟨c, ps, h'⟩ | ⟨col, -, h'⟩ | ⟨col, -, h'⟩ | ⟨v, -, h'⟩ <;>
      rw [h'] at ht <;> cases ht <;> constructor <;> rfl
  cases hs : s.seq with
  | nil => rw [sequence_idle hs] at ht; cases ht; constructor <;> rfl
  | cons st rest =>
  cases st with
  | fetch =>
    cases hd : decodeCmd s.latchedWord with
    | error r => rw [sequence_fetch_reserved hs hd] at ht; cases ht; constructor <;> rfl
    | ok i => rw [sequence_fetch hs hd] at ht; exact hex i rest ht
  | panel c =>
    cases hd : decodePanel c with
    | error r => simp [State.sequence, hs, hd] at ht
    | ok i => rw [sequence_panel hs hd] at ht; exact hex i rest ht
  | txn p =>
    rw [sequence_txn hs] at ht
    unfold txnStep at ht
    repeat' split at ht
    all_goals (cases ht; try (constructor <;> rfl))
  | rst v => rw [sequence_rst hs] at ht; cases ht; constructor <;> rfl
  | delay n => rw [sequence_delay hs] at ht; cases ht; constructor <;> rfl
  | countdown => rw [sequence_countdown hs] at ht; cases ht; unfold countdownStep; split <;> constructor <;> rfl
  | waitIdle => rw [sequence_waitIdle hs] at ht; cases ht; constructor <;> rfl
  | sample => rw [sequence_sample hs] at ht; cases ht; unfold sampleStep; split <;> constructor <;> rfl
  | rowLoop => rw [sequence_rowLoop hs] at ht; cases ht; unfold rowLoopStep; split <;> constructor <;> rfl
  | setDisplaying => rw [sequence_setDisplaying hs] at ht; cases ht; constructor <;> rfl
  | finish f => rw [sequence_finish hs] at ht; cases ht; cases f <;> constructor <;> rfl

/-- The steps that change PSTATE, MODE, ERR, BUSY, FB or RESULT: `setDisplaying`, `finish`, and a fetch that ends its
operation at once. -/
theorem sequence_status {s t : State} (ht : s.sequence exec = .next t) :
    (t.pstate = s.pstate ∧ t.mode = s.mode ∧ t.err = s.err ∧ t.busy = s.busy ∧ t.fb = s.fb ∧ t.result = s.result) ∨
    (∃ rest, s.seq = .setDisplaying :: rest ∧ t = { s with pstate := .displaying, seq := rest }) ∨
    (∃ f rest, s.seq = .finish f :: rest ∧ t = s.finish f) ∨
    (∃ rest, s.seq = .fetch :: rest ∧ t.pstate = s.pstate ∧ t.mode = s.mode ∧ t.busy = false ∧ t.seq = [] ∧
      t.trace = s.trace ∧ t.sclk = s.sclk ∧
      ((t.err ≠ .ok ∧ t.fb = s.fb ∧ t.result = s.result) ∨
        (t.err = .ok ∧ ((s.op = 0x20 ∨ s.op = 0x21) ∧ t.result = s.result ∨
          (s.op = 0x22 ∨ s.op = 0x30 ∨ s.op = 0x31) ∧ t.fb = s.fb)))) := by
  cases hs : s.seq with
  | nil => rw [sequence_idle hs] at ht; cases ht; simp
  | cons st rest =>
  cases st with
  | fetch =>
    cases hd : decodeCmd s.latchedWord with
    | error r => rw [sequence_fetch_reserved hs hd] at ht; cases ht; simp [State.raise]
    | ok i => 
      rw [sequence_fetch hs hd] at ht
      have hd' : decodeOp s.op s.imm = .ok i := by simpa [State.latchedWord] using hd
      have hop := op_of_decodeOp hd'
      rcases exec_cases i { s with seq := rest } with
        ⟨e, he, h'⟩ | ⟨hl, h'⟩ | ⟨c, ps, h'⟩ | ⟨col, rfl, h'⟩ | ⟨col, rfl, h'⟩ | ⟨v, hv, h'⟩ <;>
        rw [h'] at ht <;> cases ht
      · right; right; right; simp [State.raise, he]
      · left; simp
      · left; simp
      · right; right; right
        simp at hop
        simp [State.done, hop]
      · right; right; right
        simp at hop
        simp [State.done, hop]
      · right; right; right
        rcases hv with rfl | rfl | rfl <;> simp at hop <;> simp [State.done, hop]
  | panel c =>
    cases hd : decodePanel c with
    | error r => simp [State.sequence, hs, hd] at ht
    | ok i => 
      rw [sequence_panel hs hd] at ht
      obtain ⟨ps, h'⟩ := exec_panel hd { s with seq := rest }
      rw [h'] at ht; cases ht; simp
  | txn p =>
    left
    rw [sequence_txn hs] at ht
    unfold txnStep at ht
    repeat' split at ht
    all_goals (cases ht; try simp)
  | rst v => rw [sequence_rst hs] at ht; cases ht; simp
  | delay n => rw [sequence_delay hs] at ht; cases ht; simp
  | countdown => rw [sequence_countdown hs] at ht; cases ht; left; unfold countdownStep; split <;> simp
  | waitIdle => rw [sequence_waitIdle hs] at ht; cases ht; simp
  | sample => rw [sequence_sample hs] at ht; cases ht; left; unfold sampleStep; split <;> simp
  | rowLoop => rw [sequence_rowLoop hs] at ht; cases ht; left; unfold rowLoopStep; split <;> simp
  | setDisplaying => rw [sequence_setDisplaying hs] at ht; cases ht; right; left; simp
  | finish f => rw [sequence_finish hs] at ht; cases ht; right; right; left; simp

/-! ## What the sequencer does not see -/

/-- `s` with another schedule and another record of reads. -/
def State.withHost (l : List Input) (r : List (Half × Word)) (s : State) : State := { s with inputs := l, reads := r }

/-- An outcome with another schedule and another record of reads in its next state. -/
def withHostNext (l : List Input) (r : List (Half × Word)) : Outcome State Fault Refusal → Outcome State Fault Refusal
  | .next t => .next (t.withHost l r)
  | .fault f => .fault f
  | .refused f => .refused f

theorem withHostNext_ite {c : Prop} [Decidable c] (l : List Input) (r : List (Half × Word))
    (a b : Outcome State Fault Refusal) :
    withHostNext l r (if c then a else b) = if c then withHostNext l r a else withHostNext l r b := by
  split <;> rfl

/-- A meaning does not see the schedule or the record of reads. -/
theorem exec_withHost (i : Instr) (s : State) (l : List Input) (r : List (Half × Word)) :
    exec i (s.withHost l r) = withHostNext l r (exec i s) := by
  have gate : ∀ k : State,
      (Outcome.next (gated (s.withHost l r) (k.withHost l r)) : Outcome State Fault Refusal) =
        withHostNext l r (.next (gated s k)) := by
    intro k
    unfold gated
    show Outcome.next (if s.pstate.ready then _ else _) = _
    split <;> rfl
  cases i with
  | sendDataList => simp only [exec, execSendDataList]; rw [withHostNext_ite]; rfl
  | sendDataBuf => simp only [exec, execSendDataBuf]; rw [withHostNext_ite, withHostNext_ite]; rfl
  | sendCmdData c => simp only [exec, execSendCmdData]; rw [withHostNext_ite]; rfl
  | setFrameFull => exact gate (s.load (setFrameFullSteps s.cfg))
  | setFrameRect =>
    refine Eq.trans ?_
      (gate (match rectCheck s.cfg s.rect with | .ok => s.load setFrameRectSteps | e => s.raise e))
    simp only [exec, execSetFrameRect]
    congr 2
    show (match rectCheck s.cfg s.rect with | .ok => _ | e => _) = _
    cases rectCheck s.cfg s.rect <;> rfl
  | clearFrame col => exact gate (s.load (clearFrameSteps s.cfg col))
  | displayFrame => exact gate (s.load displayFrameSteps)
  | sleep => exact gate (s.load sleepSteps)
  | _ => rfl

/-- The sequencer does not see the schedule or the record of reads: what the host does to them is without effect on it. -/
theorem sequence_withHost (s : State) (l : List Input) (r : List (Half × Word)) :
    (s.withHost l r).sequence exec = withHostNext l r (s.sequence exec) := by
  have hs : (s.withHost l r).seq = s.seq := rfl
  have hp : ∀ p k, payloadByte (s.withHost l r) p k = payloadByte s p k :=
    fun p k => payloadByte_congr p k rfl rfl rfl rfl
  cases h : s.seq with
  | nil => rw [sequence_idle h, sequence_idle (hs.trans h)]; rfl
  | cons st rest =>
  cases st with
  | txn p =>
    rw [sequence_txn h, sequence_txn (hs.trans h)]
    unfold txnStep
    simp only [hp]
    rw [show (s.withHost l r).phase = s.phase from rfl, show (s.withHost l r).byteCnt = s.byteCnt from rfl,
      show (s.withHost l r).bitCnt = s.bitCnt from rfl]
    cases s.phase with
    | dcSet => cases payloadByte s p s.byteCnt <;> rfl
    | mosi => cases payloadByte s p s.byteCnt <;> rfl
    | fall =>
      by_cases h0 : s.bitCnt = 0 <;> simp only [h0, if_true, if_false] <;> (try cases payloadByte s p s.byteCnt) <;> rfl
    | _ => rfl
  | fetch =>
    cases hd : decodeCmd s.latchedWord with
    | error e => rw [sequence_fetch_reserved h hd, sequence_fetch_reserved (hs.trans h) hd]; rfl
    | ok i =>
      rw [sequence_fetch h hd, sequence_fetch (hs.trans h) hd]
      exact exec_withHost i { s with seq := rest } l r
  | panel c =>
    cases hd : decodePanel c with
    | error e => simp [State.sequence, h, hs.trans h, hd, withHostNext]
    | ok i =>
      rw [sequence_panel h hd, sequence_panel (hs.trans h) hd]
      exact exec_withHost i { s with seq := rest } l r
  | countdown =>
    rw [sequence_countdown h, sequence_countdown (hs.trans h)]; unfold countdownStep
    show Outcome.next (if s.delayCnt ≤ 1 then _ else _) = _
    split <;> rfl
  | sample =>
    rw [sequence_sample h, sequence_sample (hs.trans h)]; unfold sampleStep
    show Outcome.next (if s.busyIn = s.cfg.busyActive then _ else _) = _
    split <;> rfl
  | rowLoop =>
    rw [sequence_rowLoop h, sequence_rowLoop (hs.trans h)]; unfold rowLoopStep
    show Outcome.next (if (s.rowCnt : Int) < s.rect.height then _ else _) = _
    split <;> rfl
  | finish f =>
    rw [sequence_finish h, sequence_finish (hs.trans h)]; cases f <;> rfl
  | rst v => rw [sequence_rst h, sequence_rst (hs.trans h)]; rfl
  | delay n => rw [sequence_delay h, sequence_delay (hs.trans h)]; rfl
  | waitIdle => rw [sequence_waitIdle h, sequence_waitIdle (hs.trans h)]; rfl
  | setDisplaying => rw [sequence_setDisplaying h, sequence_setDisplaying (hs.trans h)]; rfl

end Sys2Proof.Machine
end

