-- ==== Sys2Proof/Laws/Inv.lean ====
section
/-! SUPPORT. Lemmas on the invariant: what it depends on, how it is built for an idle block and between transactions, that a rectangle's rows and a pixel's byte lie in FB, and that a sequencer step keeps it. -/

namespace Sys2Proof.Machine

/-! ## What the invariant depends on -/

theorem legal_congr {s t : State} (hc : t.cfg = s.cfg) (ho : t.op = s.op) (hi : t.imm = s.imm)
    (h0 : t.arg0 = s.arg0) (h1 : t.arg1 = s.arg1) (h2 : t.arg2 = s.arg2) (h3 : t.arg3 = s.arg3)
    (hp : t.pstate.ready = s.pstate.ready) (st : SeqStep) : st.Legal t ↔ st.Legal s := by
  cases st with
  | finish f => cases f <;> simp [SeqStep.Legal, ho, hi, hp]
  | _ => simp [SeqStep.Legal, hc, ho, hp, State.rect, h0, h1, h2, h3]

theorem stepsOk_congr {s t : State} (hc : t.cfg = s.cfg) (ho : t.op = s.op) (hi : t.imm = s.imm)
    (h0 : t.arg0 = s.arg0) (h1 : t.arg1 = s.arg1) (h2 : t.arg2 = s.arg2) (h3 : t.arg3 = s.arg3)
    (hp : t.pstate.ready = s.pstate.ready) (l : List SeqStep) : StepsOk t l ↔ StepsOk s l := by
  induction l with
  | nil => rfl
  | cons st rest ih =>
    have := legal_congr hc ho hi h0 h1 h2 h3 hp st
    cases st with
    | finish f => simp [StepsOk, this]
    | rst v => cases v <;> simp [StepsOk, this, ih]
    | _ => simp [StepsOk, this, ih]

theorem seqOk_of_stepsOk {s : State} (h : StepsOk s s.seq) : SeqOk s := by
  unfold SeqOk
  split <;> rename_i heq <;> (try rw [heq] at h) <;> simp_all [StepsOk, SeqStep.Legal]

theorem inWaitIdle_of_stepsOk {s : State} {l} (h : StepsOk s l) : inWaitIdle l = false := by
  unfold inWaitIdle
  split <;> simp_all [StepsOk, SeqStep.Legal]

theorem stepsOk_tail {s : State} {st : SeqStep} {rest : List SeqStep} (h : StepsOk s (st :: rest))
    (hf : ∀ f, st ≠ .finish f) : st.Legal s ∧ StepsOk s rest := by
  cases st with
  | finish f => exact absurd rfl (hf f)
  | rst v => cases v <;> simp_all [StepsOk]
  | _ => simpa [StepsOk] using h

theorem Inv.idle {s : State} (cfg : s.cfg.WellFormed) (fbWf : Memory.wf s.fb) (listWf : Memory.wf s.list)
    (fbBound : ∀ c ∈ s.fb, c.1 < s.cfg.fbBytes) (listBound : ∀ c ∈ s.list, c.1 < listSize)
    (hb : s.busy = false) (hs : s.seq = []) (hw : s.wait = false) (hr : s.rstN = true) (hc : s.csN = true) (hk : s.sclk = false)
    (hp : s.phase = .csLow) (hbc : s.bitCnt ≤ 7) : Inv s where
  cfg := cfg
  fbWf := fbWf
  listWf := listWf
  fbBound := fbBound
  listBound := listBound
  busy := by simp [hb, hs]
  wait := by simp [hw, hs, inWaitIdle]
  rstN := by simp [hr]
  seq := by simp [SeqOk, hs]
  wires := ⟨by simp [hc, hp], by simp [hk, hp], by simp [hp], by simp [hs], hbc, by simp [hs], by simp [hs]⟩

/-- The wires between transactions. -/
theorem wires_between {s : State} (hc : s.csN = true) (hk : s.sclk = false)
    (hp : s.phase = .csLow) (hbc : s.bitCnt ≤ 7) : WiresOk s :=
  ⟨by simp [hc, hp], by simp [hk, hp], by simp [hp], by simp [hp], hbc, by simp [hp], by simp [hp]⟩

theorem Inv.phase {s : State} (h : Inv s) (hs : ∀ p rest, s.seq ≠ .txn p :: rest) : s.phase = .csLow := by
  by_contra hp
  obtain ⟨p, rest, h'⟩ := h.wires.txn hp
  exact hs p rest h'

theorem WiresOk.high {s : State} (h : WiresOk s) (hp : s.phase = .csLow) : s.csN = true ∧ s.sclk = false := by
  refine ⟨h.csN.2 hp, ?_⟩
  have := h.sclk
  rw [hp] at this
  simpa using this

theorem seqOk_congr {s t : State} (hs : t.seq = s.seq) (hc : t.cfg = s.cfg) (ho : t.op = s.op) (hi : t.imm = s.imm)
    (h0 : t.arg0 = s.arg0) (h1 : t.arg1 = s.arg1) (h2 : t.arg2 = s.arg2) (h3 : t.arg3 = s.arg3)
    (hp : t.pstate.ready = s.pstate.ready) (h : SeqOk s) : SeqOk t := by
  unfold SeqOk at *
  rw [hs]
  split at h <;> simp_all [stepsOk_congr hc ho hi h0 h1 h2 h3 hp]

/-- An operation between two of its steps, outside a WaitIdle and a reset pulse. -/
theorem Inv.running {s : State} (cfg : s.cfg.WellFormed) (fbWf : Memory.wf s.fb) (listWf : Memory.wf s.list)
    (fbBound : ∀ c ∈ s.fb, c.1 < s.cfg.fbBytes) (listBound : ∀ c ∈ s.list, c.1 < listSize) (hb : s.busy = true)
    (hok : StepsOk s s.seq) (hw : s.wait = false) (hr : s.rstN = true) (hc : s.csN = true) (hk : s.sclk = false)
    (hp : s.phase = .csLow) (hbc : s.bitCnt ≤ 7) : Inv s where
  cfg := cfg
  fbWf := fbWf
  listWf := listWf
  fbBound := fbBound
  listBound := listBound
  busy := by
    have hne : s.seq ≠ [] := by intro h0; rw [h0] at hok; exact hok
    simp [hb, hne]
  wait := by rw [hw, inWaitIdle_of_stepsOk hok]
  rstN := by simp [hr]
  seq := seqOk_of_stepsOk hok
  wires := wires_between hc hk hp hbc

/-- Inv survives a change to fields it does not mention. -/
theorem Inv.congr {s t : State} (h : Inv s)
    (e : t = { s with err := t.err, ovr := t.ovr, busyIn := t.busyIn, result := t.result, trace := t.trace, reads := t.reads,
                      busTime := t.busTime, inputs := t.inputs, draws := t.draws, delayCnt := t.delayCnt, mode := t.mode, rowCnt := t.rowCnt }) : Inv t := by
  have hp : ∀ p k, payloadByte t p k = payloadByte s p k := fun p k => payloadByte_congr p k (by rw [e]) (by rw [e]) (by rw [e]) (by rw [e])
  have hq : SeqOk t := seqOk_congr (by rw [e]) (by rw [e]) (by rw [e]) (by rw [e]) (by rw [e]) (by rw [e]) (by rw [e]) (by rw [e]) (by rw [e]) h.seq
  obtain ⟨a1, a2, a3, a4, a5, a6, a7, a8, a9, a10⟩ := h
  obtain ⟨w1, w2, w3, w4, w5, w6, w7⟩ := a10
  refine ⟨?_, ?_, ?_, ?_, ?_, ?_, ?_, ?_, hq, ?_, ?_, ?_, ?_, ?_, ?_, ?_⟩ <;> (try simp only [hp]) <;> rw [e] <;> assumption

/-! ## Geometry and loaded steps -/

/-- The arithmetic of 00_scope.md R8. -/
theorem cfg_facts {c : Config} (h : c.WellFormed) :
    1 ≤ c.rowBytes ∧ 1 ≤ c.height ∧ c.width = 8 * c.rowBytes ∧ c.fbBytes = c.rowBytes * c.height := by
  obtain ⟨h1, h2, h3, -⟩ := h
  have hw : c.width = 8 * c.rowBytes := by unfold Config.rowBytes; omega
  refine ⟨by omega, by omega, hw, ?_⟩
  unfold Config.fbBytes
  rw [hw, mul_assoc]; omega

theorem panel_known : ∀ c ∈ [0x01#8, 0x0C, 0x2C, 0x3A, 0x3B, 0x11, 0x32, 0x44, 0x45, 0x4E, 0x4F, 0x24, 0x22, 0x20, 0x10],
    ∃ i, decodePanel c = .ok i := by
  simp [decodePanel]

/-- The steps an operation loads are legal. -/
theorem loaded_ok {s t : State} {i : Instr} (hc : s.cfg.WellFormed) (hd : decodeOp s.op s.imm = .ok i)
    (he : exec i s = .next t) (ht : t.seq ≠ []) :
    t = s.load t.seq ∧ StepsOk t t.seq := by
  obtain ⟨hrb, hh, hw, hfb⟩ := cfg_facts hc
  have hfb1 : 1 ≤ s.cfg.fbBytes := by rw [hfb]; exact Nat.mul_pos hrb hh
  rcases op_of_decodeOp hd with ⟨rfl, h⟩ | ⟨rfl, h⟩ | ⟨rfl, h⟩ | ⟨rfl, h⟩ | ⟨rfl, h⟩ | ⟨rfl, h⟩ | ⟨rfl, h⟩ | ⟨rfl, h⟩ | ⟨rfl, h⟩ | ⟨rfl, h⟩ | ⟨rfl, h⟩ | ⟨rfl, h⟩ | ⟨rfl, h⟩ | ⟨rfl, h⟩ | ⟨rfl, h⟩ | ⟨rfl, h⟩
  case _ =>
    cases he
    refine ⟨rfl, ?_⟩
    simp [StepsOk, SeqStep.Legal, Payload.Legal, Payload.CommandsKnown, h]
  case _ =>
    cases he
    refine ⟨rfl, ?_⟩
    simp [StepsOk, SeqStep.Legal, Payload.Legal, Payload.CommandsKnown, h]
  case _ =>
    simp only [exec, execSendDataList] at he
    split at he <;> cases he
    · simp at ht
    · refine ⟨rfl, ?_⟩
      simp [StepsOk, SeqStep.Legal, Payload.Legal, Payload.CommandsKnown]
      omega
  case _ =>
    simp only [exec, execSendDataBuf] at he
    split at he
    · cases he; simp at ht
    split at he <;> cases he
    · simp at ht
    · refine ⟨rfl, ?_⟩
      simp [StepsOk, SeqStep.Legal, Payload.Legal, Payload.CommandsKnown]
      omega
  case _ =>
    simp only [exec, execSendCmdData] at he
    split at he <;> cases he
    · simp at ht
    · refine ⟨rfl, ?_⟩
      simp [StepsOk, SeqStep.Legal, Payload.Legal, Payload.CommandsKnown, h]
      omega
  case _ =>
    cases he
    refine ⟨rfl, ?_⟩
    simp [StepsOk, SeqStep.Legal, initSteps, panelReset, panel_known, h]
  case _ =>
    simp only [exec, execSetFrameFull, gated] at he
    split at he <;> cases he
    · refine ⟨rfl, ?_⟩
      simp [StepsOk, SeqStep.Legal, setFrameFullSteps, windowCursor, panel_known, Payload.Legal, Payload.CommandsKnown, h, hfb1]
      assumption
    · simp at ht
  case _ =>
    simp only [exec, execSetFrameRect, gated] at he
    split at he
    · cases hr : rectCheck s.cfg s.rect <;> rw [hr] at he <;> cases he <;> try (simp at ht; done)
      refine ⟨rfl, ?_⟩
      simp [StepsOk, SeqStep.Legal, setFrameRectSteps, windowCursor, panel_known, h]
      exact ⟨hr, by assumption⟩
    · cases he; simp at ht
  case _ =>
    simp only [exec, execClearFrame, gated] at he
    split at he <;> cases he
    · refine ⟨rfl, ?_⟩
      have : 1 ≤ s.cfg.rowBytes * s.cfg.height := Nat.mul_pos hrb hh
      simp [StepsOk, SeqStep.Legal, clearFrameSteps, windowCursor, panel_known, Payload.Legal, Payload.CommandsKnown, h, this]
      assumption
    · simp at ht
  case _ =>
    simp only [exec, execDisplayFrame, gated] at he
    split at he <;> cases he
    · refine ⟨rfl, ?_⟩
      simp [StepsOk, SeqStep.Legal, displayFrameSteps, panel_known, h]
      assumption
    · simp at ht
  case _ =>
    simp only [exec, execSleep, gated] at he
    split at he <;> cases he
    · refine ⟨rfl, ?_⟩
      simp [StepsOk, SeqStep.Legal, sleepSteps, panel_known, h]
      assumption
    · simp at ht
  all_goals (cases he; simp at ht)

/-- A pixel in range lies in FB (42_framebuffer.md R222). -/
theorem pixelByte_lt {c : Config} {x y : Int} (hc : c.WellFormed) (hin : InRange c x y) :
    byteOfBit (bitIndex c x y) < c.fbBytes := by
  obtain ⟨i1, i2, i3, i4⟩ := hin
  obtain ⟨hrb, hh, hwd, hfb⟩ := cfg_facts hc
  simp only [byteOfBit, bitIndex]
  clear hc
  rw [hwd] at i2 ⊢
  rw [hfb]
  generalize c.rowBytes = w at *
  generalize c.height = hgt at *
  have h1 : y * (w : Int) + w ≤ w * hgt := by
    have := Int.mul_le_mul_of_nonneg_right (show y + 1 ≤ hgt by omega) (show (0:Int) ≤ w by omega)
    linarith
  have h2 : 0 ≤ y * (w : Int) := Int.mul_nonneg i3 (by omega)
  have h3 : y * (((8 * w : Nat)) : Int) = 8 * (y * (w : Int)) := by push_cast; ring
  have h4 : ((w * hgt : Nat) : Int) = w * hgt := by push_cast; rfl
  rw [h3]
  generalize y * (w : Int) = m at *
  rw [← h4] at h1
  generalize w * hgt = q at *
  omega

/-- Where a DELAY stands: in WaitIdle, or between two steps. -/
theorem seqOk_delay {s : State} {st : SeqStep} {rest : List SeqStep} (h : SeqOk s) (hs : s.seq = st :: rest)
    (hst : st = .countdown ∨ ∃ n, st = .delay n) :
    (∃ r, rest = .sample :: r ∧ StepsOk s r) ∨ ((∀ r, rest ≠ .sample :: r) ∧ StepsOk s rest) := by
  unfold SeqOk at h
  rw [hs] at h
  rcases hst with rfl | ⟨n, rfl⟩
  · split at h <;> simp_all
  · split at h <;> simp_all [StepsOk, SeqStep.Legal]

/-- Each row of a checked rectangle lies in FB (41_panel_protocol.md R180). -/
theorem rowPayload_legal {c : Config} {r : Rect} {k : Nat} (hc : c.WellFormed) (h : rectCheck c r = .ok)
    (hk : (k : Int) < r.height) :
    (Payload.fbData (r.rowBase c k) r.rowLen).Legal c := by
  obtain ⟨hrb, hh, hw, hfb⟩ := cfg_facts hc
  unfold rectCheck at h
  split at h
  · cases h
  split at h
  · cases h
  split at h
  · cases h
  rename_i h1 h2 h3
  unfold Rect.Malformed at h1
  unfold Rect.OutOfBounds at h2
  simp only [Rect.rowBase, Rect.rowLen, Rect.width, Rect.height, Rect.xs8, Rect.xe8, floor8, ceil8, Payload.Legal] at *
  push Not at h1 h2
  obtain ⟨a1, a2, a3, a4, a5, a6⟩ := h1
  obtain ⟨b1, b2, -, -⟩ := h2
  have hle : r.xs / 8 < (r.xe + 7) / 8 := by omega
  have hxe : (r.xe + 7) / 8 ≤ c.rowBytes := by omega
  have hx0 : 0 ≤ r.xs / 8 := by omega
  have hrow : r.ys + k + 1 ≤ c.height := by omega
  have hmul : (r.ys + k + 1) * (c.rowBytes : Int) ≤ c.height * c.rowBytes := Int.mul_le_mul_of_nonneg_right hrow (by omega)
  have hnn : 0 ≤ (r.ys + k) * (c.rowBytes : Int) := Int.mul_nonneg (by omega) (by omega)
  have hex : (r.ys + k + 1) * (c.rowBytes : Int) = (r.ys + k) * (c.rowBytes : Int) + c.rowBytes := by ring
  have hfb' : (c.fbBytes : Int) = c.height * c.rowBytes := by rw [hfb]; push_cast; ring
  generalize (r.ys + k) * (c.rowBytes : Int) = m at *
  generalize (c.height : Int) * c.rowBytes = q at *
  omega

/-- Between transactions, at a legal rest of the step list. -/
theorem Inv.between {s u : State} (h : Inv s) (hok : StepsOk s u.seq) (hb : u.busy = true)
    (hr : u.rstN = false → SeqStep.rst true ∈ u.seq) (hrd : u.pstate.ready = s.pstate.ready) (hw : u.wait = false)
    (hc : u.csN = true) (hk : u.sclk = false) (hp : u.phase = .csLow) (hbc : u.bitCnt ≤ 7)
    (hu : u = { s with seq := u.seq, pstate := u.pstate, wait := u.wait, rowCnt := u.rowCnt, delayCnt := u.delayCnt,
                       trace := u.trace, rstN := u.rstN, csN := u.csN, sclk := u.sclk, phase := u.phase, byteCnt := u.byteCnt,
                       bitCnt := u.bitCnt, busTime := u.busTime, dc := u.dc, mosi := u.mosi }) : Inv u := by
  have hst : StepsOk u u.seq :=
    (stepsOk_congr (by rw [hu]) (by rw [hu]) (by rw [hu]) (by rw [hu]) (by rw [hu]) (by rw [hu]) (by rw [hu]) hrd u.seq).2 hok
  have hne : u.seq ≠ [] := by intro h0; rw [h0] at hst; exact hst
  refine ⟨?_, ?_, ?_, ?_, ?_, by simp [hb, hne], by rw [inWaitIdle_of_stepsOk hst, hw], hr, seqOk_of_stepsOk hst, wires_between hc hk hp hbc⟩
  · rw [hu]; exact h.cfg
  · rw [hu]; exact h.fbWf
  · rw [hu]; exact h.listWf
  · rw [hu]; exact h.fbBound
  · rw [hu]; exact h.listBound

theorem seqOk_cons {s : State} {st : SeqStep} {rest : List SeqStep} (h : SeqOk s) (hs : s.seq = st :: rest)
    (h1 : st ≠ .fetch) (h2 : st ≠ .countdown) (h3 : st ≠ .sample) (h4 : ∀ t, st ≠ .delay t) :
    StepsOk s (st :: rest) := by
  unfold SeqOk at h
  rw [hs] at h
  split at h <;> simp_all

theorem legal_content_byte {s : State} {p : Payload} (hp : p.Legal s.cfg) (hk : s.byteCnt < p.length) :
    ∃ x, payloadByte s p s.byteCnt = .ok x :=
  ⟨_, payloadByte_content hp hk⟩

/-- A step of the framer keeps the invariant. -/
theorem inv_txn {s t : State} {p : Payload} {rest : List SeqStep} (h : Inv s) (hs : s.seq = .txn p :: rest)
    (ht : txnStep p rest s = .next t) : Inv t := by
  have hok := seqOk_cons h.seq hs (by simp) (by simp) (by simp) (by simp)
  obtain ⟨hl, hrest⟩ := stepsOk_tail hok (by simp)
  have hb : s.busy = true := h.busy.2 (by simp [hs])
  have hw : s.wait = false := by rw [h.wait, hs]; rfl
  have hwires := h.wires
  have hsame : ∀ u : State, u = { s with csN := u.csN, sclk := u.sclk, phase := u.phase, byteCnt := u.byteCnt, trace := u.trace, bitCnt := u.bitCnt, busTime := u.busTime, dc := u.dc, mosi := u.mosi } → WiresOk u → Inv u := by
    intro u hu hwi
    have hq : SeqOk u := seqOk_congr (by rw [hu]) (by rw [hu]) (by rw [hu]) (by rw [hu]) (by rw [hu]) (by rw [hu]) (by rw [hu]) (by rw [hu]) (by rw [hu]) h.seq
    obtain ⟨a1, a2, a3, a4, a5, a6, a7, a8, a9, a10⟩ := h
    refine ⟨?_, ?_, ?_, ?_, ?_, ?_, ?_, ?_, hq, hwi⟩ <;> rw [hu] <;> assumption
  have hpb : ∀ u : State, u = { s with csN := u.csN, sclk := u.sclk, phase := u.phase, byteCnt := u.byteCnt, trace := u.trace, bitCnt := u.bitCnt, busTime := u.busTime, dc := u.dc, mosi := u.mosi } → ∀ p k, payloadByte u p k = payloadByte s p k := by
    intro u hu p k
    exact payloadByte_congr p k (by rw [hu]) (by rw [hu]) (by rw [hu]) (by rw [hu])
  have hpos := Legal.length_pos hl.1
  obtain ⟨w1, w2, w3, w4, w5, w6, w7⟩ := hwires
  have inside : s.phase ∈ [FramePhase.dcSet, .mosi, .rise, .fall] → s.byteCnt < p.length := fun hph => w4 p rest hs hph
  unfold txnStep at ht
  split at ht <;> rename_i hph
  · cases ht
    refine hsame _ rfl ⟨by simp, ?_, fun _ => ⟨p, rest, hs⟩, ?_, w5, by simp, by simp⟩
    · have := w2; rw [hph] at this; simpa using this
    · intro p' rest' hs' _; rw [hs] at hs'; cases hs'; exact hpos
  · have hin := inside (by simp [hph])
    split at ht <;> rename_i x hx <;> cases ht
    refine hsame _ rfl ⟨?_, ?_, fun _ => ⟨p, rest, hs⟩, ?_, by simp, ?_, by simp⟩
    · have := w1; rw [hph] at this; simpa using this
    · have := w2; rw [hph] at this; simpa using this
    · intro p' rest' hs' _; rw [hs] at hs'; cases hs'; exact hin
    · intro p' rest' hs' _; rw [hs] at hs'; cases hs'; exact ⟨x.2, by rw [hpb _ rfl]; exact hx⟩
  · have hin := inside (by simp [hph])
    obtain ⟨b, hb'⟩ := w6 p rest hs (by simp [hph])
    split at ht <;> rename_i x hx <;> cases ht
    rw [hx] at hb'; cases hb'
    refine hsame _ rfl ⟨?_, ?_, fun _ => ⟨p, rest, hs⟩, ?_, w5, ?_, ?_⟩
    · have := w1; rw [hph] at this; simpa using this
    · have := w2; rw [hph] at this; simpa using this
    · intro p' rest' hs' _; rw [hs] at hs'; cases hs'; exact hin
    · intro p' rest' hs' _; rw [hs] at hs'; cases hs'; exact ⟨b, by rw [hpb _ rfl]; exact hx⟩
    · intro p' rest' hs' _; rw [hs] at hs'; cases hs'; exact ⟨b, by rw [hpb _ rfl]; exact hx, rfl⟩
  · have hin := inside (by simp [hph])
    cases ht
    obtain ⟨b, hb', hm⟩ := w7 p rest hs (by simp [hph])
    refine hsame _ rfl ⟨?_, by simp, fun _ => ⟨p, rest, hs⟩, ?_, w5, ?_, ?_⟩
    · have := w1; rw [hph] at this; simpa using this
    · intro p' rest' hs' _; rw [hs] at hs'; cases hs'; exact hin
    · intro p' rest' hs' _; rw [hs] at hs'; cases hs'; exact ⟨b, by rw [hpb _ rfl]; exact hb'⟩
    · intro p' rest' hs' _; rw [hs] at hs'; cases hs'; exact ⟨b, by rw [hpb _ rfl]; exact hb', hm⟩
  · have hin := inside (by simp [hph])
    split at ht
    · split at ht <;> rename_i x hx <;> cases ht
      by_cases hlast : s.byteCnt + 1 < p.length
      · refine hsame _ rfl ⟨?_, by simp [hlast], fun _ => ⟨p, rest, hs⟩, ?_, w5, by simp [hlast], by simp [hlast]⟩
        · have := w1; rw [hph] at this; simpa [hlast] using this
        · intro p' rest' hs' _; rw [hs] at hs'; cases hs'; exact hlast
      · refine hsame _ rfl ⟨?_, by simp [hlast], fun _ => ⟨p, rest, hs⟩, by simp [hlast], w5, by simp [hlast], by simp [hlast]⟩
        · have := w1; rw [hph] at this; simpa [hlast] using this
    · cases ht
      obtain ⟨b, hb', hm⟩ := w7 p rest hs (by simp [hph])
      refine hsame _ rfl ⟨?_, by simp, fun _ => ⟨p, rest, hs⟩, ?_, by simp only []; omega, ?_, by simp⟩
      · have := w1; rw [hph] at this; simpa using this
      · intro p' rest' hs' _; rw [hs] at hs'; cases hs'; exact hin
      · intro p' rest' hs' _; rw [hs] at hs'; cases hs'; exact ⟨b, by rw [hpb _ rfl]; exact hb'⟩
  · cases ht
    refine hsame _ rfl ⟨?_, ?_, fun _ => ⟨p, rest, hs⟩, by simp, w5, by simp, by simp⟩
    · have := w1; rw [hph] at this; simpa using this
    · have := w2; rw [hph] at this; simpa using this
  · cases ht
    refine h.between hrest hb ?_ rfl hw rfl ?_ rfl w5 rfl
    · intro hr; have := h.rstN hr; simpa [hs] using this
    · have := w2; rw [hph] at this; simpa using this

/-- A sequencer step keeps the invariant. -/
theorem inv_sequence {s t : State} (h : Inv s) (ht : s.sequence exec = .next t) : Inv t := by
  cases hs : s.seq with
  | nil => rw [sequence_idle hs] at ht; cases ht; exact h
  | cons st rest =>
  have hb : s.busy = true := h.busy.2 (by simp [hs])
  cases st with
  | txn p => rw [sequence_txn hs] at ht; exact inv_txn h hs ht
  | fetch =>
    have hph := h.phase (by simp [hs])
    have hhigh := h.wires.high hph
    have hrest : rest = [] := by
      have := h.seq
      unfold SeqOk at this
      rw [hs] at this
      split at this <;> simp_all [StepsOk, SeqStep.Legal]
    subst hrest
    have hw : s.wait = false := by rw [h.wait, hs]; rfl
    have hr : s.rstN = true := by
      by_contra hr
      have := h.rstN (by simpa using hr)
      simp [hs] at this
    have hidle : ∀ u : State, Memory.wf u.fb → (∀ c ∈ u.fb, c.1 < s.cfg.fbBytes) → u.seq = [] → u.busy = false → u = { s with seq := u.seq, busy := u.busy, err := u.err, fb := u.fb, result := u.result } → Inv u := by
      intro u h1 h2 h3 h4 hu
      refine Inv.idle ?_ h1 ?_ ?_ ?_ h4 h3 ?_ ?_ ?_ ?_ ?_ ?_ <;> (try rw [hu])
      · exact h.cfg
      · exact h.listWf
      · exact h2
      · exact h.listBound
      · exact hw
      · exact hr
      · exact hhigh.1
      · exact hhigh.2
      · exact hph
      · exact h.wires.bitCnt
    cases hd : decodeCmd s.latchedWord with
    | error r => rw [sequence_fetch_reserved hs hd] at ht; cases ht; exact hidle _ h.fbWf h.fbBound rfl rfl rfl
    | ok i =>
      rw [sequence_fetch hs hd] at ht
      have hd' : decodeOp s.op s.imm = .ok i := by simpa [State.latchedWord] using hd
      by_cases hne : t.seq = []
      · rcases exec_cases i { s with seq := [] } with ⟨e, he, h'⟩ | ⟨hl, h'⟩ | ⟨c, ps, h'⟩ | ⟨col, -, h'⟩ | ⟨col, -, h'⟩ | ⟨v, -, h'⟩ <;> rw [h'] at ht <;> cases ht
        · exact hidle _ h.fbWf h.fbBound rfl rfl rfl
        · exact absurd hne hl
        · cases hne
        · refine hidle _ ?_ ?_ rfl rfl rfl
          · show Memory.wf (State.fbAfterSetPixel _ _)
            unfold State.fbAfterSetPixel; split
            · exact write_wf h.fbWf _ _
            · exact h.fbWf
          · show ∀ c ∈ (State.fbAfterSetPixel _ _), _
            unfold State.fbAfterSetPixel; split
            · rename_i hin
              refine write_bound h.fbBound ?_
              exact pixelByte_lt h.cfg hin
            · exact h.fbBound
        · refine hidle _ ?_ ?_ rfl rfl rfl
          · exact fill_wf h.fbWf _ _
          · exact fill_bound h.fbBound le_rfl
        · exact hidle _ h.fbWf h.fbBound rfl rfl rfl
      · obtain ⟨he, hok⟩ := loaded_ok (s := { s with seq := [] }) h.cfg hd' ht hne
        rw [he] at hok ⊢
        refine h.between (u := State.load t.seq _) ?_ hb ?_ rfl hw hhigh.1 hhigh.2 rfl h.wires.bitCnt rfl
        · exact (stepsOk_congr (s := s) (t := State.load t.seq { s with seq := [] }) rfl rfl rfl rfl rfl rfl rfl rfl _).1 hok
        · simp [hr]
  | panel c =>
    have hph := h.phase (by simp [hs])
    have hhigh := h.wires.high hph
    obtain ⟨⟨i, hi⟩, hrest⟩ := stepsOk_tail (seqOk_cons h.seq hs (by simp) (by simp) (by simp) (by simp)) (by simp)
    have hw : s.wait = false := by rw [h.wait, hs]; rfl
    rw [sequence_panel hs hi] at ht
    obtain ⟨ps, hps⟩ := exec_panel hi { s with seq := rest }
    rw [hps] at ht
    cases ht
    refine h.between (u := State.issue c ps _) ?_ hb ?_ rfl hw hhigh.1 hhigh.2 rfl h.wires.bitCnt rfl
    · refine ⟨⟨by simp [Payload.Legal], .inr ?_⟩, hrest⟩
      intro x hx hx1
      simp at hx
      rcases hx with rfl | ⟨b, _, rfl⟩
      · exact ⟨i, hi⟩
      · cases hx1
    · intro hr; have := h.rstN hr; simpa [hs] using this
  | rst v =>
    have hph := h.phase (by simp [hs])
    have hhigh := h.wires.high hph
    have hok := (seqOk_cons h.seq hs (by simp) (by simp) (by simp) (by simp))
    have hw : s.wait = false := by rw [h.wait, hs]; rfl
    rw [sequence_rst hs] at ht
    cases ht
    refine h.between (stepsOk_tail hok (by simp)).2 hb ?_ rfl hw hhigh.1 hhigh.2 hph h.wires.bitCnt rfl
    intro hv
    simp only [] at hv
    subst hv
    exact hok.2.1
  | delay n =>
    have hph := h.phase (by simp [hs])
    have hhigh := h.wires.high hph
    rw [sequence_delay hs] at ht
    cases ht
    rcases seqOk_delay h.seq hs (.inr ⟨n, rfl⟩) with ⟨r, rfl, hr⟩ | ⟨hr, hok⟩
    · refine ⟨h.cfg, h.fbWf, h.listWf, h.fbBound, h.listBound, by simp [hb], ?_, ?_, ?_, wires_between hhigh.1 hhigh.2 hph h.wires.bitCnt⟩
      · have := h.wait; rw [hs] at this; exact this
      · intro h'; have := h.rstN h'; simpa [hs] using this
      · exact (stepsOk_congr (by rfl) (by rfl) (by rfl) (by rfl) (by rfl) (by rfl) (by rfl) (by rfl) r).2 hr
    · refine ⟨h.cfg, h.fbWf, h.listWf, h.fbBound, h.listBound, by simp [hb], ?_, ?_, ?_, wires_between hhigh.1 hhigh.2 hph h.wires.bitCnt⟩
      · have := h.wait; rw [hs] at this; rw [show State.wait _ = s.wait from rfl, this]
        cases rest with
        | nil => rfl
        | cons a b => cases a <;> rfl
      · intro h'; have := h.rstN h'; simpa [hs] using this
      · have hok' := (stepsOk_congr (t := { s with trace := s.trace ++ [TraceEvent.delay n], delayCnt := n, seq := .countdown :: rest }) (by rfl) (by rfl) (by rfl) (by rfl) (by rfl) (by rfl) (by rfl) (by rfl) rest).2 hok
        unfold SeqOk
        split <;> simp_all
  | countdown =>
    have hph := h.phase (by simp [hs])
    have hhigh := h.wires.high hph
    rw [sequence_countdown hs] at ht
    cases ht
    unfold countdownStep
    split
    · rcases seqOk_delay h.seq hs (.inl rfl) with ⟨r, rfl, hr⟩ | ⟨hr, hok⟩
      · refine ⟨h.cfg, h.fbWf, h.listWf, h.fbBound, h.listBound, by simp [hb], ?_, ?_, ?_, wires_between hhigh.1 hhigh.2 hph h.wires.bitCnt⟩
        · have := h.wait; rw [hs] at this; exact this
        · intro h'; have := h.rstN h'; simpa [hs] using this
        · exact (stepsOk_congr (by rfl) (by rfl) (by rfl) (by rfl) (by rfl) (by rfl) (by rfl) (by rfl) r).2 hr
      · have hw : s.wait = false := by
          rw [h.wait, hs]
          cases rest with
          | nil => rfl
          | cons a b => cases a <;> first | rfl | exact absurd rfl (hr b)
        refine h.between hok hb ?_ rfl hw hhigh.1 hhigh.2 hph h.wires.bitCnt rfl
        intro h'; have := h.rstN h'; simpa [hs] using this
    · exact h.congr rfl
  | waitIdle =>
    have hph := h.phase (by simp [hs])
    have hhigh := h.wires.high hph
    have hok := (seqOk_cons h.seq hs (by simp) (by simp) (by simp) (by simp))
    rw [sequence_waitIdle hs] at ht
    cases ht
    refine ⟨h.cfg, h.fbWf, h.listWf, h.fbBound, h.listBound, by simp [hb], rfl, ?_, ?_, wires_between hhigh.1 hhigh.2 hph h.wires.bitCnt⟩
    · intro h'; have := h.rstN h'; simpa [hs] using this
    · exact (stepsOk_congr (by rfl) (by rfl) (by rfl) (by rfl) (by rfl) (by rfl) (by rfl) (by rfl) rest).2 (stepsOk_tail hok (by simp)).2
  | sample =>
    have hph := h.phase (by simp [hs])
    have hhigh := h.wires.high hph
    rw [sequence_sample hs] at ht
    cases ht
    have hok : StepsOk s rest := by
      have := h.seq
      unfold SeqOk at this
      rw [hs] at this
      exact this
    unfold sampleStep
    split
    · refine ⟨h.cfg, h.fbWf, h.listWf, h.fbBound, h.listBound, by simp [hb], ?_, ?_, ?_, wires_between hhigh.1 hhigh.2 hph h.wires.bitCnt⟩
      · have := h.wait; rw [hs] at this; exact this
      · intro h'; have := h.rstN h'; simpa [hs] using this
      · exact (stepsOk_congr (by rfl) (by rfl) (by rfl) (by rfl) (by rfl) (by rfl) (by rfl) (by rfl) rest).2 hok
    · refine h.between hok hb ?_ rfl rfl hhigh.1 hhigh.2 hph h.wires.bitCnt rfl
      intro h'; have := h.rstN h'; simpa [hs] using this
  | rowLoop =>
    have hph := h.phase (by simp [hs])
    have hhigh := h.wires.high hph
    have hok := (seqOk_cons h.seq hs (by simp) (by simp) (by simp) (by simp))
    have hw : s.wait = false := by rw [h.wait, hs]; rfl
    obtain ⟨⟨hop, hrc⟩, hrest⟩ := stepsOk_tail hok (by simp)
    rw [sequence_rowLoop hs] at ht
    cases ht
    have hr : s.rstN = false → SeqStep.rst true ∈ rest := by intro hr; have := h.rstN hr; simpa [hs] using this
    unfold rowLoopStep
    split
    · rename_i hlt
      refine h.between ⟨⟨rowPayload_legal h.cfg hrc hlt, trivial⟩, hok⟩ hb ?_ rfl hw hhigh.1 hhigh.2 rfl h.wires.bitCnt rfl
      intro h'; have := hr h'; simpa using this
    · exact h.between hrest hb hr rfl hw hhigh.1 hhigh.2 hph h.wires.bitCnt rfl
  | setDisplaying =>
    have hph := h.phase (by simp [hs])
    have hhigh := h.wires.high hph
    have hok := (seqOk_cons h.seq hs (by simp) (by simp) (by simp) (by simp))
    have hw : s.wait = false := by rw [h.wait, hs]; rfl
    obtain ⟨⟨hop, hrd⟩, hrest⟩ := stepsOk_tail hok (by simp)
    rw [sequence_setDisplaying hs] at ht
    cases ht
    have hr : s.rstN = false → SeqStep.rst true ∈ rest := by intro hr; have := h.rstN hr; simpa [hs] using this
    exact h.between hrest hb hr hrd.symm hw hhigh.1 hhigh.2 hph h.wires.bitCnt rfl
  | finish f =>
    have hph := h.phase (by simp [hs])
    have hhigh := h.wires.high hph
    have hok := (seqOk_cons h.seq hs (by simp) (by simp) (by simp) (by simp))
    have hw : s.wait = false := by rw [h.wait, hs]; rfl
    have hrest : rest = [] := hok.2
    subst hrest
    have hr : s.rstN = true := by
      by_contra hr
      have := h.rstN (by simpa using hr)
      simp [hs] at this
    rw [sequence_finish hs] at ht
    cases ht
    cases f <;> exact Inv.idle h.cfg h.fbWf h.listWf h.fbBound h.listBound rfl rfl hw hr hhigh.1 hhigh.2 hph h.wires.bitCnt

end Sys2Proof.Machine
end

