-- ==== Sys2Proof/Laws/PerInstr.lean ====
section
/-! SUPPORT. The family Table: every instruction's encoding matches its own row of spec/opcode_table.json, one lemma per constructor. -/

namespace Sys2Proof.Laws.Table

/-- The row of spec/opcode_table.json of an instruction: its width in bits, `mask` and `match`. -/
def row : Instr → Nat × Nat × Nat
  | .sendCmd _ => (32, 0x000000FF, 0x00000001)
  | .sendData _ => (32, 0x000000FF, 0x00000002)
  | .sendDataList => (32, 0x000000FF, 0x00000003)
  | .sendDataBuf => (32, 0x000000FF, 0x00000004)
  | .sendCmdData _ => (32, 0x000000FF, 0x00000005)
  | .init _ => (32, 0x000000FF, 0x00000010)
  | .setFrameFull => (32, 0x000000FF, 0x00000011)
  | .setFrameRect => (32, 0x000000FF, 0x00000012)
  | .clearFrame _ => (32, 0x000000FF, 0x00000013)
  | .displayFrame => (32, 0x000000FF, 0x00000014)
  | .sleep => (32, 0x000000FF, 0x00000015)
  | .setPixel _ => (32, 0x000000FF, 0x00000020)
  | .fill _ => (32, 0x000000FF, 0x00000021)
  | .getPixel => (32, 0x000000FF, 0x00000022)
  | .getWidth => (32, 0x000000FF, 0x00000030)
  | .getHeight => (32, 0x000000FF, 0x00000031)
  | .driverOutputControl => (8, 0xFF, 0x01)
  | .boosterSoftStart => (8, 0xFF, 0x0C)
  | .dataEntryMode => (8, 0xFF, 0x11)
  | .vcom => (8, 0xFF, 0x2C)
  | .lutUpload => (8, 0xFF, 0x32)
  | .dummyLinePeriod => (8, 0xFF, 0x3A)
  | .gateTime => (8, 0xFF, 0x3B)
  | .addressWindowX => (8, 0xFF, 0x44)
  | .addressWindowY => (8, 0xFF, 0x45)
  | .cursorX => (8, 0xFF, 0x4E)
  | .cursorY => (8, 0xFF, 0x4F)
  | .activate => (8, 0xFF, 0x20)
  | .displayUpdateControl => (8, 0xFF, 0x22)
  | .writeRam => (8, 0xFF, 0x24)
  | .deepSleep => (8, 0xFF, 0x10)

/-- The width and the bits of a code unit. -/
def bits : CodeUnit → Nat × Nat
  | .cmdWord w => (32, w.toNat)
  | .panelByte b => (8, b.toNat)

/-- The instruction's encoding has its row's width, and its bits under the row's mask are the row's match. -/
def Statement (i : Instr) : Prop :=
  (bits (encode i)).1 = (row i).1 ∧ (bits (encode i)).2 &&& (row i).2.1 = (row i).2.2

/-- OP is the low byte of a CMD word (30_encoding.md R100). -/
theorem cmdWordOf_and_mask (op imm : Byte) : (cmdWordOf op imm).toNat &&& 0xFF = op.toNat := by
  have h : (cmdWordOf op imm).toNat % 2 ^ 8 = op.toNat := by
    rw [← BitVec.toNat_setWidth]
    congr 1
    apply BitVec.eq_of_getLsbD_eq
    intro i hi
    rw [BitVec.getLsbD_setWidth, getLsbD_cmdWordOf]
    simp [hi]
  rw [← h, ← Nat.and_two_pow_sub_one_eq_mod]

theorem sendCmd (c : Byte) : Statement (.sendCmd c) := ⟨rfl, cmdWordOf_and_mask _ _⟩
theorem sendData (d : Byte) : Statement (.sendData d) := ⟨rfl, cmdWordOf_and_mask _ _⟩
theorem sendDataList : Statement .sendDataList := ⟨rfl, cmdWordOf_and_mask _ _⟩
theorem sendDataBuf : Statement .sendDataBuf := ⟨rfl, cmdWordOf_and_mask _ _⟩
theorem sendCmdData (c : Byte) : Statement (.sendCmdData c) := ⟨rfl, cmdWordOf_and_mask _ _⟩
theorem init (p : Mode) : Statement (.init p) := ⟨rfl, cmdWordOf_and_mask _ _⟩
theorem setFrameFull : Statement .setFrameFull := ⟨rfl, cmdWordOf_and_mask _ _⟩
theorem setFrameRect : Statement .setFrameRect := ⟨rfl, cmdWordOf_and_mask _ _⟩
theorem clearFrame (col : Colour) : Statement (.clearFrame col) := ⟨rfl, cmdWordOf_and_mask _ _⟩
theorem displayFrame : Statement .displayFrame := ⟨rfl, cmdWordOf_and_mask _ _⟩
theorem sleep : Statement .sleep := ⟨rfl, cmdWordOf_and_mask _ _⟩
theorem setPixel (col : Colour) : Statement (.setPixel col) := ⟨rfl, cmdWordOf_and_mask _ _⟩
theorem fill (col : Colour) : Statement (.fill col) := ⟨rfl, cmdWordOf_and_mask _ _⟩
theorem getPixel : Statement .getPixel := ⟨rfl, cmdWordOf_and_mask _ _⟩
theorem getWidth : Statement .getWidth := ⟨rfl, cmdWordOf_and_mask _ _⟩
theorem getHeight : Statement .getHeight := ⟨rfl, cmdWordOf_and_mask _ _⟩
theorem driverOutputControl : Statement .driverOutputControl := ⟨rfl, rfl⟩
theorem boosterSoftStart : Statement .boosterSoftStart := ⟨rfl, rfl⟩
theorem dataEntryMode : Statement .dataEntryMode := ⟨rfl, rfl⟩
theorem vcom : Statement .vcom := ⟨rfl, rfl⟩
theorem lutUpload : Statement .lutUpload := ⟨rfl, rfl⟩
theorem dummyLinePeriod : Statement .dummyLinePeriod := ⟨rfl, rfl⟩
theorem gateTime : Statement .gateTime := ⟨rfl, rfl⟩
theorem addressWindowX : Statement .addressWindowX := ⟨rfl, rfl⟩
theorem addressWindowY : Statement .addressWindowY := ⟨rfl, rfl⟩
theorem cursorX : Statement .cursorX := ⟨rfl, rfl⟩
theorem cursorY : Statement .cursorY := ⟨rfl, rfl⟩
theorem activate : Statement .activate := ⟨rfl, rfl⟩
theorem displayUpdateControl : Statement .displayUpdateControl := ⟨rfl, rfl⟩
theorem writeRam : Statement .writeRam := ⟨rfl, rfl⟩
theorem deepSleep : Statement .deepSleep := ⟨rfl, rfl⟩

end Sys2Proof.Laws.Table
end

