-- ==== Sys2Proof/Laws/Port.lean ====
section
/-! SUPPORT. The host port: the register map by word number (10_state.md R31), what a host write can change, the host's polls, and the kinds of step. -/

namespace Sys2Proof.Machine

/-! ## The register map -/

/-- The register map by word number. -/
theorem target_of {a : Half} :
    (a.toNat / 4 = 0 → target a = .geom) ∧ (a.toNat / 4 = 1 → target a = .status) ∧
    (a.toNat / 4 = 2 → target a = .cmd) ∧ (a.toNat / 4 = 3 → target a = .result) ∧
    (a.toNat / 4 = 4 → target a = .arg0) ∧ (a.toNat / 4 = 5 → target a = .arg1) ∧
    (a.toNat / 4 = 6 → target a = .arg2) ∧ (a.toNat / 4 = 7 → target a = .arg3) ∧
    (∀ i, i < 64 → a.toNat / 4 = 0x40 + i → target a = .list i) ∧
    (∀ i, a.toNat / 4 = 0x2000 + i → target a = .fbwin i) ∧
    ((8 ≤ a.toNat / 4 ∧ a.toNat / 4 < 0x40) ∨ (0x7F < a.toNat / 4 ∧ a.toNat / 4 < 0x2000) →
      target a = .unmapped) := by
  unfold target
  refine ⟨?_, ?_, ?_, ?_, ?_, ?_, ?_, ?_, ?_, ?_, ?_⟩
  · intro h; simp [h]
  · intro h; simp [h]
  · intro h; simp [h]
  · intro h; simp [h]
  · intro h; simp [h]
  · intro h; simp [h]
  · intro h; simp [h]
  · intro h; simp [h]
  · intro i hi h
    simp only [h]
    repeat (rw [if_neg (by omega)])
    rw [if_pos (by omega)]; congr 1; omega
  · intro i h
    simp only [h]
    repeat (rw [if_neg (by omega)])
    rw [if_pos (by norm_num)]; exact congrArg Target.fbwin (by norm_num)
  · intro h
    simp only []
    (repeat' split) <;> first | rfl | omega

/-! ## Writes -/

/-- The fields a host write can change. -/
theorem hostWrite_frame (s : State) (a : Half) (v : Word) :
    ∃ t, s.hostWrite a v = t ∧
      t = { s with ovr := t.ovr, arg0 := t.arg0, arg1 := t.arg1, arg2 := t.arg2, arg3 := t.arg3, list := t.list,
                   op := t.op, imm := t.imm, busy := t.busy, seq := t.seq } := by
  refine ⟨_, rfl, ?_⟩
  unfold State.hostWrite State.writeTarget State.refusedIfBusy State.acceptCmd
  split <;> (try split) <;> rfl

/-- A host write while BUSY = 1 can change OVR alone (10_state.md R39). -/
theorem hostWrite_busy {s : State} (hb : s.busy = true) (a : Half) (v : Word) :
    s.hostWrite a v = { s with ovr := (s.hostWrite a v).ovr } := by
  unfold State.hostWrite State.writeTarget
  have h : ∀ u, s.refusedIfBusy u = { s with ovr := true } := fun u => by simp [State.refusedIfBusy, hb]
  split <;> (try rw [h]) <;> (try split) <;> rfl

/-! ## Polls -/

/-- A poll changes what a host read changes, and the schedule. -/
theorem hostPoll_frame (s : State) (a : Half) :
    s.hostPoll a = { s.hostRead a with inputs := (s.hostPoll a).inputs } := rfl

/-- A poll that reads bit 0 = 0 is a host read. -/
theorem hostPoll_clear {s : State} {a : Half} (h : (s.readWord (target a)).getLsbD 0 = false) :
    s.hostPoll a = s.hostRead a := by
  unfold State.hostPoll; rw [h]; rfl

/-- Bit 0 of STATUS is BUSY (10_state.md R33). -/
theorem statusWord_bit0 (s : State) : s.statusWord.getLsbD 0 = s.busy := by
  simp only [State.statusWord]
  cases s.busyIn <;> cases s.ovr <;> cases s.err <;> cases s.wait <;> cases s.mode <;> cases s.pstate <;> cases s.busy <;>
    rfl

/-- A poll of STATUS while BUSY = 1: the schedule goes on to one more move and the next poll. -/
theorem step_poll_busy {s : State} {more : List Input} (hi : s.inputs = .hostPoll 0x0004 :: more) (hb : s.busy = true) :
    step s = .next { s with inputs := afterPoll 0x0004 more, reads := s.reads ++ [(0x0004, s.statusWord)] } := by
  rw [step_input hi]
  have ht : target 0x0004 = .status := by decide
  have h0 : ({ s with inputs := more } : State).statusWord.getLsbD 0 = true := (statusWord_bit0 _).trans hb
  simp only [State.input, State.hostPoll, ht, State.readWord, State.hostRead, Target.isFbwin]
  rw [h0]; rfl

/-- A poll of STATUS while BUSY = 0 ends the WAIT. -/
theorem step_poll_idle {s : State} {more : List Input} (hi : s.inputs = .hostPoll 0x0004 :: more) (hb : s.busy = false) :
    step s = .next { s with inputs := more, reads := s.reads ++ [(0x0004, s.statusWord)] } := by
  rw [step_input hi]
  have ht : target 0x0004 = .status := by decide
  have h0 : ({ s with inputs := more } : State).statusWord.getLsbD 0 = false := (statusWord_bit0 _).trans hb
  simp only [State.input, State.hostPoll, ht, State.readWord, State.hostRead, Target.isFbwin]
  rw [h0]; rfl

/-! ## Steps -/

/-- The six kinds of step: the sequencer's, and one for each input of the environment. -/
theorem step_cases {s t : State} (ht : step s = .next t) :
    (∃ more, (s.inputs = [] ∧ more = [] ∨ s.inputs = .seqStep :: more) ∧
      ({ s with inputs := more } : State).sequence exec = .next t) ∨
    (∃ a more, s.inputs = .hostRead a :: more ∧ t = ({ s with inputs := more } : State).hostRead a) ∨
    (∃ a v more, s.inputs = .hostWrite a v :: more ∧ t = ({ s with inputs := more } : State).hostWrite a v) ∨
    (∃ a more, s.inputs = .hostPoll a :: more ∧ t = ({ s with inputs := more } : State).hostPoll a) ∨
    (∃ v more, s.inputs = .panelBusy v :: more ∧ t = { s with inputs := more, busyIn := v }) ∨
    (∃ more, s.inputs = .blockReset :: more ∧ t = ({ s with inputs := more } : State).blockReset) := by
  unfold step State.stepWith at ht
  split at ht
  · rename_i h
    left; refine ⟨[], .inl ⟨h, rfl⟩, ?_⟩
    cases s; simp_all
  · rename_i i rest hi
    cases i with
    | hostRead a => cases ht; right; left; exact ⟨a, rest, hi, rfl⟩
    | hostWrite a v => cases ht; right; right; left; exact ⟨a, v, rest, hi, rfl⟩
    | hostPoll a => cases ht; right; right; right; left; exact ⟨a, rest, hi, rfl⟩
    | panelBusy v => cases ht; right; right; right; right; left; exact ⟨v, rest, hi, rfl⟩
    | blockReset => cases ht; right; right; right; right; right; exact ⟨rest, hi, rfl⟩
    | seqStep => left; exact ⟨rest, .inr hi, ht⟩

end Sys2Proof.Machine
end

