-- ==== Sys2Proof/Tests/Slice0.lean ====
section
/-! SUPPORT. Tests. Expected values are the spec's: its encoding tables (30_encoding.md R100, R105, R110), its test vectors (95_test_vectors.md, named at each test), and the rules. Then one witness for every statement that has hypotheses: a state and operands that meet all of them. -/

namespace Sys2Proof.Tests

open Host (Outcome)
open Sys2Proof.Machine

/-! ## Helpers -/

/-- Just after power-on at the reference geometry, BUSY input = 0. -/
def ref : State := State.resetWith Config.reference false

/-- A field of the next state. -/
def got {α : Type} (f : State → α) : Outcome State Fault Refusal → Option α
  | .next t => some (f t)
  | .fault _ => none
  | .refused _ => none

/-- `ref` INITIALIZED(0) with the four argument registers, SET_FRAME_RECT running. -/
def rectState (a0 a1 a2 a3 : Half) : State :=
  { ref with pstate := .initialized, op := 0x12, arg0 := a0, arg1 := a1, arg2 := a2, arg3 := a3, busy := true }

/-- `ref` with a CMD word accepted. -/
def fetched (w : Word) : State := ref.acceptCmd w

/-- `ref` with one input scheduled. -/
def withInput (i : Input) (s : State) : State := { s with inputs := [i] }

/-- The LUT-independent part of the reference configuration at 8 x 2 pixels: 2 bytes of FB. -/
def small : State := { State.resetWith { Config.reference with width := 8, height := 2 } false with fb := [(0, 0xFF)] }

/-! ## WellFormed: one ill-formed term for each check -/

theorem test_reference_wellFormed : Config.reference.WellFormed := by decide

theorem test_width_multiple_of_8 : ¬({ Config.reference with width := 12 } : Config).WellFormed := by decide

theorem test_width_not_zero : ¬({ Config.reference with width := 0 } : Config).WellFormed := by decide

theorem test_width_at_most_2040 : ¬({ Config.reference with width := 2048, height := 8 } : Config).WellFormed := by
  decide

theorem test_height_not_zero : ¬({ Config.reference with height := 0 } : Config).WellFormed := by decide

theorem test_height_one_byte : ¬({ Config.reference with height := 257, yAddrBytes := .one } : Config).WellFormed := by
  decide

theorem test_height_int16 : ¬({ Config.reference with width := 8, height := 32768 } : Config).WellFormed := by decide

theorem test_fb_fits_window : ¬({ Config.reference with width := 8, height := 8193 } : Config).WellFormed := by decide

theorem test_luts_differ :
    ¬({ Config.reference with lutPartial := Config.reference.lutFull } : Config).WellFormed := by decide

theorem test_lut_full_length : ¬({ Config.reference with lutFull := [1] } : Config).WellFormed := by decide

theorem test_lut_partial_length : ¬({ Config.reference with lutPartial := [1] } : Config).WellFormed := by decide

theorem test_reset_assert_time : ¬({ Config.reference with tRstAssert := 99 } : Config).WellFormed := by decide

theorem test_reset_release_time : ¬({ Config.reference with tRstRelease := 99 } : Config).WellFormed := by decide

theorem test_poll_time : ¬({ Config.reference with tPoll := 0 } : Config).WellFormed := by decide

theorem test_sclk_div : ¬({ Config.reference with sclkDiv := 0 } : Config).WellFormed := by decide

theorem test_list_index : ¬(Pseudo.list 64 0).WellFormed := by decide

theorem test_list_count : ¬(Pseudo.sendDataList 65536).WellFormed := by decide

theorem test_buf_offset : ¬(Pseudo.sendDataBuf 65536 0).WellFormed := by decide

theorem test_buf_length : ¬(Pseudo.sendDataBuf 0 65536).WellFormed := by decide

theorem test_param_count : ¬(Pseudo.sendCmdData 0x44 65536).WellFormed := by decide

theorem test_rect_coordinates :
    ¬(Pseudo.setFrameRect 32768 0 0 0).WellFormed ∧ ¬(Pseudo.setFrameRect 0 (-32769) 0 0).WellFormed ∧
    ¬(Pseudo.setFrameRect 0 0 32768 0).WellFormed ∧ ¬(Pseudo.setFrameRect 0 0 0 (-32769)).WellFormed := by decide

theorem test_pixel_coordinates :
    ¬(Pseudo.setPixel 32768 0 .black).WellFormed ∧ ¬(Pseudo.setPixel 0 32768 .black).WellFormed ∧
    ¬(Pseudo.getPixel (-32769) 0).WellFormed ∧ ¬(Pseudo.getPixel 0 (-32769)).WellFormed := by decide

/-! ## Decode: one word of each row, bit by bit from R100, R105 and R110 (31:16 ignored, 15:8 IMM, 7:0 OP) -/

theorem test_decode_sendCmd : decodeTableWord 32 0b00000000000000000010000000000001 = some (.sendCmd 0x20) := by decide
theorem test_decode_sendData : decodeTableWord 32 0b10101011110011010000000000000010 = some (.sendData 0) := by decide
theorem test_decode_sendDataList : decodeTableWord 32 0b00000000000000001111111100000011 = some .sendDataList := by
  decide
theorem test_decode_sendDataBuf : decodeTableWord 32 0b00000000000000000000000000000100 = some .sendDataBuf := by decide
theorem test_decode_sendCmdData : decodeTableWord 32 0b00000000000000000100010000000101 = some (.sendCmdData 0x44) := by
  decide
theorem test_decode_init_full : decodeTableWord 32 0b00000000000000001111111000010000 = some (.init .fullRefresh) := by
  decide
theorem test_decode_init_partial :
    decodeTableWord 32 0b00000000000000000000000100010000 = some (.init .partialRefresh) := by decide
theorem test_decode_setFrameFull : decodeTableWord 32 0b00000000000000000000000000010001 = some .setFrameFull := by
  decide
theorem test_decode_setFrameRect : decodeTableWord 32 0b00000000000000000000000000010010 = some .setFrameRect := by
  decide
theorem test_decode_clearFrame_black :
    decodeTableWord 32 0b00000000000000001111111000010011 = some (.clearFrame .black) := by decide
theorem test_decode_clearFrame_white :
    decodeTableWord 32 0b00000000000000000000000100010011 = some (.clearFrame .white) := by decide
theorem test_decode_displayFrame : decodeTableWord 32 0b00000000000000000000000000010100 = some .displayFrame := by
  decide
theorem test_decode_sleep : decodeTableWord 32 0b00000000000000000000000000010101 = some .sleep := by decide
theorem test_decode_setPixel_white : decodeTableWord 32 0b00000000000000000000000100100000 = some (.setPixel .white) := by
  decide
theorem test_decode_setPixel_black : decodeTableWord 32 0b00000000000000001111111000100000 = some (.setPixel .black) := by
  decide
theorem test_decode_fill : decodeTableWord 32 0b00000000000000000000000100100001 = some (.fill .white) := by decide
theorem test_decode_getPixel : decodeTableWord 32 0b00000000000000000000000000100010 = some .getPixel := by decide
theorem test_decode_getWidth : decodeTableWord 32 0b00000000000000000000000000110000 = some .getWidth := by decide
theorem test_decode_getHeight : decodeTableWord 32 0b00000000000000000000000000110001 = some .getHeight := by decide
theorem test_decode_driverOutputControl : decodeTableWord 8 0b00000001 = some .driverOutputControl := by decide
theorem test_decode_boosterSoftStart : decodeTableWord 8 0b00001100 = some .boosterSoftStart := by decide
theorem test_decode_dataEntryMode : decodeTableWord 8 0b00010001 = some .dataEntryMode := by decide
theorem test_decode_vcom : decodeTableWord 8 0b00101100 = some .vcom := by decide
theorem test_decode_lutUpload : decodeTableWord 8 0b00110010 = some .lutUpload := by decide
theorem test_decode_dummyLinePeriod : decodeTableWord 8 0b00111010 = some .dummyLinePeriod := by decide
theorem test_decode_gateTime : decodeTableWord 8 0b00111011 = some .gateTime := by decide
theorem test_decode_addressWindowX : decodeTableWord 8 0b01000100 = some .addressWindowX := by decide
theorem test_decode_addressWindowY : decodeTableWord 8 0b01000101 = some .addressWindowY := by decide
theorem test_decode_cursorX : decodeTableWord 8 0b01001110 = some .cursorX := by decide
theorem test_decode_cursorY : decodeTableWord 8 0b01001111 = some .cursorY := by decide
theorem test_decode_activate : decodeTableWord 8 0b00100000 = some .activate := by decide
theorem test_decode_displayUpdateControl : decodeTableWord 8 0b00100010 = some .displayUpdateControl := by decide
theorem test_decode_writeRam : decodeTableWord 8 0b00100100 = some .writeRam := by decide
theorem test_decode_deepSleep : decodeTableWord 8 0b00010000 = some .deepSleep := by decide

/-- V-EN-5: the ends of the reserved OP ranges of R107. -/
theorem test_decode_reserved :
    ∀ v ∈ [0x00, 0x06, 0x0F, 0x16, 0x1F, 0x23, 0x2F, 0x32, 0xFF], decodeTableWord 32 v = none := by decide

/-- R111: a byte that is no panel command is rejected by name. -/
theorem test_decode_no_panel_command : decode (.panelByte 0x12) = .error (.notPanelCommand 0x12) := by rfl

/-- log 13: the instruction placed by `withFetchWord` is the one the next step runs. -/
theorem test_withFetchWord_runs :
    got State.seq (step (ref.withFetchWord 32 0x2001)) = some [.txn (.bytes [(false, 0x20)]), .finish .plain] ∧
    got State.seq (step (ref.withFetchWord 8 0x24)) = some [.txn (.bytes [(false, 0x24)]), .finish .plain] := by decide

/-! ## The host port -/

/-- V-EN-1. -/
theorem test_read_geom : got State.reads (step (withInput (.hostRead 0x0000) ref)) = some [(0x0000, 0x00C800C8)] := by
  decide

/-- V-EN-3. -/
theorem test_read_status_busyIn :
    got State.reads (step (withInput (.hostRead 0x0004) { ref with busyIn := true })) = some [(0x0004, 0x00020000)] := by
  decide

/-- V-PN-16: DISPLAYING, waiting on a busy panel. -/
theorem test_status_waiting :
    ({ ref with busy := true, pstate := .displaying, wait := true, busyIn := true } : State).statusWord = 0x00020025 := by
  decide

/-- V-PN-19: ASLEEP, MODE 1, NOT_INIT. -/
theorem test_status_not_init :
    ({ ref with pstate := .asleep, mode := .partialRefresh, err := .notInit } : State).statusWord = 0x00000316 := by
  decide

/-- V-EN-7. -/
theorem test_write_arg0 : got State.arg0 (step (withInput (.hostWrite 0x0010 0xFFFF8000) ref)) = some 0x8000 := by decide

/-- V-EN-9: LIST[63]. -/
theorem test_write_list : got State.list (step (withInput (.hostWrite 0x01FC 0x15A) ref)) = some [(63, 0x5A)] := by decide

/-- V-EN-11: an unmapped write. -/
theorem test_write_unmapped :
    step (withInput (.hostWrite 0x0020 0xFFFFFFFF) ref) = .next ref := by rfl

/-- V-EN-12: address bits 1:0 are ignored. -/
theorem test_read_status_misaligned :
    got State.reads (step (withInput (.hostRead 0x0006) { ref with ovr := true })) = some [(0x0006, 0x00010000)] := by
  decide

/-- V-EN-14: FBWIN past FB_BYTES. -/
theorem test_read_fbwin_past_end : got State.reads (step (withInput (.hostRead 0xFFFC) ref)) = some [(0xFFFC, 0)] := by
  decide

/-- V-EN-15: a write to FBWIN is ignored. -/
theorem test_write_fbwin :
    got State.fb (step (withInput (.hostWrite 0x8000 0) { ref with fb := [(0, 0xFB)] })) = some [(0, 0xFB)] := by decide

/-- V-EN-17: a CMD write while BUSY = 1. -/
theorem test_refused_cmd :
    got (fun t => (t.ovr, t.seq, t.op)) (step (withInput (.hostWrite 0x0008 0x2001) (fetched 0xA502))) =
      some (true, [.fetch], 0x02) := by decide

/-- V-EN-20 and V-EN-21: OVR is cleared by bit 16 alone, busy or not. -/
theorem test_clear_ovr :
    got State.ovr (step (withInput (.hostWrite 0x0004 0x0000FFFF) { ref with ovr := true })) = some true ∧
    got State.ovr (step (withInput (.hostWrite 0x0004 0x00010000) { ref with ovr := true, busy := true })) =
      some false := by decide

/-- R115: WAIT goes on once bit 0 of STATUS reads 0, and not before. -/
theorem test_wait :
    got State.inputs (step { ref with inputs := [.hostPoll 0x0004, .hostRead 0x000C] }) = some [.hostRead 0x000C] ∧
    got (fun t => (t.inputs, t.reads)) (step { fetched 0x30 with inputs := [.hostPoll 0x0004, .hostRead 0x000C] }) =
      some ([.seqStep, .hostPoll 0x0004, .hostRead 0x000C], [(0x0004, 0x00000001)]) := by decide

/-- V-EN-4: a reserved OP ends with ERR = 4. -/
theorem test_bad_op : got State.statusWord (step (fetched 0x00000000)) = some 0x00000400 := by decide

/-! ## The bus framer -/

/-- V-BF-2: the first two bits of 0xA5 on MOSI. -/
theorem test_mosi_msb_first :
    got State.mosi (step { ref with seq := [.txn (.bytes [(true, 0xA5)])], phase := .mosi, bitCnt := 7 }) = some true ∧
    got State.mosi (step { ref with seq := [.txn (.bytes [(true, 0xA5)])], phase := .mosi, bitCnt := 6 }) = some false := by
  decide

/-- V-BF-15: DC of byte 0 and byte 1 of a command with parameters. -/
theorem test_dc_per_byte :
    got State.dc (step { ref with seq := [.txn (.cmdList 0x44 2)], list := [(0, 0), (1, 0x18)], phase := .dcSet }) =
      some false ∧
    got State.dc (step { ref with seq := [.txn (.cmdList 0x44 2)], list := [(0, 0), (1, 0x18)], phase := .dcSet, byteCnt := 1,
                                  dc := false }) = some true := by decide

/-- V-BF-1. -/
theorem test_sendCmd : got State.seq (step (fetched 0x2001)) = some [.txn (.bytes [(false, 0x20)]), .finish .plain] := by
  decide

/-- V-BF-20. -/
theorem test_sendData :
    got State.seq (step (fetched 0xABCD0002)) = some [.txn (.bytes [(true, 0x00)]), .finish .plain] := by decide

/-- V-BF-5, V-BF-6: ERR = 1 for n = 0 and n = 65. -/
theorem test_sendDataList_range :
    got State.statusWord (exec .sendDataList { ref with arg0 := 0 }) = some 0x00000100 ∧
    got State.statusWord (exec .sendDataList { ref with arg0 := 65 }) = some 0x00000100 := by decide

/-- V-BF-7: n = 64 is sent. -/
theorem test_sendDataList_64 :
    got State.seq (exec .sendDataList { ref with arg0 := 64 }) = some [.txn (.listData 64), .finish .plain] := by decide

/-- V-BF-12, V-BF-13: a range that leaves FB, without wrap-around. -/
theorem test_sendDataBuf_range :
    got State.statusWord (exec .sendDataBuf { ref with arg0 := 4999, arg1 := 2 }) = some 0x00000100 ∧
    got State.statusWord (exec .sendDataBuf { ref with arg0 := 0xFFFF, arg1 := 2 }) = some 0x00000100 := by decide

/-- V-BF-11: the last byte of FB. -/
theorem test_sendDataBuf_last :
    got State.seq (exec .sendDataBuf { ref with arg0 := 4999, arg1 := 1 }) = some [.txn (.fbData 4999 1), .finish .plain] := by
  decide

/-- V-BF-17. -/
theorem test_sendCmdData_range :
    got State.statusWord (exec (.sendCmdData 0x32) { ref with arg0 := 65 }) = some 0x00000100 := by decide

/-- V-BF-16: n = 0 sends the command alone. -/
theorem test_sendCmdData_none :
    got State.seq (exec (.sendCmdData 0x22) { ref with arg0 := 0 }) = some [.txn (.cmdList 0x22 0), .finish .plain] := by
  decide

/-! ## The panel -/

/-- V-PN-1 begins with RST(0). -/
theorem test_init_first : got (fun t => t.seq.head?) (exec (.init .fullRefresh) ref) = some (some (.rst false)) := by
  decide

/-- V-PN-2: the end of INIT 1. -/
theorem test_init_end : got State.statusWord (step { ref with busy := true, seq := [.finish (.initDone .partialRefresh)] }) =
    some 0x00000012 := by decide

/-- V-PN-3. -/
theorem test_setFrameFull_not_init : got State.statusWord (exec .setFrameFull ref) = some 0x00000300 := by decide

/-- V-PN-4: the data transaction after 0x24. -/
theorem test_setFrameFull_data :
    got (fun t => t.seq.drop 5) (exec .setFrameFull { ref with pstate := .initialized }) =
      some [.panel 0x24, .txn (.fbData 0 5000), .finish .toInitialized] := by decide

/-- V-PN-8, V-PN-10, V-PN-13, V-PN-15, V-PN-27: the argument checks, in their order. -/
theorem test_setFrameRect_checks :
    got State.err (exec .setFrameRect (rectState 0 0 201 0)) = some .outOfBounds ∧
    got State.err (exec .setFrameRect (rectState 8 3 8 3)) = some .invalidArg ∧
    got State.err (exec .setFrameRect (rectState 0xFFFF 0 5 5)) = some .invalidArg ∧
    got State.err (exec .setFrameRect (rectState 5 0 4 0)) = some .invalidArg ∧
    got State.err (exec .setFrameRect (rectState 0 0 7 200)) = some .outOfBounds ∧
    got State.err (exec .setFrameRect (rectState 0xFFFF 0 5 500)) = some .invalidArg ∧
    got State.err (exec .setFrameRect (rectState 0x8000 0 5 5)) = some .invalidArg := by decide

/-- V-PN-28: the rows of SET_FRAME_RECT 3, 10, 20, 12 start at FB[250], FB[275], FB[300], three bytes each. -/
theorem test_setFrameRect_rows :
    (∀ k : Fin 3, got (fun t => t.seq.head?)
      (step { rectState 3 10 20 12 with seq := [.rowLoop, .finish .toInitialized], rowCnt := k }) =
        some (some (.txn (.fbData (250 + 25 * k) 3)))) ∧
    got State.seq (step { rectState 3 10 20 12 with seq := [.rowLoop, .finish .toInitialized], rowCnt := 3 }) =
      some [.finish .toInitialized] := by decide

/-- V-PN-12. -/
theorem test_clearFrame_data :
    got (fun t => t.seq.drop 6) (exec (.clearFrame .white) { ref with pstate := .displaying }) =
      some [.txn (.repeated 0xFF 5000), .finish .toInitialized] ∧
    got (fun t => t.seq.drop 6) (exec (.clearFrame .black) { ref with pstate := .displaying }) =
      some [.txn (.repeated 0x00 5000), .finish .toInitialized] := by decide

/-- V-PN-16. -/
theorem test_displayFrame_steps :
    got State.seq (exec .displayFrame { ref with pstate := .initialized }) =
      some [.panel 0x22, .panel 0x20, .setDisplaying, .waitIdle, .finish .plain] := by decide

/-- R166: a busy sample is followed by DELAY(T_POLL) and another sample. -/
theorem test_sample_busy :
    got (fun t => (t.trace, t.seq)) (step { ref with busyIn := true, wait := true, seq := [.sample, .finish .plain] }) =
      some ([.sample true], [.delay 1, .sample, .finish .plain]) := by decide

/-- V-PN-18: the end of SLEEP in MODE 1. -/
theorem test_sleep_end :
    got State.statusWord (step { ref with busy := true, mode := .partialRefresh, pstate := .initialized,
                                          seq := [.finish .toAsleep] }) = some 0x00000016 := by decide

/-- V-PN-20. -/
theorem test_sleep_asleep : got State.err (exec .sleep { ref with pstate := .asleep }) = some .notInit := by decide

/-- V-PN-22. -/
theorem test_getWidth : got (fun t => (t.result, t.pstate)) (exec .getWidth ref) = some (0x00C8, .uninitialized) := by
  decide

/-- V-PN-22. -/
theorem test_getHeight :
    got State.result (exec .getHeight { ref with cfg := { Config.reference with height := 100 } }) = some 100 := by decide

/-! ## The panel commands: the transaction each sends -/

/-- V-PN-1 (reference bytes). -/
theorem test_driverOutputControl : got (fun t => t.seq.head?) (exec .driverOutputControl ref) =
    some (some (.txn (.bytes [(false, 0x01), (true, 0xC7), (true, 0x00), (true, 0x00)]))) := by decide
/-- V-PN-1 (reference bytes). -/
theorem test_boosterSoftStart : got (fun t => t.seq.head?) (exec .boosterSoftStart ref) =
    some (some (.txn (.bytes [(false, 0x0C), (true, 0xD7), (true, 0xD6), (true, 0x9D)]))) := by decide
/-- V-PN-1 (reference bytes). -/
theorem test_dataEntryMode : got (fun t => t.seq.head?) (exec .dataEntryMode ref) =
    some (some (.txn (.bytes [(false, 0x11), (true, 0x03)]))) := by decide
/-- V-PN-1 (reference bytes). -/
theorem test_vcom : got (fun t => t.seq.head?) (exec .vcom ref) =
    some (some (.txn (.bytes [(false, 0x2C), (true, 0xA8)]))) := by decide
/-- R204: IMM[0] = 1 selects LUT_PARTIAL, whose first reference byte is 0x10. -/
theorem test_lutUpload_partial :
    got (fun t => t.seq.head?) (exec .lutUpload { ref with imm := 0x01 }) =
      some (some (.txn (.bytes ((false, 0x32) :: Config.reference.lutPartial.map (fun b => (true, b)))))) := by decide
/-- R204: IMM[0] = 0 selects LUT_FULL. -/
theorem test_lutUpload_full :
    got (fun t => t.seq.head?) (exec .lutUpload { ref with imm := 0xFE }) =
      some (some (.txn (.bytes ((false, 0x32) :: Config.reference.lutFull.map (fun b => (true, b)))))) := by decide
/-- V-PN-1 (reference bytes). -/
theorem test_dummyLinePeriod : got (fun t => t.seq.head?) (exec .dummyLinePeriod ref) =
    some (some (.txn (.bytes [(false, 0x3A), (true, 0x1A)]))) := by decide
/-- V-PN-1 (reference bytes). -/
theorem test_gateTime : got (fun t => t.seq.head?) (exec .gateTime ref) =
    some (some (.txn (.bytes [(false, 0x3B), (true, 0x08)]))) := by decide
/-- V-PN-28: `cmd 0x44 [00 02]`. -/
theorem test_addressWindowX : got (fun t => t.seq.head?) (exec .addressWindowX (rectState 3 10 20 12)) =
    some (some (.txn (.bytes [(false, 0x44), (true, 0x00), (true, 0x02)]))) := by decide
/-- V-PN-28: `cmd 0x45 [0A 00 0C 00]`. -/
theorem test_addressWindowY : got (fun t => t.seq.head?) (exec .addressWindowY (rectState 3 10 20 12)) =
    some (some (.txn (.bytes [(false, 0x45), (true, 0x0A), (true, 0x00), (true, 0x0C), (true, 0x00)]))) := by decide
/-- V-PN-26: `cmd 0x45 [00 C7]` with Y_ADDR_BYTES = 1. -/
theorem test_addressWindowY_one_byte :
    got (fun t => t.seq.head?)
      (exec .addressWindowY { ref with cfg := { Config.reference with yAddrBytes := .one }, op := 0x11 }) =
        some (some (.txn (.bytes [(false, 0x45), (true, 0x00), (true, 0xC7)]))) := by decide
/-- V-PN-25: `cmd 0x4E [18]`. -/
theorem test_cursorX : got (fun t => t.seq.head?) (exec .cursorX (rectState 192 199 199 199)) =
    some (some (.txn (.bytes [(false, 0x4E), (true, 0x18)]))) := by decide
/-- V-PN-25: `cmd 0x4F [C7 00]`. -/
theorem test_cursorY : got (fun t => t.seq.head?) (exec .cursorY (rectState 192 199 199 199)) =
    some (some (.txn (.bytes [(false, 0x4F), (true, 0xC7), (true, 0x00)]))) := by decide
/-- V-PN-16: `cmd 0x20`. -/
theorem test_activate : got (fun t => t.seq.head?) (exec .activate ref) = some (some (.txn (.bytes [(false, 0x20)]))) := by
  decide
/-- V-PN-16: `cmd 0x22 [C4]` (reference byte). -/
theorem test_displayUpdateControl : got (fun t => t.seq.head?) (exec .displayUpdateControl ref) =
    some (some (.txn (.bytes [(false, 0x22), (true, 0xC4)]))) := by decide
/-- V-PN-4: `cmd 0x24`. -/
theorem test_writeRam : got (fun t => t.seq.head?) (exec .writeRam ref) = some (some (.txn (.bytes [(false, 0x24)]))) := by
  decide
/-- V-PN-18: `cmd 0x10` (SLEEP_DATA is empty). -/
theorem test_deepSleep : got (fun t => t.seq.head?) (exec .deepSleep ref) =
    some (some (.txn (.bytes [(false, 0x10)]))) := by decide

/-! ## The framebuffer -/

/-- V-FB-13: (13, 2) is byte 51, bit 2. -/
theorem test_setPixel :
    got State.fb (exec (.setPixel .black) { ref with fb := [(51, 0xFF)], arg0 := 13, arg1 := 2 }) = some [(51, 0xFB)] := by
  decide

/-- V-FB-4: (0, -32768) changes nothing, ERR = 0. -/
theorem test_setPixel_out_of_range :
    got (fun t => (t.fb, t.err)) (exec (.setPixel .white) { ref with fb := [(0, 0)], arg1 := 0x8000, err := .badOp }) =
      some ([(0, 0)], .ok) := by decide

/-- V-FB-6 at 8 x 2. -/
theorem test_fill : got State.fb (exec (.fill .white) small) = some [(0, 0xFF), (1, 0xFF)] := by decide

/-- V-FB-14: (100, 100) is byte 2512, bit 3. -/
theorem test_getPixel :
    got State.result (exec .getPixel { ref with fb := [(2512, 0x08)], arg0 := 100, arg1 := 100 }) = some 1 ∧
    got State.result (exec .getPixel { ref with fb := [(2512, 0x08)], arg0 := 101, arg1 := 100 }) = some 0 := by decide

/-- V-FB-9: out of range. -/
theorem test_getPixel_out_of_range :
    got State.result (exec .getPixel { ref with arg0 := 200, arg1 := 0 }) = some 2 ∧
    got State.result (exec .getPixel { ref with arg0 := 0xFFFF, arg1 := 5 }) = some 2 := by decide

/-! ## Reset -/

/-- V-RS-3, V-RS-4: the lines that were low return to 1. -/
theorem test_reset_events :
    got State.trace (step (withInput .blockReset { fetched 0x2001 with csN := false })) = some [.cs true] ∧
    got State.trace (step (withInput .blockReset { fetched 0x0010 with rstN := false })) = some [.rst true] := by decide

/-! ## Witnesses: for each statement with hypotheses, a state and operands that meet all of them together -/

theorem of_got {α : Type} {f : State → α} {v : α} {o : Outcome State Fault Refusal} (h : got f o = some v) :
    ∃ t, o = .next t ∧ f t = v := by
  cases o with
  | next t => exact ⟨t, rfl, by simpa [got] using h⟩
  | fault => simp [got] at h
  | refused => simp [got] at h

/-- `ref` in the panel state `ps` with the operation `op` running at the steps `l`. -/
def running (op : Byte) (ps : PState) (l : List SeqStep) : State :=
  { ref with op := op, pstate := ps, busy := true, seq := l }

/-- `ref` sending the command byte `c` in an operation `op` in the panel state `ps`, in the phase `ph` of bit 0. -/
def onWire (op c : Byte) (ps : PState) (f : Finish) (ph : FramePhase) : State :=
  { running op ps [.txn (.bytes [(false, c)]), .finish f] with
    phase := ph, csN := false, sclk := ph == .fall, dc := false, mosi := c.getLsbD 0 }

theorem ref_inv : Inv ref :=
  .idle test_reference_wellFormed (by decide) (by decide) (by decide) (by decide) rfl rfl rfl rfl rfl rfl rfl (by decide)

theorem running_inv (op : Byte) (ps : PState) (l : List SeqStep) (h : StepsOk (running op ps l) l) :
    Inv (running op ps l) :=
  .running test_reference_wellFormed .nil .nil (by simp [running, ref, State.resetWith])
    (by simp [running, ref, State.resetWith]) rfl h rfl rfl rfl rfl rfl (Nat.zero_le 7)

theorem onWire_inv (op c : Byte) (ps : PState) (f : Finish) (ph : FramePhase) (hp : ph = .rise ∨ ph = .fall)
    (h : StepsOk (running op ps [.txn (.bytes [(false, c)]), .finish f]) [.txn (.bytes [(false, c)]), .finish f]) :
    Inv (onWire op c ps f ph) where
  cfg := test_reference_wellFormed
  fbWf := by simp [onWire, running, ref, State.resetWith]
  listWf := by simp [onWire, running, ref, State.resetWith]
  fbBound := by simp [onWire, running, ref, State.resetWith]
  listBound := by simp [onWire, running, ref, State.resetWith]
  busy := by simp [onWire, running]
  wait := rfl
  rstN := by simp [onWire, running, ref, State.resetWith]
  seq := seqOk_of_stepsOk ((stepsOk_congr rfl rfl rfl rfl rfl rfl rfl rfl _).2 h)
  wires := by
    have hb : ∀ p rest, (onWire op c ps f ph).seq = .txn p :: rest → p = .bytes [(false, c)] := by
      intro p rest h; simp [onWire, running] at h; exact h.1.symm
    have hbyte : payloadByte (onWire op c ps f ph) (.bytes [(false, c)]) 0 = .ok (false, c) := by
      simp [payloadByte, Payload.length]
    refine ⟨?_, ?_, ?_, ?_, Nat.zero_le 7, ?_, ?_⟩
    · obtain rfl | rfl := hp <;> simp [onWire]
    · simp [onWire]
    · intro _; exact ⟨_, _, rfl⟩
    · intro p rest h _; rw [hb p rest h]; exact Nat.zero_lt_one
    · intro p rest h _; rw [hb p rest h]; exact ⟨c, hbyte⟩
    · intro p rest h _; rw [hb p rest h]; exact ⟨c, hbyte, rfl⟩

/-! ### Encoding and steps -/

theorem witness_DecodeOfEncode : (Instr.sendCmd 0xFF).WellFormed ∧ (Instr.clearFrame .white).WellFormed := by decide

theorem witness_EncodeOfDecode :
    decode (.cmdWord 0xFFFFFF10) = .ok (.init .partialRefresh) ∧ decode (.panelByte 0x4F) = .ok .cursorY := ⟨rfl, rfl⟩

theorem witness_ReservedOpRaisesBadOp :
    (∀ v ∈ [0x00#8, 0x06, 0x0F, 0x16, 0x1F, 0x23, 0x2F, 0x32, 0xFF],
      IsReservedOp v ∧ (fetched (v.setWidth 32)).op = v) ∧
    (fetched 0x32).inputs = [] ∧ (fetched 0x32).seq = [.fetch] := by unfold IsReservedOp; decide

theorem witness_PseudoInstructionsStartTheirOperation :
    (Pseudo.setFrameRect (-32768) 0 32767 9).WellFormed ∧ Pseudo.instr (.setFrameRect (-32768) 0 32767 9) = some .setFrameRect ∧
    ∃ s : State, s.busy = false ∧ s.inputs = (Pseudo.expand (.setFrameRect (-32768) 0 32767 9)).map accessInput :=
  ⟨by decide, rfl, { ref with inputs := (Pseudo.expand (.setFrameRect (-32768) 0 32767 9)).map accessInput }, rfl, rfl⟩

/-- LIST's last entry, CLROVR, WAIT on an idle block, and WAIT while GET_WIDTH runs. -/
theorem witness_PseudoInstructionsOfTheHost :
    (Pseudo.list 63 0x5A).WellFormed ∧ ref.busy = false ∧
    (withInput (.hostWrite 0x01FC 0x5A) ref).inputs = (Pseudo.expand (.list 63 0x5A)).map accessInput ++ [] ∧
    (withInput (.hostWrite 0x0004 0x00010000) ref).inputs = (Pseudo.expand .clrOvr).map accessInput ++ [] ∧
    (withInput (.hostPoll 0x0004) ref).inputs = (Pseudo.expand .wait).map accessInput ++ [] ∧
    (withInput (.hostPoll 0x0004) (fetched 0x30)).inputs = (Pseudo.expand .wait).map accessInput ∧
    (∃ u, run 3 (withInput (.hostPoll 0x0004) (fetched 0x30)) = .next u ∧ u.inputs = []) ∧
    (∃ u, run 1 { withInput (.hostPoll 0x0004) (fetched 0x30) with inputs := [] } = .next u ∧ u.busy = false) :=
  ⟨by decide, rfl, by decide, by decide, by decide, by decide, of_got (f := State.inputs) (by decide),
    of_got (f := State.busy) (by decide)⟩

theorem witness_StepRunsTheDecodedInstruction :
    ((fetched 0x14).seq = [.fetch] ∧ decode (.cmdWord (fetched 0x14).latchedWord) = .ok .displayFrame ∧
      (fetched 0x14).inputs = [] ∧ (withInput .seqStep (fetched 0x14)).inputs = [.seqStep]) ∧
    ((running 0x14 .initialized [.panel 0x20]).seq = [.panel 0x20] ∧ decode (.panelByte 0x20) = .ok .activate) :=
  ⟨⟨rfl, rfl, rfl, rfl⟩, rfl, rfl⟩

theorem witness_CmdWriteStartsAnOperation :
    (0x0008#16).toNat / 4 = 2 ∧ (0x000B#16).toNat / 4 = 2 ∧ ref.busy = false ∧
    (withInput (.hostWrite 0x000B 0x2001) ref).inputs = [.hostWrite 0x000B 0x2001] := by decide

/-! ### The host port -/

theorem witness_StatusRegister :
    (0x0004#16).toNat / 4 = 1 ∧ (0x0007#16).toNat / 4 = 1 ∧
    (withInput (.hostRead 0x0007) ref).inputs = [.hostRead 0x0007] ∧
    (withInput (.hostWrite 0x0004 0x10000) ref).inputs = [.hostWrite 0x0004 0x10000] := by decide

theorem witness_GeomRegister :
    (withInput (.hostRead 0x0003) ref).cfg.WellFormed ∧ (0x0003#16).toNat / 4 = 0 ∧
    (withInput (.hostRead 0x0003) ref).inputs = [.hostRead 0x0003] ∧
    (withInput (.hostWrite 0x0000 1) ref).inputs = [.hostWrite 0x0000 1] ∧ ∃ t, step ref = .next t :=
  ⟨test_reference_wellFormed, by decide, rfl, rfl, _, rfl⟩

/-- The refused words at the ends of their ranges, a step that sets OVR, and the two that clear it. -/
theorem witness_RefusedWriteSetsOvr :
    (∀ a ∈ [0x0008#16, 0x000B, 0x0010, 0x001F, 0x0100, 0x01FF],
      (a.toNat / 4 = 2 ∨ (4 ≤ a.toNat / 4 ∧ a.toNat / 4 ≤ 7) ∨ (0x40 ≤ a.toNat / 4 ∧ a.toNat / 4 ≤ 0x7F)) ∧
      (withInput (.hostWrite a 1) (fetched 0x14)).inputs = [.hostWrite a 1]) ∧ (fetched 0x14).busy = true ∧
    (fetched 0x14).ovr = false ∧ (∃ t, step (withInput (.hostWrite 0x0008 1) (fetched 0x14)) = .next t ∧ t.ovr = true) ∧
    (∃ t, step (withInput (.hostWrite 0x0004 0x10000) { ref with ovr := true }) = .next t ∧ t.ovr = false) ∧
    (∃ t, step (withInput .blockReset { ref with ovr := true }) = .next t ∧ t.ovr = false) :=
  ⟨by simp [withInput], rfl, rfl, of_got (f := State.ovr) (by decide), of_got (f := State.ovr) (by decide),
    of_got (f := State.ovr) (by decide)⟩

theorem witness_ArgRegisters :
    (0x0010#16).toNat / 4 = 4 ∧ (0x0017#16).toNat / 4 = 5 ∧ (0x0018#16).toNat / 4 = 6 ∧ (0x001F#16).toNat / 4 = 7 ∧
    (∀ a ∈ [0x0010#16, 0x0017, 0x0018, 0x001F], (withInput (.hostWrite a 7) ref).busy = false ∧
      (withInput (.hostWrite a 7) ref).inputs = [.hostWrite a 7] ∧ (withInput (.hostRead a) ref).inputs = [.hostRead a]) ∧
    (∀ more, (withInput (.hostWrite 0x0010 7) ref).inputs ≠ .blockReset :: more) ∧
    (∃ t, step (withInput (.hostWrite 0x0010 7) { ref with arg0 := 1 }) = .next t ∧ t.arg0 = 7) ∧
    (∃ t, step (withInput (.hostWrite 0x0017 7) { ref with arg1 := 1 }) = .next t ∧ t.arg1 = 7) ∧
    (∃ t, step (withInput (.hostWrite 0x0018 7) { ref with arg2 := 1 }) = .next t ∧ t.arg2 = 7) ∧
    (∃ t, step (withInput (.hostWrite 0x001F 7) { ref with arg3 := 1 }) = .next t ∧ t.arg3 = 7) :=
  ⟨by decide, by decide, by decide, by decide, by simp [withInput, ref, State.resetWith],
    by simp [withInput], of_got (f := State.arg0) (by decide), of_got (f := State.arg1) (by decide),
    of_got (f := State.arg2) (by decide), of_got (f := State.arg3) (by decide)⟩

theorem witness_ListBuffer :
    ref.busy = false ∧ (0x0100#16).toNat / 4 = 0x40 + 0 ∧ (0x01FF#16).toNat / 4 = 0x40 + 63 ∧ 63 < 64 ∧
    (withInput (.hostWrite 0x01FF 7) ref).inputs = [.hostWrite 0x01FF 7] ∧
    (withInput (.hostRead 0x0100) ref).inputs = [.hostRead 0x0100] ∧
    (∃ t, step (withInput (.hostWrite 0x01FF 7) { ref with list := [] }) = .next t ∧ t.list = [(63, 7)]) ∧
    (∃ t, step (withInput .blockReset { ref with list := [(0, 7)] }) = .next t ∧ t.list = []) :=
  ⟨rfl, by decide, by decide, by decide, rfl, rfl, of_got (by decide), of_got (by decide)⟩

/-- The window's ends, and FB_BYTES = 5000 on both sides. -/
theorem witness_FramebufferWindow :
    (0x8000#16).toNat / 4 = 0x2000 + 0 ∧ (0xCE1C#16).toNat / 4 = 0x2000 + 4999 ∧ (0xCE20#16).toNat / 4 = 0x2000 + 5000 ∧
    (0xFFFF#16).toNat / 4 = 0x2000 + 8191 ∧ ref.cfg.fbBytes = 5000 ∧
    ¬(ref.busy = true ∧ (ref.op = 0x20 ∨ ref.op = 0x21)) ∧ ¬((fetched 0x11).busy = true ∧ ((fetched 0x11).op = 0x20 ∨ (fetched 0x11).op = 0x21)) ∧
    (withInput (.hostRead 0xCE20) ref).inputs = [.hostRead 0xCE20] ∧ 0x2000 ≤ (0x8000#16).toNat / 4 ∧
    (withInput (.hostWrite 0x8000 1) ref).inputs = [.hostWrite 0x8000 1] := by decide

theorem witness_FramebufferWindowRace :
    (0xCE1C#16).toNat / 4 = 0x2000 + 4999 ∧ 4999 < ref.cfg.fbBytes ∧
    (0xCE20#16).toNat / 4 = 0x2000 + 5000 ∧ (0xFFFF#16).toNat / 4 = 0x2000 + 8191 ∧ ref.cfg.fbBytes ≤ 5000 ∧
    (withInput (.hostRead 0xCE20) (fetched 0x20)).inputs = [.hostRead 0xCE20] ∧
    (∀ w ∈ [0x20#32, 0x121], (fetched w).busy = true ∧ ((fetched w).op = 0x20 ∨ (fetched w).op = 0x21) ∧
      (fetched w).seq = [.fetch] ∧ (withInput (.hostRead 0xCE1C) (fetched w)).inputs = [.hostRead 0xCE1C]) ∧
    ∃ u, (withInput (.hostRead 0xCE1C) (fetched 0x20)).sequence exec = .next u :=
  ⟨by decide, by decide, by decide, by decide, by decide, rfl, by simp [withInput, fetched, State.acceptCmd, opField],
    _, rfl⟩

theorem witness_UnmappedAccess :
    (∀ a ∈ [0x0020#16, 0x00FF, 0x0200, 0x7FFF], (8 ≤ a.toNat / 4 ∧ a.toNat / 4 < 0x40) ∨ (0x7F < a.toNat / 4 ∧ a.toNat / 4 < 0x2000)) ∧
    (0x0008#16).toNat / 4 = 2 ∧ (withInput (.hostRead 0x0200) ref).inputs = [.hostRead 0x0200] ∧
    (withInput (.hostWrite 0x7FFF 1) ref).inputs = [.hostWrite 0x7FFF 1] := by simp [withInput]

theorem witness_AddressBitsIgnored :
    (0x0008#16).toNat = (0x000B#16).toNat - (0x000B#16).toNat % 4 ∧
    (0xFFFC#16).toNat = (0xFFFF#16).toNat - (0xFFFF#16).toNat % 4 := by decide

theorem witness_ResultRegister :
    (0x000F#16).toNat / 4 = 3 ∧ (withInput (.hostRead 0x000F) ref).inputs = [.hostRead 0x000F] ∧
    (withInput (.hostWrite 0x000F 1) ref).inputs = [.hostWrite 0x000F 1] ∧
    (∃ t, step { fetched 0x30 with result := 2 } = .next t ∧ t.result = 200) ∧
    (∃ t, step (withInput .blockReset { ref with result := 2 }) = .next t ∧ t.result = 0) :=
  ⟨by decide, rfl, rfl, of_got (by decide), of_got (by decide)⟩

/-! ### Reset and the whole machine -/

theorem witness_BlockReset : (withInput .blockReset (fetched 0x14)).inputs = [.blockReset] := rfl

theorem witness_InvariantAtReset : Config.reference.WellFormed := test_reference_wellFormed

theorem witness_InvariantKept : (Inv ref ∧ ∃ t, step ref = .next t) ∧
    Inv (running 0x15 .initialized sleepSteps) ∧ ∃ t, step (running 0x15 .initialized sleepSteps) = .next t :=
  ⟨⟨ref_inv, _, rfl⟩, running_inv _ _ _ (by simp [sleepSteps, StepsOk, SeqStep.Legal, decodePanel, running, PState.ready]), _, rfl⟩

theorem witness_InvariantStatesNeverStop : Inv ref ∧ Inv (onWire 0x01 0x20 .asleep .plain .rise) :=
  ⟨ref_inv, onWire_inv _ _ _ _ _ (by decide)
    (by simp [StepsOk, SeqStep.Legal, Payload.Legal, Payload.CommandsKnown, running])⟩

theorem witness_ParametersFixed : ∃ t, step (fetched 0x10) = .next t := ⟨_, rfl⟩

theorem witness_OnlySetPixelAndFillWriteFb :
    (∃ t, step { fetched 0x20 with fb := [(0, 0xFF)] } = .next t ∧ t.fb = [(0, 0x7F)]) ∧
    (∃ t, step (withInput .blockReset { ref with fb := [(0, 0xFF)] }) = .next t ∧ t.fb = []) :=
  ⟨of_got (by decide), of_got (by decide)⟩

/-- One step for each way PSTATE moves. -/
theorem witness_PanelStateMoves :
    (∃ s t, Inv s ∧ step s = .next t ∧ s.pstate = .uninitialized ∧ t.pstate = .initialized) ∧
    (∃ s t, Inv s ∧ step s = .next t ∧ s.pstate = .displaying ∧ t.pstate = .initialized) ∧
    (∃ s t, Inv s ∧ step s = .next t ∧ s.pstate = .initialized ∧ t.pstate = .displaying) ∧
    (∃ s t, Inv s ∧ step s = .next t ∧ s.pstate = .displaying ∧ t.pstate = .asleep) :=
  ⟨⟨_, _, running_inv 0x10 .uninitialized [.finish (.initDone .fullRefresh)] (by simp [StepsOk, SeqStep.Legal, running, ref, State.resetWith, flagOf, modeOfFlag]), rfl, rfl, rfl⟩,
   ⟨_, _, running_inv 0x13 .displaying [.finish .toInitialized] (by simp [StepsOk, SeqStep.Legal, running, PState.ready]), rfl, rfl, rfl⟩,
   ⟨_, _, running_inv 0x14 .initialized [.setDisplaying, .waitIdle, .finish .plain] (by simp [StepsOk, SeqStep.Legal, running, PState.ready]), rfl, rfl, rfl⟩,
   ⟨_, _, running_inv 0x15 .displaying [.finish .toAsleep] (by simp [StepsOk, SeqStep.Legal, running, PState.ready]), rfl, rfl, rfl⟩⟩

theorem witness_OnlyInitWritesMode :
    ∃ s t, Inv s ∧ step s = .next t ∧ s.mode = .partialRefresh ∧ t.mode = .fullRefresh ∧ s.op = 0x10 :=
  ⟨_, _, (running_inv 0x10 .asleep [.finish (.initDone .fullRefresh)] (by simp [StepsOk, SeqStep.Legal, running, ref, State.resetWith, flagOf, modeOfFlag])).congr
      (t := { running 0x10 .asleep [.finish (.initDone .fullRefresh)] with mode := .partialRefresh }) rfl, rfl, rfl, rfl, rfl⟩

theorem witness_ErrWrittenOnlyAtTheEnd :
    ∃ s t, Inv s ∧ step s = .next t ∧ s.err = .badOp ∧ t.err = .ok ∧ s.busy = true :=
  ⟨_, _, (running_inv 0x15 .initialized [.finish .toAsleep] (by simp [StepsOk, SeqStep.Legal, running, PState.ready])).congr
      (t := { running 0x15 .initialized [.finish .toAsleep] with err := .badOp }) rfl, rfl, rfl, rfl, rfl⟩

theorem witness_OperandsFixedWhileBusy :
    (∃ t, step (withInput (.hostWrite 0x0010 7) (fetched 0x12)) = .next t ∧ t.ovr = true) ∧ (fetched 0x12).busy = true ∧
    ∀ more, (withInput (.hostWrite 0x0010 7) (fetched 0x12)).inputs ≠ .blockReset :: more :=
  ⟨of_got (by decide), rfl, by simp [withInput]⟩

/-- The last edge of a byte the host sends itself, and of one the block sends. -/
theorem witness_OnlyPanelCommandsAreSent :
    (∃ s t, Inv s ∧ step s = .next t ∧ t.trace = s.trace ++ [.byte false 0xFF] ∧ s.op = 0x01) ∧
    (∃ s t, Inv s ∧ step s = .next t ∧ t.trace = s.trace ++ [.byte false 0x10] ∧ s.op = 0x15) :=
  ⟨⟨_, _, onWire_inv 0x01 0xFF .asleep .plain .fall (by decide)
      (by simp [StepsOk, SeqStep.Legal, Payload.Legal, Payload.CommandsKnown, running]), rfl, rfl, rfl⟩,
   ⟨_, _, onWire_inv 0x15 0x10 .initialized .toAsleep .fall (by decide)
      (by simp [StepsOk, SeqStep.Legal, Payload.Legal, Payload.CommandsKnown, running, PState.ready, decodePanel]), rfl, rfl, rfl⟩⟩

/-- A rising edge, a falling edge, a step with CS_N = 1 before and after, and an edge of CS_N. -/
theorem witness_ClockOnlyInsideTransactions :
    (∃ s t, Inv s ∧ step s = .next t ∧ s.sclk = false ∧ t.sclk = true) ∧
    (∃ s t, Inv s ∧ step s = .next t ∧ (∀ more, s.inputs ≠ .blockReset :: more) ∧ s.sclk = true ∧ t.sclk = false) ∧
    (∃ t, Inv ref ∧ step ref = .next t ∧ (∀ more, ref.inputs ≠ .blockReset :: more) ∧ ref.csN = true ∧ t.csN = true) ∧
    (∃ s t, Inv s ∧ step s = .next t ∧ (∀ more, s.inputs ≠ .blockReset :: more) ∧ s.csN = true ∧ t.csN = false) :=
  have h : StepsOk (running 0x01 .asleep [.txn (.bytes [(false, 0xA5)]), .finish .plain])
      [.txn (.bytes [(false, 0xA5)]), .finish .plain] := by
    simp [StepsOk, SeqStep.Legal, Payload.Legal, Payload.CommandsKnown, running]
  ⟨⟨_, _, onWire_inv 0x01 0xA5 .asleep .plain .rise (by decide) h, rfl, rfl, rfl⟩,
   ⟨_, _, onWire_inv 0x01 0xA5 .asleep .plain .fall (by decide) h, rfl, by simp [onWire, running, ref, State.resetWith],
     rfl, rfl⟩,
   ⟨_, ref_inv, rfl, by simp [ref, State.resetWith], rfl, rfl⟩,
   ⟨_, _, running_inv 0x01 .asleep _ h, rfl, by simp [running, ref, State.resetWith], rfl, rfl⟩⟩

/-! ### Errors -/

theorem witness_ErrorsArePrecise :
    (0x0008#16).toNat / 4 = 2 ∧ ref.busy = false ∧ ref.seq = [] ∧
    ∃ u, run 2 (withInput (.hostWrite 0x0008 0x15) ref) = .next u ∧ (u.seq, u.err) = ([], .notInit) :=
  ⟨by decide, rfl, rfl, of_got (f := fun u => (u.seq, u.err)) (by decide)⟩

theorem witness_PanelOperationsNeedInit :
    ref.pstate = .uninitialized ∧ ({ ref with pstate := .asleep } : State).pstate = .asleep ∧
    Instr.sleep ∈ [Instr.setFrameFull, .setFrameRect, .clearFrame .black, .displayFrame, .sleep] := by decide

/-- A rectangle for each outcome. -/
theorem witness_RectangleChecks :
    (rectState 0 0 0 0).pstate = .initialized ∧ ({ rectState 0 0 0 0 with pstate := .displaying } : State).pstate = .displaying ∧
    (rectState 0x8000 0 0 0).arg0.toInt < 0 ∧ (rectState 6 0 5 0).arg0.toInt > (rectState 6 0 5 0).arg2.toInt ∧
    8 * (((rectState 0 0 201 0).arg2.toInt + 7) / 8) > (200 : Int) ∧ (rectState 0 0 7 200).arg3.toInt > (200 : Int) - 1 ∧
    (rectState 8 3 8 3).arg0.toInt = 8 ∧ (rectState 8 3 8 3).arg2.toInt = 8 ∧ (rectState 0 0 200 199).arg2.toInt = 200 := by decide

/-! ### The framer -/

theorem witness_ByteOnTheWires :
    let s : State := { running 0x02 .asleep [.txn (.bytes [(true, 0xA5)]), .finish .plain] with phase := .dcSet, csN := false }
    s.inputs = [] ∧ s.seq = [.txn (.bytes [(true, 0xA5)]), .finish .plain] ∧ s.phase = .dcSet ∧ s.sclk = false ∧
    payloadByte s (.bytes [(true, 0xA5)]) s.byteCnt = .ok (true, 0xA5) := ⟨rfl, rfl, rfl, rfl, rfl⟩

theorem witness_TransactionOnTheWires :
    let s := running 0x04 .asleep [.txn (.fbData 4999 1), .finish .plain]
    s.inputs = [] ∧ s.seq = [.txn (.fbData 4999 1), .finish .plain] ∧ s.phase = .csLow ∧
    (Payload.fbData 4999 1).Legal s.cfg ∧ (Payload.listData 64).Legal s.cfg ∧ (Payload.cmdList 0x22 0).Legal s.cfg := by
  unfold Payload.Legal; decide

theorem quiet_ref (s : State) (h : s.seq = [] ∧ s.inputs = [] ∧ s.wait = false ∧ s.csN = true ∧ s.sclk = false ∧ s.rstN = true) :
    Quiet s := ⟨h.1, h.2.1, h.2.2.1, h.2.2.2.1, h.2.2.2.2.1, h.2.2.2.2.2⟩

theorem witness_SendCmdAndSendData : opField 0x2001 = 0x01 ∧ opField 0xA502 = 0x02 ∧ Quiet ref :=
  ⟨by decide, by decide, quiet_ref _ (by decide)⟩

theorem witness_SendDataList :
    opField 0xFF03 = 0x03 ∧ ({ ref with arg0 := 0 } : State).arg0.toNat = 0 ∧ 64 < ({ ref with arg0 := 65 } : State).arg0.toNat ∧
    Quiet { ref with arg0 := 64 } ∧ 1 ≤ ({ ref with arg0 := 64 } : State).arg0.toNat ∧ ({ ref with arg0 := 64 } : State).arg0.toNat ≤ 64 :=
  ⟨by decide, by decide, by decide, quiet_ref _ (by decide), by decide, by decide⟩

theorem witness_SendDataBuf :
    opField 0x04 = 0x04 ∧ ({ ref with arg1 := 0 } : State).arg1.toNat = 0 ∧
    ref.cfg.fbBytes < ({ ref with arg0 := 0xFFFF, arg1 := 1 } : State).arg0.toNat + ({ ref with arg0 := 0xFFFF, arg1 := 1 } : State).arg1.toNat ∧
    Quiet { ref with arg0 := 4999, arg1 := 1 } ∧ 4999 + 1 ≤ ref.cfg.fbBytes :=
  ⟨by decide, by decide, by decide, quiet_ref _ (by decide), by decide⟩

theorem witness_SendCmdData :
    opField 0x4405 = 0x05 ∧ 64 < ({ ref with arg0 := 65 } : State).arg0.toNat ∧ Quiet ref ∧ ref.arg0.toNat ≤ 64 ∧
    Quiet { ref with arg0 := 64 } :=
  ⟨by decide, by decide, quiet_ref _ (by decide), by decide, quiet_ref _ (by decide)⟩

/-! ### The panel -/

theorem witness_InitCommandsSend : (running 0x10 .asleep [.finish (.initDone .fullRefresh)]).inputs = [] := rfl

theorem witness_WindowAndRefreshCommandsSend :
    (rectState 0x8000 0 0 0).inputs = [] ∧
    (∃ (s : State) (xb0 xb1 y0 y1 : Nat), s.inputs = [] ∧ s.op = 0x12 ∧ (xb0 : Int) = s.arg0.toInt / 8 ∧
      (xb1 : Int) = (s.arg2.toInt + 7) / 8 - 1 ∧ (y0 : Int) = s.arg1.toInt ∧ (y1 : Int) = s.arg3.toInt) ∧
    (∃ (s : State) (xb0 xb1 y0 y1 : Nat), s.inputs = [] ∧ s.op ≠ 0x12 ∧ xb0 = 0 ∧ xb1 = s.cfg.rowBytes - 1 ∧ y0 = 0 ∧
      y1 = s.cfg.height - 1) :=
  ⟨rfl, ⟨rectState 3 10 20 12, 0, 2, 10, 12, by decide⟩, running 0x11 .initialized [.finish .toInitialized], 0, 24, 0, 199, by decide⟩

theorem witness_InitRuns : opField 0x0110 = 0x10 ∧
    Quiet { ref with op := 0x10, imm := 0xFF } ∧ Mode.partialRefresh = modeOfFlag ((0xFF : Byte).getLsbD 0) :=
  ⟨by decide, quiet_ref _ (by decide), by decide⟩

/-- For SET_FRAME_FULL and CLEAR_FRAME; `Quiet` from INITIALIZED and from DISPLAYING. -/
theorem frame_hypotheses (op : Byte) (ps : PState) (h : ps = .initialized ∨ ps = .displaying) :
    let s : State := { ref with op := op, pstate := ps }
    Quiet s ∧ s.cfg.WellFormed ∧ s.op = op ∧ (s.pstate = .initialized ∨ s.pstate = .displaying) ∧ PanelIdle s :=
  ⟨quiet_ref _ ⟨rfl, rfl, rfl, rfl, rfl, rfl⟩, test_reference_wellFormed, rfl, h, Bool.false_ne_true⟩

theorem witness_SetFrameFullRuns : opField 0x11 = 0x11 ∧ ∃ s : State, Quiet s ∧ s.cfg.WellFormed ∧ s.op = 0x11 ∧
    (s.pstate = .initialized ∨ s.pstate = .displaying) ∧ PanelIdle s :=
  ⟨by decide, _, frame_hypotheses 0x11 .displaying (.inr rfl)⟩

theorem witness_SetFrameRectRuns : opField 0x12 = 0x12 ∧
    ∃ (s : State) (xs ys xe ye : Nat), Quiet s ∧ s.cfg.WellFormed ∧ s.op = 0x12 ∧
      (s.pstate = .initialized ∨ s.pstate = .displaying) ∧ PanelIdle s ∧
      s.arg0.toInt = xs ∧ s.arg1.toInt = ys ∧ s.arg2.toInt = xe ∧ s.arg3.toInt = ye ∧
      xs ≤ xe ∧ ys ≤ ye ∧ 8 * ((xe + 7) / 8) ≤ s.cfg.width ∧ ye < s.cfg.height ∧ ¬(xs = xe ∧ xs % 8 = 0) :=
  ⟨by decide, { rectState 192 199 200 199 with busy := false }, 192, 199, 200, 199, quiet_ref _ (by decide),
    test_reference_wellFormed, rfl, .inl rfl, by unfold PanelIdle; decide, by decide⟩

theorem witness_ClearFrameRuns : opField 0x13 = 0x13 ∧ ∃ s : State, Quiet s ∧ s.cfg.WellFormed ∧ s.op = 0x13 ∧
    (s.pstate = .initialized ∨ s.pstate = .displaying) ∧ PanelIdle s :=
  ⟨by decide, _, frame_hypotheses 0x13 .initialized (.inl rfl)⟩

theorem witness_DisplayFrameRuns : opField 0x14 = 0x14 ∧ ∃ s : State, Quiet s ∧
    (s.pstate = .initialized ∨ s.pstate = .displaying) ∧ PanelIdle s :=
  ⟨by decide, { ref with pstate := .displaying }, quiet_ref _ (by decide), .inr rfl, by unfold PanelIdle; decide⟩

theorem witness_SleepRuns : opField 0x15 = 0x15 ∧ ∃ s : State, Quiet s ∧ (s.pstate = .initialized ∨ s.pstate = .displaying) :=
  ⟨by decide, { ref with pstate := .initialized }, quiet_ref _ (by decide), .inl rfl⟩

theorem witness_GeometryQueries : opField 0x30 = 0x30 ∧ opField 0x31 = 0x31 ∧ ref.cfg.WellFormed :=
  ⟨by decide, by decide, test_reference_wellFormed⟩

theorem witness_WaitIdleHangs :
    let s : State := { running 0x14 .displaying [.sample, .finish .plain] with wait := true, busyIn := true }
    s.inputs = [] ∧ s.seq = .sample :: [.finish .plain] ∧ s.busyIn = s.cfg.busyActive ∧ s.busy = true ∧ s.wait = true :=
  ⟨rfl, rfl, rfl, rfl, rfl⟩

theorem witness_WaitIdlePolls :
    let s : State := { running 0x14 .displaying [.waitIdle, .finish .plain] with
                busyIn := true, inputs := List.replicate (1 + 2 * (2 + 1)) Input.seqStep ++ [Input.panelBusy false] }
    s.cfg.WellFormed ∧ s.seq = .waitIdle :: [.finish .plain] ∧ s.busyIn = s.cfg.busyActive ∧
    s.inputs = List.replicate (1 + 2 * (2 + s.cfg.tPoll)) Input.seqStep ++ [.panelBusy (!s.cfg.busyActive)] :=
  ⟨test_reference_wellFormed, rfl, rfl, rfl⟩

/-! ### The framebuffer and the frames -/

/-- The last pixel is in range; a pixel past the right edge is not. -/
theorem witness_SetPixelEffect :
    opField 0x0120 = 0x20 ∧
    (let s : State := { ref with arg0 := 199, arg1 := 199 }
     s.arg0.toInt = ((199 : Nat) : Int) ∧ s.arg1.toInt = ((199 : Nat) : Int) ∧ 199 < s.cfg.width ∧ 199 < s.cfg.height) ∧
    (let s : State := { ref with arg0 := 200, arg1 := 0 }
     ¬(0 ≤ s.arg0.toInt ∧ s.arg0.toInt < s.cfg.width ∧ 0 ≤ s.arg1.toInt ∧ s.arg1.toInt < s.cfg.height)) := by decide

theorem witness_PixelReadBack :
    let s : State := { ref with arg0 := 199, arg1 := 0 }
    (0 ≤ s.arg0.toInt ∧ s.arg0.toInt < s.cfg.width ∧ 0 ≤ s.arg1.toInt ∧ s.arg1.toInt < s.cfg.height) ∧
    (0 ≤ (0#16).toInt ∧ (0#16).toInt < s.cfg.width ∧ 0 ≤ (199#16).toInt ∧ (199#16).toInt < s.cfg.height) ∧
    ∃ t, exec (.setPixel .white) s = .next t := ⟨by decide, by decide, _, rfl⟩

theorem witness_FillEffect : opField 0x0121 = 0x21 ∧ ref.cfg.WellFormed ∧ 4999 < ref.cfg.fbBytes ∧
    (0 ≤ (199#16).toInt ∧ (199#16).toInt < ref.cfg.width ∧ 0 ≤ (0#16).toInt ∧ (0#16).toInt < ref.cfg.height) :=
  ⟨by decide, test_reference_wellFormed, by decide, by decide⟩

theorem witness_GetPixelEffect :
    opField 0x22 = 0x22 ∧
    (let s : State := { ref with arg0 := 0, arg1 := 199 }
     s.arg0.toInt = ((0 : Nat) : Int) ∧ s.arg1.toInt = ((199 : Nat) : Int) ∧ 0 < s.cfg.width ∧ 199 < s.cfg.height) ∧
    (let s : State := { ref with arg0 := 0xFFFF, arg1 := 5 }
     ¬(0 ≤ s.arg0.toInt ∧ s.arg0.toInt < s.cfg.width ∧ 0 ≤ s.arg1.toInt ∧ s.arg1.toInt < s.cfg.height)) := by decide

theorem witness_MeaningFrame : ∃ t, exec (.fill .white) ref = .next t := ⟨_, rfl⟩

theorem witness_HostAccessesDoNotDisturb :
    (withInput (.hostRead 0x8000) (fetched 0x20)).inputs = [.hostRead 0x8000] ∧ (fetched 0x20).busy = true ∧
    (withInput (.hostWrite 0x0004 0x10000) (fetched 0x20)).inputs = [.hostWrite 0x0004 0x10000] ∧
    (withInput (.hostPoll 0x0004) (fetched 0x20)).inputs = [.hostPoll 0x0004] ∧
    (withInput (.panelBusy true) (fetched 0x20)).inputs = [.panelBusy true] := ⟨rfl, rfl, rfl, rfl, rfl⟩

theorem witness_RectangleTraceLength :
    ∃ (s : State) (xs ys xe ye yb : Nat), Quiet s ∧ s.cfg.WellFormed ∧ s.op = 0x12 ∧
      (s.pstate = .initialized ∨ s.pstate = .displaying) ∧ PanelIdle s ∧
      s.arg0.toInt = xs ∧ s.arg1.toInt = ys ∧ s.arg2.toInt = xe ∧ s.arg3.toInt = ye ∧
      xs ≤ xe ∧ ys ≤ ye ∧ 8 * ((xe + 7) / 8) ≤ s.cfg.width ∧ ye < s.cfg.height ∧ ¬(xs = xe ∧ xs % 8 = 0) ∧
      (match s.cfg.yAddrBytes with | .one => yb = 1 | .two => yb = 2) :=
  ⟨{ rectState 5 0 12 1 with busy := false }, 5, 0, 12, 1, 2, quiet_ref _ (by decide),
    test_reference_wellFormed, rfl, .inl rfl, by unfold PanelIdle; decide,
    by decide, by decide, by decide, by decide, by decide, by decide, by decide, by decide, by decide, rfl⟩

end Sys2Proof.Tests
end

namespace Sys2Proof.Machine

/-! ## The parameters (00_scope.md R7) -/

/-- A host write changes registers and the sequencer's start, never a parameter. -/
@[simp] theorem hostWrite_cfg (s : State) (a : Half) (v : Word) : (s.hostWrite a v).cfg = s.cfg := by
  obtain ⟨t, ht, hframe⟩ := hostWrite_frame s a v
  rw [ht, hframe]

/-- Settles O24: of the six kinds of step, the sequencer's keeps the parameters by its frame, and each input's by the
rule of its update. Block reset goes back to the reset state of the same parameters. -/
theorem parametersFixed : Obligations.ParametersFixed := by
  intro s t ht
  rcases step_cases ht with ⟨more, -, hseq⟩ | ⟨a, more, -, rfl⟩ | ⟨a, v, more, -, rfl⟩ | ⟨a, more, -, rfl⟩ |
    ⟨v, more, -, rfl⟩ | ⟨more, -, rfl⟩
  · exact (sequence_frame hseq).cfg
  · exact hostRead_cfg _ a
  · exact hostWrite_cfg _ a v
  · exact hostPoll_cfg _ a
  · rfl
  · exact blockReset_cfg _

end Sys2Proof.Machine

namespace Sys2Proof.Machine

/-! ## The registers the host writes -/

/-- The word number(s) at which a target stands in the register map (10_state.md R31). -/
def Target.StandsAt (w : Nat) : Target → Prop
  | .geom => w = 0
  | .status => w = 1
  | .cmd => w = 2
  | .result => w = 3
  | .arg0 => w = 4
  | .arg1 => w = 5
  | .arg2 => w = 6
  | .arg3 => w = 7
  | .list i => i < 64 ∧ w = 0x40 + i
  | .fbwin i => w = 0x2000 + i
  | .unmapped => (8 ≤ w ∧ w < 0x40) ∨ (0x7F < w ∧ w < 0x2000)

/-- The register map read backwards: an access of a target is one at the target's own word. -/
theorem target_standsAt (a : Half) : (target a).StandsAt (a.toNat / 4) := by
  unfold target
  simp only []
  repeat' split
  all_goals simp only [Target.StandsAt]; omega

/-- The register map: an access at a target's word is one of the target. -/
theorem target_eq {a : Half} {x : Target} (h : x.StandsAt (a.toNat / 4)) : target a = x := by
  obtain ⟨geom, status, cmd, result, arg0, arg1, arg2, arg3, list, fbwin, unmapped⟩ := @target_of a
  cases x with
  | geom => exact geom h
  | status => exact status h
  | cmd => exact cmd h
  | result => exact result h
  | arg0 => exact arg0 h
  | arg1 => exact arg1 h
  | arg2 => exact arg2 h
  | arg3 => exact arg3 h
  | list i => exact list i h.1 h.2
  | fbwin i => exact fbwin i h
  | unmapped => exact unmapped h

/-- ARGk by its number. -/
def State.arg (s : State) : Fin 4 → Half
  | 0 => s.arg0
  | 1 => s.arg1
  | 2 => s.arg2
  | 3 => s.arg3

/-- `s` with ARGk set. -/
def State.setArg (s : State) (v : Half) : Fin 4 → State
  | 0 => { s with arg0 := v }
  | 1 => { s with arg1 := v }
  | 2 => { s with arg2 := v }
  | 3 => { s with arg3 := v }

theorem arg_setArg_of_ne {s : State} {v : Half} {j k : Fin 4} (h : j ≠ k) : (s.setArg v k).arg j = s.arg j := by
  revert h
  fin_cases k <;> fin_cases j <;> simp [State.setArg, State.arg]

@[simp] theorem setArg_ovr (s : State) (v : Half) (k : Fin 4) : (s.setArg v k).ovr = s.ovr := by fin_cases k <;> rfl
@[simp] theorem setArg_list (s : State) (v : Half) (k : Fin 4) : (s.setArg v k).list = s.list := by fin_cases k <;> rfl

/-- The words at which BUSY = 1 refuses a write: CMD, ARG0 to ARG3 and LIST (10_state.md R39). -/
abbrev RefusableWord (w : Nat) : Prop := w = 2 ∨ (4 ≤ w ∧ w ≤ 7) ∨ (0x40 ≤ w ∧ w ≤ 0x7F)

theorem refusedIfBusy_cases (s u : State) :
    (s.busy = true ∧ s.refusedIfBusy u = { s with ovr := true }) ∨ (s.busy = false ∧ s.refusedIfBusy u = u) := by
  cases hb : s.busy <;> simp [State.refusedIfBusy, hb]

/-- What a host write can do (10_state.md R33, R39, R43, R44; 30_encoding.md R101): nothing, clear OVR, be refused, start
an operation, or store an argument or a LIST byte. -/
theorem hostWrite_cases (s : State) (a : Half) (v : Word) :
    (¬RefusableWord (a.toNat / 4) ∧ ¬(a.toNat / 4 = 1 ∧ v.getLsbD 16 = true) ∧ s.hostWrite a v = s) ∨
    (a.toNat / 4 = 1 ∧ v.getLsbD 16 = true ∧ s.hostWrite a v = { s with ovr := false }) ∨
    (s.busy = true ∧ RefusableWord (a.toNat / 4) ∧ s.hostWrite a v = { s with ovr := true }) ∨
    (s.busy = false ∧ a.toNat / 4 = 2 ∧ s.hostWrite a v = s.acceptCmd v) ∨
    (s.busy = false ∧ ∃ k : Fin 4, a.toNat / 4 = 4 + k ∧ s.hostWrite a v = s.setArg (v.setWidth 16) k) ∨
    (s.busy = false ∧ ∃ i, i < 64 ∧ a.toNat / 4 = 0x40 + i ∧
      s.hostWrite a v = { s with list := Memory.write s.list i (v.setWidth 8) }) := by
  have hw := target_standsAt a
  have guarded : ∀ u : State, RefusableWord (a.toNat / 4) →
      (s.busy = true ∧ RefusableWord (a.toNat / 4) ∧ s.refusedIfBusy u = { s with ovr := true }) ∨
      (s.busy = false ∧ s.refusedIfBusy u = u) :=
    fun u hr => (refusedIfBusy_cases s u).imp_left fun ⟨hb, h⟩ => ⟨hb, hr, h⟩
  unfold State.hostWrite
  cases ht : target a <;> rw [ht] at hw <;> simp only [Target.StandsAt] at hw
  case geom | result | fbwin | unmapped => exact .inl ⟨by omega, by omega, rfl⟩
  case status =>
    by_cases hv : v.getLsbD 16 = true
    · exact .inr (.inl ⟨hw, hv, if_pos hv⟩)
    · exact .inl ⟨by omega, fun h => hv h.2, if_neg hv⟩
  case cmd =>
    exact .inr (.inr ((guarded _ (.inl hw)).imp_right fun ⟨hb, h⟩ => .inl ⟨hb, hw, h⟩))
  case list i =>
    obtain ⟨hi, hw⟩ := hw
    exact .inr (.inr ((guarded _ (by omega)).imp_right fun ⟨hb, h⟩ => .inr (.inr ⟨hb, i, hi, hw, h⟩)))
  case arg0 => exact .inr (.inr ((guarded _ (by omega)).imp_right fun ⟨hb, h⟩ => .inr (.inl ⟨hb, 0, hw, h⟩)))
  case arg1 => exact .inr (.inr ((guarded _ (by omega)).imp_right fun ⟨hb, h⟩ => .inr (.inl ⟨hb, 1, hw, h⟩)))
  case arg2 => exact .inr (.inr ((guarded _ (by omega)).imp_right fun ⟨hb, h⟩ => .inr (.inl ⟨hb, 2, hw, h⟩)))
  case arg3 => exact .inr (.inr ((guarded _ (by omega)).imp_right fun ⟨hb, h⟩ => .inr (.inl ⟨hb, 3, hw, h⟩)))

/-- A host write does not see the schedule. -/
theorem hostWrite_inputs_comm (s : State) (a : Half) (v : Word) (l : List Input) :
    ({ s with inputs := l } : State).hostWrite a v = { s.hostWrite a v with inputs := l } := by
  unfold State.hostWrite State.writeTarget State.refusedIfBusy
  cases target a
  case geom | result | fbwin | unmapped => rfl
  all_goals simp only []; split <;> rfl

/-! ### A host write, word by word -/

section HostWrite
variable {s : State} {a : Half} {v : Word}

/-- A write of GEOM, RESULT, FBWIN or an unmapped word is ignored, busy or not (10_state.md R31). -/
theorem hostWrite_ignored (hw : ¬RefusableWord (a.toNat / 4)) (h1 : a.toNat / 4 ≠ 1) : s.hostWrite a v = s := by
  rcases hostWrite_cases s a v with ⟨-, -, e⟩ | ⟨h, -⟩ | ⟨-, h, -⟩ | ⟨-, h, -⟩ | ⟨-, k, h, -⟩ | ⟨-, i, hi, h, -⟩
  · exact e
  · exact absurd h h1
  all_goals omega

theorem hostWrite_status (hw : a.toNat / 4 = 1) :
    s.hostWrite a v = { s with ovr := if v.getLsbD 16 then false else s.ovr } := by
  rcases hostWrite_cases s a v with ⟨-, h, e⟩ | ⟨-, hv, e⟩ | ⟨-, h, -⟩ | ⟨-, h, -⟩ | ⟨-, k, h, -⟩ | ⟨-, i, hi, h, -⟩
  · rw [e, if_neg fun hv => h ⟨hw, hv⟩]
  · rw [e, if_pos hv]
  all_goals omega

/-- A write of CMD, ARGn or LIST while BUSY = 1 is refused (10_state.md R39). -/
theorem hostWrite_refused (hb : s.busy = true) (hw : RefusableWord (a.toNat / 4)) :
    s.hostWrite a v = { s with ovr := true } := by
  rcases hostWrite_cases s a v with ⟨h, -⟩ | ⟨h, -⟩ | ⟨-, -, e⟩ | ⟨hb', -⟩ | ⟨hb', -⟩ | ⟨hb', -⟩
  · exact absurd hw h
  · omega
  · exact e
  all_goals simp [hb] at hb'

theorem hostWrite_arg {k : Fin 4} (hb : s.busy = false) (hw : a.toNat / 4 = 4 + k) :
    s.hostWrite a v = s.setArg (v.extractLsb' 0 16) k := by
  rcases hostWrite_cases s a v with ⟨h, -⟩ | ⟨h, -⟩ | ⟨hb', -⟩ | ⟨-, h, -⟩ | ⟨-, j, h, e⟩ | ⟨-, i, hi, h, -⟩
  case inr.inr.inl => simp [hb] at hb'
  case inr.inr.inr.inr.inl =>
    obtain rfl : j = k := by omega
    rw [e, BitVec.setWidth_eq_extractLsb' (by decide)]
  all_goals omega

theorem hostWrite_list {i : Nat} (hb : s.busy = false) (hi : i < 64) (hw : a.toNat / 4 = 0x40 + i) :
    s.hostWrite a v = { s with list := Memory.write s.list i (v.extractLsb' 0 8) } := by
  rcases hostWrite_cases s a v with ⟨h, -⟩ | ⟨h, -⟩ | ⟨hb', -⟩ | ⟨-, h, -⟩ | ⟨-, k, h, -⟩ | ⟨-, j, hj, h, e⟩
  case inr.inr.inl => simp [hb] at hb'
  case inr.inr.inr.inr.inr =>
    obtain rfl : j = i := by omega
    rw [e, BitVec.setWidth_eq_extractLsb' (by decide)]
  all_goals omega

/-- OVR is set by a refused write alone. -/
theorem hostWrite_sets_ovr (h0 : s.ovr = false) (h1 : (s.hostWrite a v).ovr = true) :
    s.busy = true ∧ RefusableWord (a.toNat / 4) := by
  rcases hostWrite_cases s a v with ⟨-, -, e⟩ | ⟨-, -, e⟩ | ⟨hb, hw, -⟩ | ⟨-, -, e⟩ | ⟨-, k, -, e⟩ | ⟨-, i, -, -, e⟩
  case inr.inr.inl => exact ⟨hb, hw⟩
  all_goals simp [e, h0] at h1

/-- OVR is cleared by a STATUS write with bit 16 = 1 alone. -/
theorem hostWrite_clears_ovr (h1 : s.ovr = true) (h0 : (s.hostWrite a v).ovr = false) :
    a.toNat / 4 = 1 ∧ v.getLsbD 16 = true := by
  rcases hostWrite_cases s a v with ⟨-, -, e⟩ | ⟨hw, hv, -⟩ | ⟨-, -, e⟩ | ⟨-, -, e⟩ | ⟨-, k, -, e⟩ | ⟨-, i, -, -, e⟩
  case inr.inl => exact ⟨hw, hv⟩
  all_goals simp [e, h1] at h0

theorem hostWrite_changes_arg {k : Fin 4} (hne : (s.hostWrite a v).arg k ≠ s.arg k) :
    s.busy = false ∧ a.toNat / 4 = 4 + k := by
  rcases hostWrite_cases s a v with ⟨-, -, e⟩ | ⟨-, -, e⟩ | ⟨-, -, e⟩ | ⟨-, -, e⟩ | ⟨hb, j, hw, e⟩ | ⟨-, i, -, -, e⟩
  case inr.inr.inr.inr.inl =>
    obtain rfl : k = j := by
      by_contra hkj
      exact hne (by rw [e, arg_setArg_of_ne hkj])
    exact ⟨hb, hw⟩
  all_goals exact absurd (congrArg (State.arg · k) e) hne

theorem hostWrite_changes_list (hne : (s.hostWrite a v).list ≠ s.list) :
    s.busy = false ∧ 0x40 ≤ a.toNat / 4 ∧ a.toNat / 4 ≤ 0x7F := by
  rcases hostWrite_cases s a v with ⟨-, -, e⟩ | ⟨-, -, e⟩ | ⟨-, -, e⟩ | ⟨-, -, e⟩ | ⟨-, k, -, e⟩ | ⟨hb, i, hi, hw, -⟩
  case inr.inr.inr.inr.inr => exact ⟨hb, by omega, by omega⟩
  all_goals exact absurd (by simp [e]) hne

end HostWrite

/-! ## The invariant (10_state.md R34, R37; 20_memory.md R71) -/

/-- An idle block between operations. -/
theorem Inv.idle_facts {s : State} (h : Inv s) (hb : s.busy = false) :
    s.seq = [] ∧ s.wait = false ∧ s.rstN = true ∧ s.csN = true ∧ s.sclk = false ∧ s.phase = .csLow := by
  have hs : s.seq = [] := by
    by_contra hne
    simp [h.busy.2 hne] at hb
  have hp : s.phase = .csLow := h.phase (by simp [hs])
  have hr : s.rstN = true := by
    by_contra hr
    have := h.rstN (by simpa using hr)
    simp [hs] at this
  obtain ⟨hc, hk⟩ := h.wires.high hp
  exact ⟨hs, by rw [h.wait, hs]; rfl, hr, hc, hk, hp⟩

/-- A write of an argument register keeps the invariant of an idle block. -/
theorem inv_setArg {s : State} (h : Inv s) (hb : s.busy = false) (v : Half) (k : Fin 4) : Inv (s.setArg v k) := by
  obtain ⟨hs, hw, hr, hc, hk, hp⟩ := h.idle_facts hb
  fin_cases k <;>
    exact Inv.idle h.cfg h.fbWf h.listWf h.fbBound h.listBound hb hs hw hr hc hk hp h.wires.bitCnt

/-- A write of a LIST entry keeps the invariant of an idle block. -/
theorem inv_writeList {s : State} (h : Inv s) (hb : s.busy = false) {i : Nat} (hi : i < listSize) (v : Byte) :
    Inv { s with list := Memory.write s.list i v } := by
  obtain ⟨hs, hw, hr, hc, hk, hp⟩ := h.idle_facts hb
  exact Inv.idle h.cfg h.fbWf (write_wf h.listWf i v) h.fbBound (write_bound h.listBound hi) hb hs hw hr hc hk hp
    h.wires.bitCnt

/-- An accepted CMD write keeps the invariant: the sequencer stands before its fetch. -/
theorem inv_acceptCmd {s : State} (h : Inv s) (hb : s.busy = false) (w : Word) : Inv (s.acceptCmd w) := by
  obtain ⟨-, hw, hr, hc, hk, hp⟩ := h.idle_facts hb
  exact
    { cfg := h.cfg, fbWf := h.fbWf, listWf := h.listWf, fbBound := h.fbBound, listBound := h.listBound
      busy := by simp
      wait := hw
      rstN := fun hlow => by simp [hr] at hlow
      seq := trivial
      wires := wires_between hc hk hp h.wires.bitCnt }

/-- A host write keeps the invariant. -/
theorem inv_hostWrite {s : State} (h : Inv s) (a : Half) (v : Word) : Inv (s.hostWrite a v) := by
  rcases hostWrite_cases s a v with
    ⟨-, -, e⟩ | ⟨-, -, e⟩ | ⟨-, -, e⟩ | ⟨hb, -, e⟩ | ⟨hb, k, -, e⟩ | ⟨hb, i, hi, -, e⟩ <;> rw [e]
  · exact h
  · exact h.congr rfl
  · exact h.congr rfl
  · exact inv_acceptCmd h hb v
  · exact inv_setArg h hb _ k
  · exact inv_writeList h hb hi _

/-- Power-on meets the invariant in every configuration of 00_scope.md R8. -/
theorem inv_resetWith {c : Config} (hc : c.WellFormed) (v : Level) : Inv (State.resetWith c v) :=
  Inv.idle hc .nil .nil (by simp) (by simp) rfl rfl rfl rfl rfl rfl rfl (by simp)

/-- Block reset meets the invariant. -/
theorem inv_blockReset {s : State} (hc : s.cfg.WellFormed) : Inv s.blockReset :=
  Inv.idle hc .nil .nil (by simp) (by simp) rfl rfl rfl rfl rfl rfl rfl (by simp)

/-- Settles O21: power-on is an idle block with nothing written, and the reference configuration meets R8. -/
theorem invariantAtReset : Obligations.InvariantAtReset :=
  ⟨fun _ v hc => inv_resetWith hc v, inv_resetWith (by decide) _⟩

/-- Settles O22: of the six kinds of step, the sequencer's keeps the invariant by `inv_sequence`, a host write by its
cases, block reset by building it afresh; a read, a poll and a move of BUSY touch no field it speaks of. -/
theorem invariantKept : Obligations.InvariantKept := by
  intro s t h ht
  have hin : ∀ more, Inv { s with inputs := more } := fun more => h.congr rfl
  rcases step_cases ht with ⟨more, -, hseq⟩ | ⟨a, more, -, rfl⟩ | ⟨a, v, more, -, rfl⟩ | ⟨a, more, -, rfl⟩ |
    ⟨v, more, -, rfl⟩ | ⟨more, -, rfl⟩
  · exact inv_sequence (hin more) hseq
  · exact (hin more).congr rfl
  · exact inv_hostWrite (hin more) a v
  · exact (hin more).congr rfl
  · exact h.congr rfl
  · exact inv_blockReset h.cfg

/-! ## One access of the host port (20_memory.md R75, R80) -/

theorem step_hostWrite {s : State} {a : Half} {v : Word} {more : List Input} (hi : s.inputs = .hostWrite a v :: more) :
    step s = .next { s.hostWrite a v with inputs := more } := by
  rw [step_input hi, State.input, hostWrite_inputs_comm]

/-- A host read outside FBWIN records what its target holds and does nothing else. -/
theorem step_read {s : State} {a : Half} {more : List Input} (x : Target) (hi : s.inputs = .hostRead a :: more)
    (hx : x.StandsAt (a.toNat / 4)) (hf : x.isFbwin = false) :
    step s = .next { s with inputs := more, reads := s.reads ++ [(a, s.readWord x)] } := by
  have hr : ({ s with inputs := more } : State).readWord x = s.readWord x := by cases x <;> rfl
  rw [step_input hi]
  simp only [State.input, State.hostRead, target_eq hx, hr, hf, Bool.false_and]
  rfl

/-- The registers that only the host and block reset write. -/
structure HostRegsKept (s t : State) : Prop where
  ovr : t.ovr = s.ovr
  arg : ∀ k, t.arg k = s.arg k
  list : t.list = s.list

/-- No step but a host write and block reset changes OVR, ARGn or LIST. -/
theorem step_hostRegs {s t : State} (ht : step s = .next t) :
    (∃ more, s.inputs = .blockReset :: more ∧ t = ({ s with inputs := more } : State).blockReset) ∨
    (∃ a v more, s.inputs = .hostWrite a v :: more ∧ t = { s.hostWrite a v with inputs := more }) ∨
    HostRegsKept s t := by
  rcases step_cases ht with ⟨more, -, hseq⟩ | ⟨a, more, -, rfl⟩ | ⟨a, v, more, hi, rfl⟩ |
    ⟨a, more, -, rfl⟩ | ⟨v, more, -, rfl⟩ | hreset
  · have hf := sequence_frame hseq
    exact .inr (.inr ⟨hf.ovr, fun k => by fin_cases k; exacts [hf.arg0, hf.arg1, hf.arg2, hf.arg3], hf.list⟩)
  · exact .inr (.inr ⟨rfl, fun _ => rfl, rfl⟩)
  · exact .inr (.inl ⟨a, v, more, hi, hostWrite_inputs_comm s a v more⟩)
  · exact .inr (.inr ⟨rfl, fun _ => rfl, rfl⟩)
  · exact .inr (.inr ⟨rfl, fun _ => rfl, rfl⟩)
  · exact .inl hreset

/-! ## STATUS (10_state.md R33 to R40) -/

/-- The field layout of R33, for any values of the fields: a field is what is left on top when those below it are peeled
off. -/
theorem status_layout (bi o w y : BitVec 1) (e : BitVec 4) (m : BitVec 1) (p : BitVec 3) :
    let st := 0#14 ++ bi ++ o ++ 0#4 ++ e ++ 0#2 ++ w ++ m ++ p ++ y
    st.extractLsb' 0 1 = y ∧ st.extractLsb' 1 3 = p ∧ st.extractLsb' 4 1 = m ∧ st.extractLsb' 5 1 = w ∧
      st.extractLsb' 6 2 = 0 ∧ st.extractLsb' 8 4 = e ∧ st.extractLsb' 12 4 = 0 ∧ st.extractLsb' 16 1 = o ∧
      st.extractLsb' 17 1 = bi ∧ st.extractLsb' 18 14 = 0 := by
  intro st
  refine ⟨?_, ?_, ?_, ?_, ?_, ?_, ?_, ?_, ?_, ?_⟩
  all_goals repeat rw [BitVec.extractLsb'_append_eq_of_le (by decide)]
  case refine_10 => exact BitVec.extractLsb'_eq_self
  all_goals exact BitVec.extractLsb'_append_eq_right

/-- A one-bit field that holds `b` has the bit `b`. -/
theorem getLsbD_of_extractLsb' {n i : Nat} {x : BitVec n} {b : Bool} (h : x.extractLsb' i 1 = BitVec.ofBool b) :
    x.getLsbD i = b := by
  simpa using congrArg (fun y : BitVec 1 => y.getLsbD 0) h

/-- The fields of STATUS as a read returns them (R33). -/
theorem statusWord_fields (s : State) :
    s.statusWord.getLsbD 0 = s.busy ∧ s.statusWord.extractLsb' 1 3 = s.pstate.code ∧
    s.statusWord.extractLsb' 4 1 = modeBit s.mode ∧ s.statusWord.getLsbD 5 = s.wait ∧
    s.statusWord.extractLsb' 6 2 = 0 ∧ s.statusWord.extractLsb' 8 4 = s.err.code ∧
    s.statusWord.extractLsb' 12 4 = 0 ∧ s.statusWord.getLsbD 16 = s.ovr ∧ s.statusWord.getLsbD 17 = s.busyIn ∧
    s.statusWord.extractLsb' 18 14 = 0 := by
  obtain ⟨hbusy, hps, hmode, hwait, hz6, herr, hz12, hovr, hin, hz18⟩ :=
    status_layout (.ofBool s.busyIn) (.ofBool s.ovr) (.ofBool s.wait) (.ofBool s.busy) s.err.code (modeBit s.mode) s.pstate.code
  exact ⟨getLsbD_of_extractLsb' hbusy, hps, hmode, getLsbD_of_extractLsb' hwait, hz6, herr, hz12,
    getLsbD_of_extractLsb' hovr, getLsbD_of_extractLsb' hin, hz18⟩


/-- Settles O8: the fields by the layout of STATUS, the read and the write by the rules of the host port. -/
theorem statusRegister : Obligations.StatusRegister := by
  refine ⟨statusWord_fields, ?_, ?_, ?_⟩
  · intro s a more hw hi
    exact step_read .status hi hw rfl
  · intro s a v more hw hi
    rw [step_hostWrite hi, hostWrite_status hw]
  · intro c v
    have href : ∀ v, (State.resetWith Config.reference v).statusWord = if v then 0x00020000 else 0x00000000 := by decide
    exact href v

/-- Settles O9: the codes are those of the tables of R35, R36 and R241. -/
theorem statusCodes : Obligations.StatusCodes := by
  unfold Obligations.StatusCodes
  decide

/-- Settles O11: a refused write, and that no step but a host write and block reset touches OVR. -/
theorem refusedWriteSetsOvr : Obligations.RefusedWriteSetsOvr := by
  refine ⟨?_, ?_, ?_⟩
  · intro s a v more hb hw hi
    rw [step_hostWrite hi, hostWrite_refused hb hw]
  · intro s t ht h0 h1
    rcases step_hostRegs ht with ⟨more, -, rfl⟩ | ⟨a, v, more, hi, rfl⟩ | hk
    · cases h1
    · obtain ⟨hb, hw⟩ := hostWrite_sets_ovr h0 h1
      exact ⟨hb, a, v, more, hi, hw⟩
    · simp [hk.ovr, h0] at h1
  · intro s t ht h1 h0
    rcases step_hostRegs ht with ⟨more, hi, -⟩ | ⟨a, v, more, hi, rfl⟩ | hk
    · exact ⟨more, .inl hi⟩
    · obtain ⟨hw, hv⟩ := hostWrite_clears_ovr h1 h0
      exact ⟨more, .inr ⟨a, v, hi, hw, hv⟩⟩
    · simp [hk.ovr, h1] at h0

/-! ## ARG0 to ARG3 and LIST (10_state.md R43, R44) -/

theorem step_writes_arg {s : State} {a : Half} {v : Word} {more : List Input} (hb : s.busy = false)
    (hi : s.inputs = .hostWrite a v :: more) (k : Fin 4) (hw : a.toNat / 4 = 4 + k) :
    step s = .next { s.setArg (v.extractLsb' 0 16) k with inputs := more } := by
  rw [step_hostWrite hi, hostWrite_arg hb hw]

/-- A step that changes ARGk and is no block reset is a host write of that register with BUSY = 0. -/
theorem step_changes_arg {s t : State} (ht : step s = .next t) (hr : ∀ more, s.inputs ≠ .blockReset :: more) (k : Fin 4)
    (hne : t.arg k ≠ s.arg k) :
    s.busy = false ∧
      ∃ (a : Half) (v : Word) (more : List Input), a.toNat / 4 = 4 + k ∧ s.inputs = .hostWrite a v :: more := by
  rcases step_hostRegs ht with ⟨more, hi, -⟩ | ⟨a, v, more, hi, rfl⟩ | hk
  · exact absurd hi (hr more)
  · obtain ⟨hb, hw⟩ := hostWrite_changes_arg hne
    exact ⟨hb, a, v, more, hw, hi⟩
  · exact absurd (hk.arg k) hne

/-- Settles O12: the write and the only-changed-by clause at each of the four numbers, the reads by the register map. -/
theorem argRegisters : Obligations.ArgRegisters := by
  refine ⟨?_, ?_, ?_⟩
  · intro s a v more hb hi
    exact ⟨step_writes_arg hb hi 0, step_writes_arg hb hi 1, step_writes_arg hb hi 2, step_writes_arg hb hi 3⟩
  · intro s a more hi
    exact ⟨fun hw => step_read .arg0 hi hw rfl, fun hw => step_read .arg1 hi hw rfl,
      fun hw => step_read .arg2 hi hw rfl, fun hw => step_read .arg3 hi hw rfl⟩
  · intro s t ht hr
    exact ⟨step_changes_arg ht hr 0, step_changes_arg ht hr 1, step_changes_arg ht hr 2, step_changes_arg ht hr 3⟩

/-- Settles O13: the accepted write with read after write in the byte memory, the read by the register map, and that no
step but a host write and block reset touches LIST. -/
theorem listBuffer : Obligations.ListBuffer := by
  refine ⟨?_, ?_, ?_⟩
  · intro s a v more i hb hlt hw hi
    refine ⟨_, step_hostWrite hi, ?_⟩
    rw [hostWrite_list hb hlt hw]
    refine ⟨rfl, fun j => ?_⟩
    rw [State.listByte, lookup_write]
    split <;> rfl
  · intro s a more i hlt hw hi
    exact step_read (.list i) hi ⟨hlt, hw⟩ rfl
  · intro s t ht hne
    rcases step_hostRegs ht with ⟨more, hi, -⟩ | ⟨a, v, more, hi, rfl⟩ | hk
    · exact ⟨more, .inl hi⟩
    · obtain ⟨hb, hlo, hhi⟩ := hostWrite_changes_list hne
      exact ⟨more, .inr ⟨hb, a, v, hlo, hhi, hi⟩⟩
    · exact absurd hk.list hne

/-! ## GEOM (10_state.md R32) -/

theorem geomWord_fields {c : Config} (hw : c.width < 65536) (hh : c.height < 65536) :
    ((geomWord c).extractLsb' 0 16).toNat = c.width ∧ ((geomWord c).extractLsb' 16 16).toNat = c.height := by
  unfold geomWord
  rw [BitVec.extractLsb'_append_eq_right, BitVec.extractLsb'_append_eq_left, BitVec.toNat_ofNat, BitVec.toNat_ofNat]
  exact ⟨Nat.mod_eq_of_lt hw, Nat.mod_eq_of_lt hh⟩

/-- Settles O10: R8 keeps W and H inside 16 bits, and no step changes the parameters. -/
theorem geomRegister : Obligations.GeomRegister := by
  refine ⟨?_, ?_, ?_, by decide⟩
  · intro s a more hc hw hi
    refine ⟨_, step_read .geom hi hw rfl, rfl, ?_⟩
    obtain ⟨-, ⟨-, hwidth⟩, ⟨-, hheight⟩, -⟩ := hc
    refine geomWord_fields (by omega) (hheight.trans_lt ?_)
    cases s.cfg.yAddrBytes <;> decide
  · intro s t ht
    rw [parametersFixed s t ht]
  · intro s a v more hw hi
    rw [step_hostWrite hi, hostWrite_ignored (by omega) (by omega)]

/-! ## Power-on (10_state.md R55) -/

/-- Settles O20: each register by its reset value, the step by R272: nothing scheduled and an idle sequencer. -/
theorem powerOnState : Obligations.PowerOnState := by
  refine ⟨fun c v => ?_, _, _, rfl⟩
  have hstep : step (State.resetWith c v) = .next (State.resetWith c v) := (step_seq rfl).trans (sequence_idle rfl)
  exact ⟨rfl, rfl, rfl, rfl, rfl, rfl, rfl, rfl, rfl, rfl, rfl, rfl, rfl, rfl, rfl, rfl, rfl, rfl, rfl, fun _ => rfl,
    fun _ => rfl, hstep⟩

/-! ## PSTATE, MODE, ERR, FB and RESULT: the fields the sequencer writes (10_state.md R35 to R38, R42, R47) -/

/-- The status fields and memories that the host does not write stand still. -/
structure StatusKept (s t : State) : Prop where
  pstate : t.pstate = s.pstate
  mode : t.mode = s.mode
  err : t.err = s.err
  fb : t.fb = s.fb
  result : t.result = s.result

theorem hostWrite_statusKept (s : State) (a : Half) (v : Word) : StatusKept s (s.hostWrite a v) := by
  obtain ⟨t, rfl, hframe⟩ := hostWrite_frame s a v
  constructor <;> rw [hframe]

/-- A fetch that ends its operation at once: by an error, which leaves FB and RESULT, or by `done` in SET_PIXEL or FILL,
which leave RESULT, or in one of the three queries, which leave FB. -/
structure EndsAtFetch (s t : State) : Prop where
  fetch : ∃ rest, s.seq = .fetch :: rest
  pstate : t.pstate = s.pstate
  mode : t.mode = s.mode
  busy : t.busy = false
  seq : t.seq = []
  outcome : (t.err ≠ .ok ∧ t.fb = s.fb ∧ t.result = s.result) ∨
    (t.err = .ok ∧ ((s.op = 0x20 ∨ s.op = 0x21) ∧ t.result = s.result ∨
      (s.op = 0x22 ∨ s.op = 0x30 ∨ s.op = 0x31) ∧ t.fb = s.fb))

/-- What a step does to PSTATE, MODE, ERR, FB and RESULT: it resets the block, keeps them, moves DISPLAY_FRAME's PSTATE,
finishes an operation, or ends one at its fetch. -/
theorem step_status {s t : State} (ht : step s = .next t) :
    (∃ more, s.inputs = .blockReset :: more ∧ t = ({ s with inputs := more } : State).blockReset) ∨
    StatusKept s t ∨
    (∃ rest more, s.seq = .setDisplaying :: rest ∧ t = { s with inputs := more, pstate := .displaying, seq := rest }) ∨
    (∃ f rest more, s.seq = .finish f :: rest ∧ t = ({ s with inputs := more } : State).finish f) ∨
    EndsAtFetch s t := by
  rcases step_cases ht with ⟨more, -, hseq⟩ | ⟨a, more, -, rfl⟩ | ⟨a, v, more, -, rfl⟩ | ⟨a, more, -, rfl⟩ |
    ⟨v, more, -, rfl⟩ | ⟨more, hi, rfl⟩
  · rcases sequence_status hseq with ⟨hp, hm, he, -, hf, hr⟩ | ⟨rest, hs, e⟩ | ⟨f, rest, hs, e⟩ |
      ⟨rest, hs, hp, hm, hb, hq, -, -, hout⟩
    · exact .inr (.inl ⟨hp, hm, he, hf, hr⟩)
    · exact .inr (.inr (.inl ⟨rest, more, hs, e⟩))
    · exact .inr (.inr (.inr (.inl ⟨f, rest, more, hs, e⟩)))
    · exact .inr (.inr (.inr (.inr ⟨⟨rest, hs⟩, hp, hm, hb, hq, hout⟩)))
  · exact .inr (.inl ⟨rfl, rfl, rfl, rfl, rfl⟩)
  · obtain ⟨hp, hm, he, hf, hr⟩ := hostWrite_statusKept { s with inputs := more } a v
    exact .inr (.inl ⟨hp, hm, he, hf, hr⟩)
  · exact .inr (.inl ⟨rfl, rfl, rfl, rfl, rfl⟩)
  · exact .inr (.inl ⟨rfl, rfl, rfl, rfl, rfl⟩)
  · exact .inl ⟨more, hi, rfl⟩

/-- Settles O18: the read and the ignored write by the register map; of the steps, only a fetch that ends one of the three
queries changes RESULT. -/
theorem resultRegister : Obligations.ResultRegister := by
  refine ⟨fun s a more hw hi => step_read .result hi hw rfl, fun s a v more hw hi => ?_, fun s t ht hne => ?_⟩
  · rw [step_hostWrite hi, hostWrite_ignored (by omega) (by omega)]
  · rcases step_status ht with ⟨more, hi, -⟩ | hk | ⟨rest, more, -, rfl⟩ | ⟨f, rest, more, -, rfl⟩ | he
    · exact .inl ⟨more, hi⟩
    · exact absurd hk.result hne
    · exact absurd rfl hne
    · exact absurd (finish_result _ f) hne
    · rcases he.outcome with ⟨-, -, hr⟩ | ⟨hok, ⟨-, hr⟩ | ⟨hop, -⟩⟩
      · exact absurd hr hne
      · exact absurd hr hne
      · exact .inr ⟨hop, hok, he.busy⟩

/-- Settles O25: only a fetch that ends SET_PIXEL or FILL changes FB. -/
theorem onlySetPixelAndFillWriteFb : Obligations.OnlySetPixelAndFillWriteFb := by
  intro s t ht hne
  rcases step_status ht with ⟨more, hi, -⟩ | hk | ⟨rest, more, -, rfl⟩ | ⟨f, rest, more, -, rfl⟩ | he
  · exact .inl ⟨more, hi⟩
  · exact absurd hk.fb hne
  · exact absurd rfl hne
  · exact absurd (finish_fb _ f) hne
  · rcases he.outcome with ⟨-, hf, -⟩ | ⟨hok, ⟨hop, -⟩ | ⟨-, hf⟩⟩
    · exact absurd hf hne
    · exact .inr ⟨hop, he.fetch, hok, he.busy⟩
    · exact absurd hf hne

/-- A `finish` the sequencer stands at is legal for the running operation. -/
theorem Inv.finish_legal {s : State} (h : Inv s) {f : Finish} {rest : List SeqStep} (hs : s.seq = .finish f :: rest) :
    (SeqStep.finish f).Legal s :=
  (seqOk_cons h.seq hs (by simp) (by simp) (by simp) (by simp)).1

/-- Settles O27: MODE is written by INIT's `finish` alone, and the invariant ties that step to OP and IMM. -/
theorem onlyInitWritesMode : Obligations.OnlyInitWritesMode := by
  intro s t h ht hne
  rcases step_status ht with ⟨more, hi, rfl⟩ | hk | ⟨rest, more, -, rfl⟩ | ⟨f, rest, more, hs, rfl⟩ | he
  · exact .inl ⟨rfl, more, hi⟩
  · exact absurd hk.mode hne
  · exact absurd rfl hne
  · cases f with
    | initDone p =>
      obtain ⟨hop, hp⟩ := h.finish_legal hs
      exact .inr ⟨hop, hp, rfl, rfl, rfl⟩
    | plain | toInitialized | toAsleep => exact absurd rfl hne
  · exact absurd he.mode hne

/-- Settles O28: ERR is written by a `finish` or by a fetch that ends its operation; in both the invariant gives BUSY = 1
before the step. -/
theorem errWrittenOnlyAtTheEnd : Obligations.ErrWrittenOnlyAtTheEnd := by
  intro s t h ht hne
  rcases step_status ht with ⟨more, hi, -⟩ | hk | ⟨rest, more, -, rfl⟩ | ⟨f, rest, more, hs, rfl⟩ | he
  · exact .inl ⟨more, hi⟩
  · exact absurd hk.err hne
  · exact absurd rfl hne
  · exact .inr ⟨h.busy.2 (by simp [hs]), finish_busy _ f, finish_seq _ f⟩
  · obtain ⟨rest, hs⟩ := he.fetch
    exact .inr ⟨h.busy.2 (by simp [hs]), he.busy, he.seq⟩

end Sys2Proof.Machine

namespace Sys2Proof.Machine

/-! ## Host accesses: the rules the statements on memory cite (20_memory.md R72 to R84) -/

@[simp] theorem readWord_inputs (s : State) (l : List Input) (x : Target) :
    ({ s with inputs := l } : State).readWord x = s.readWord x := by
  cases x <;> rfl

/-- A host read does not see the schedule. -/
theorem hostRead_inputs_comm (s : State) (a : Half) (l : List Input) :
    ({ s with inputs := l } : State).hostRead a = { s.hostRead a with inputs := l } := by
  simp only [State.hostRead, readWord_inputs]
  rfl

/-- A scheduled input acts on the state with the rest of the schedule. -/
theorem step_scheduled (s : State) (i : Input) (more : List Input) :
    step { s with inputs := i :: more } = ({ s with inputs := more } : State).input exec i :=
  step_input rfl

theorem step_hostRead {s : State} {a : Half} {more : List Input} (hi : s.inputs = .hostRead a :: more) :
    step s = .next { s.hostRead a with inputs := more } := by
  rw [step_input hi, State.input, hostRead_inputs_comm]

/-- A write of a word that holds no writable register (10_state.md R31) uses up its place in the schedule and does nothing
else. -/
theorem step_hostWrite_ignored {s : State} {a : Half} {v : Word} {more : List Input}
    (hi : s.inputs = .hostWrite a v :: more) (hw : ¬RefusableWord (a.toNat / 4)) (h1 : a.toNat / 4 ≠ 1) :
    step s = .next { s with inputs := more } := by
  rw [step_hostWrite hi, hostWrite_ignored hw h1]

/-- The register map depends on the word number alone (20_memory.md R75). -/
theorem target_congr {a b : Half} (h : b.toNat / 4 = a.toNat / 4) : target b = target a :=
  target_eq (h ▸ target_standsAt a)

/-! ### FBWIN (20_memory.md R72, R84) -/

theorem fbwinRaces_iff (s : State) : s.fbwinRaces = true ↔ s.busy = true ∧ (s.op = 0x20 ∨ s.op = 0x21) := by
  simp [State.fbwinRaces]

/-- A read of an FBWIN entry: one more draw is used up in a race. -/
theorem step_read_fbwin {s : State} {a : Half} {more : List Input} {i : Nat} (hi : s.inputs = .hostRead a :: more)
    (hw : a.toNat / 4 = 0x2000 + i) :
    step s = .next { s with inputs := more, reads := s.reads ++ [(a, s.fbwinWord i)],
                            draws := if s.fbwinRaces then s.draws + 1 else s.draws } := by
  have ht : target a = .fbwin i := target_eq hw
  rw [step_hostRead hi]
  simp only [State.hostRead, ht, State.readWord, Target.isFbwin, Bool.true_and]

theorem fbwinWord_past_fb {s : State} {i : Nat} (h : s.cfg.fbBytes ≤ i) : s.fbwinWord i = 0 :=
  if_neg (by omega)

theorem fbwinWord_of_not_races {s : State} (h : s.fbwinRaces = false) (i : Nat) :
    s.fbwinWord i = if i < s.cfg.fbBytes then (s.fbByte i).setWidth 32 else 0 := by
  simp [State.fbwinWord, h]

/-- Inside FB a read returns the byte FB holds, or the byte it will hold after the running operation. -/
theorem fbwinWord_old_or_new {s : State} {i : Nat} (h : i < s.cfg.fbBytes) :
    s.fbwinWord i = (s.fbByte i).setWidth 32 ∨ s.fbwinWord i = (s.fbByteOf s.fbAfterRunning i).setWidth 32 := by
  rw [State.fbwinWord, if_pos h]
  split
  · exact .inr rfl
  · exact .inl rfl

/-- `fbAfterRunning` is what the fetch step of SET_PIXEL and FILL leaves in FB (log 8). -/
theorem sequence_fetch_fb {s u : State} {rest : List SeqStep} (hs : s.seq = .fetch :: rest)
    (hop : s.op = 0x20 ∨ s.op = 0x21) (hu : s.sequence exec = .next u) : u.fb = s.fbAfterRunning := by
  have hrun : ∀ i, decodeOp s.op s.imm = .ok i → exec i { s with seq := rest } = .next u := fun i hd => by
    rw [← hu, sequence_fetch hs (i := i) (by rw [State.latchedWord, decodeCmd_cmdWordOf, hd])]
  rcases hop with hop | hop
  · cases hrun (.setPixel (colourOfFlag (flagOf s.imm))) (by simp [decodeOp, hop])
    simp only [State.fbAfterRunning, hop]
    rfl
  · cases hrun (.fill (colourOfFlag (flagOf s.imm))) (by simp [decodeOp, hop])
    simp only [State.fbAfterRunning, hop]
    rfl

/-- Settles O14: without a race the window shows FB as it stands and uses up no draw; its words hold no writable
register. -/
theorem framebufferWindow : Obligations.FramebufferWindow := by
  refine ⟨fun s a more i hw hcalm hi => ?_, fun s a v more hw hi => ?_⟩
  · have hr : s.fbwinRaces = false := by rwa [← Bool.not_eq_true, fbwinRaces_iff]
    rw [step_read_fbwin hi hw, fbwinWord_of_not_races hr, hr]
    rfl
  · exact step_hostWrite_ignored hi (by omega) (by omega)

/-- Settles O15: the two values of the draw are FB now and `fbAfterRunning`, and the operation's step, which starts no new
reset, leaves the latter in FB. -/
theorem framebufferWindowRace : Obligations.FramebufferWindowRace := by
  refine ⟨fun s u a more i hw hlt hb hop hs hi hu => ?_, fun s a more i hw hge hb hop hi => ?_⟩
  · have hr : s.fbwinRaces = true := (fbwinRaces_iff s).2 ⟨hb, hop⟩
    have hnew : u.fbByte i = s.fbByteOf s.fbAfterRunning i := by
      rw [State.fbByte, sequence_fetch_fb hs hop hu, State.fbByteOf, State.fbByteOf, (sequence_frame hu).resets]
    refine ⟨_, s.fbwinWord i, step_read_fbwin hi hw, by rw [if_pos hr], ?_⟩
    rw [hnew]
    exact fbwinWord_old_or_new hlt
  · have hr : s.fbwinRaces = true := (fbwinRaces_iff s).2 ⟨hb, hop⟩
    rw [step_read_fbwin hi hw, fbwinWord_past_fb hge, if_pos hr]

/-! ## Unmapped and misaligned accesses (20_memory.md R74, R75) -/

/-- Settles O16: the register map sends the unmapped words to `unmapped` and word 2 to CMD, which both read 0; the
unmapped words hold no writable register. -/
theorem unmappedAccess : Obligations.UnmappedAccess := by
  refine ⟨fun s a more hw hi => ?_, fun s a v more hw hi => ?_⟩
  · rcases hw with hw | hw | hw
    · exact step_read .unmapped hi (.inl hw) rfl
    · exact step_read .unmapped hi (.inr hw) rfl
    · exact step_read .cmd hi hw rfl
  · exact step_hostWrite_ignored hi (by omega) (by omega)

/-- Settles O17: `a` and `a - a mod 4` have one word number, hence one target, and an access depends on its offset through
its target alone, but for the record of reads. -/
theorem addressBitsIgnored : Obligations.AddressBitsIgnored := by
  intro s a b more hab
  have ht : target b = target a := target_congr (by omega)
  refine ⟨fun v => ⟨_, step_scheduled s (.hostWrite a v) more, ?_⟩,
    _, s.readWord (target a), step_scheduled s (.hostRead a) more, by simp, ?_⟩
  · rw [step_scheduled, State.input, State.hostWrite, ht]
    rfl
  · rw [step_scheduled]
    simp only [State.input, State.hostRead, ht, readWord_inputs]

/-! ## The invariant excludes the guards of log 15 -/

/-- The framer always has a byte to send: a step of a legal transaction answers a next state. -/
theorem txnStep_next {s : State} {p : Payload} (rest : List SeqStep) (hp : p.Legal s.cfg)
    (hin : s.phase ∈ [FramePhase.dcSet, .mosi, .rise, .fall] → s.byteCnt < p.length) :
    ∃ t, txnStep p rest s = .next t := by
  unfold txnStep
  cases hph : s.phase with
  | csLow | rise | trail | csHigh => exact ⟨_, rfl⟩
  | dcSet | mosi =>
    obtain ⟨x, hx⟩ := legal_content_byte hp (hin (by simp [hph]))
    simp only [hx]
    exact ⟨_, rfl⟩
  | fall =>
    obtain ⟨x, hx⟩ := legal_content_byte hp (hin (by simp [hph]))
    simp only [hx]
    split <;> exact ⟨_, rfl⟩

/-- Under the invariant the sequencer never stops: a panel command it stands at is one of R110, and a transaction it stands
at is legal with a byte at the framer's position. -/
theorem Inv.sequence_next {s : State} (h : Inv s) : ∃ t, s.sequence exec = .next t := by
  cases hs : s.seq with
  | nil => exact ⟨_, sequence_idle hs⟩
  | cons st rest =>
  cases st with
  | fetch =>
    cases hd : decodeCmd s.latchedWord with
    | ok i =>
      rw [sequence_fetch hs hd]
      exact exec_next i _
    | error r => exact ⟨_, sequence_fetch_reserved hs hd⟩
  | panel c =>
    obtain ⟨⟨i, hd⟩, -⟩ := seqOk_cons h.seq hs (by simp) (by simp) (by simp) (by simp)
    rw [sequence_panel hs hd]
    exact exec_next i _
  | txn p =>
    obtain ⟨⟨hp, -⟩, -⟩ := seqOk_cons h.seq hs (by simp) (by simp) (by simp) (by simp)
    rw [sequence_txn hs]
    exact txnStep_next rest hp (h.wires.inside p rest hs)
  | rst v => exact ⟨_, sequence_rst hs⟩
  | delay n => exact ⟨_, sequence_delay hs⟩
  | countdown => exact ⟨_, sequence_countdown hs⟩
  | waitIdle => exact ⟨_, sequence_waitIdle hs⟩
  | sample => exact ⟨_, sequence_sample hs⟩
  | rowLoop => exact ⟨_, sequence_rowLoop hs⟩
  | setDisplaying => exact ⟨_, sequence_setDisplaying hs⟩
  | finish f => exact ⟨_, sequence_finish hs⟩

/-- Settles O23: the sequencer goes on by `Inv.sequence_next`, which the schedule does not touch; every other input answers
a next state in any state. -/
theorem invariantStatesNeverStop : Obligations.InvariantStatesNeverStop := by
  intro s h
  cases hi : s.inputs with
  | nil =>
    rw [step_seq hi]
    exact h.sequence_next
  | cons i more =>
    rw [step_input hi]
    cases i with
    | seqStep => exact Inv.sequence_next (h.congr rfl)
    | hostRead | hostWrite | hostPoll | panelBusy | blockReset => exact ⟨_, rfl⟩

/-! ## What the outside cannot disturb (20_memory.md R80, R87; 10_state.md R39, R40) -/

/-- Settles O29: the sequencer keeps the operands by its frame, a host write is refused while BUSY = 1, and a read, a poll
and a move of BUSY touch no operand. -/
theorem operandsFixedWhileBusy : Obligations.OperandsFixedWhileBusy := by
  intro s t ht hb hr
  rcases step_cases ht with ⟨more, -, hseq⟩ | ⟨a, more, -, rfl⟩ | ⟨a, v, more, -, rfl⟩ | ⟨a, more, -, rfl⟩ |
    ⟨v, more, -, rfl⟩ | ⟨more, hi, -⟩
  · have hf := sequence_frame hseq
    exact ⟨hf.arg0, hf.arg1, hf.arg2, hf.arg3, hf.list, hf.op, hf.imm⟩
  · exact ⟨rfl, rfl, rfl, rfl, rfl, rfl, rfl⟩
  · rw [hostWrite_busy (s := { s with inputs := more }) hb a v]
    exact ⟨rfl, rfl, rfl, rfl, rfl, rfl, rfl⟩
  · exact ⟨rfl, rfl, rfl, rfl, rfl, rfl, rfl⟩
  · exact ⟨rfl, rfl, rfl, rfl, rfl, rfl, rfl⟩
  · exact absurd hi (hr more)

/-- Settles O57: each access by its step's rule; BUSYIN is bit 17 of STATUS. -/
theorem hostAccessesDoNotDisturb : Obligations.HostAccessesDoNotDisturb := by
  refine ⟨fun s a more hi => ?_, fun s a more hi => ?_, fun s a v more hb hi => ?_, fun s v more hi => ?_⟩
  · exact ⟨_, step_hostRead hi, rfl, _, rfl⟩
  · exact ⟨_, _, step_input hi, step_scheduled s (.hostRead a) more, hostPoll_frame _ a⟩
  · refine ⟨_, step_hostWrite hi, ?_⟩
    rw [hostWrite_busy hb]
  · obtain ⟨-, -, -, -, -, -, -, -, hbusyIn, -⟩ := statusWord_fields { s with inputs := more, busyIn := v }
    exact ⟨_, step_input hi, rfl, hbusyIn⟩

end Sys2Proof.Machine

namespace Sys2Proof.Machine

/-! ## The encoding tables (30_encoding.md R100 to R110) -/

/-- A CMD word built of OP and IMM decodes by those two fields (R100, R106). -/
theorem decode_cmdWordOf (op imm : Byte) : decode (.cmdWord (cmdWordOf op imm)) = decodeOp op imm :=
  decodeCmd_cmdWordOf op imm

/-- Settles O1: a CMD word by its two fields, with a flag read back from its IMM; a panel command by its byte. -/
theorem decodeOfEncode : Obligations.DecodeOfEncode := by
  intro i _
  cases i with
  | init p => simp [encode, decode_cmdWordOf, decodeOp, modeOfFlag_modeImm]
  | clearFrame col | setPixel col | fill col => simp [encode, decode_cmdWordOf, decodeOp, colourOfFlag_colourImm]
  | sendCmd | sendData | sendDataList | sendDataBuf | sendCmdData | setFrameFull | setFrameRect | displayFrame | sleep
  | getPixel | getWidth | getHeight => exact decode_cmdWordOf _ _
  | driverOutputControl | boosterSoftStart | dataEntryMode | vcom | lutUpload | dummyLinePeriod | gateTime
  | addressWindowX | addressWindowY | cursorX | cursorY | activate | displayUpdateControl | writeRam
  | deepSleep => rfl

/-- The bit an operation with a flag reads of IMM (R102). -/
theorem imm_and_one (imm : Byte) : imm &&& 1 = if flagOf imm then 1 else 0 := by
  have h : imm &&& 1 = (BitVec.ofBool (imm.getLsbD 0)).setWidth 8 := BitVec.and_one_eq_setWidth_ofBool_getLsbD
  rw [h, flagOf]
  cases imm.getLsbD 0 <;> rfl

theorem colourImm_colourOfFlag (imm : Byte) : colourImm (colourOfFlag (flagOf imm)) = imm &&& 1 := by
  rw [imm_and_one]
  cases flagOf imm <;> rfl

theorem modeImm_modeOfFlag (imm : Byte) : modeImm (modeOfFlag (flagOf imm)) = imm &&& 1 := by
  rw [imm_and_one]
  cases flagOf imm <;> rfl

/-- `0xFF` is all of IMM. -/
theorem imm_and_all (imm : Byte) : imm &&& 0xFF#8 = imm := BitVec.and_allOnes

/-- The encoder gives back OP and the bits of IMM that the operation reads. -/
theorem encode_of_decodeOp {op imm : Byte} {i : Instr} (h : decodeOp op imm = .ok i) :
    encode i = .cmdWord (cmdWordOf op (imm &&& immRead i)) := by
  rcases op_of_decodeOp h with ⟨rfl, rfl⟩ | ⟨rfl, rfl⟩ | ⟨rfl, rfl⟩ | ⟨rfl, rfl⟩ | ⟨rfl, rfl⟩ | ⟨rfl, rfl⟩ |
    ⟨rfl, rfl⟩ | ⟨rfl, rfl⟩ | ⟨rfl, rfl⟩ | ⟨rfl, rfl⟩ | ⟨rfl, rfl⟩ | ⟨rfl, rfl⟩ | ⟨rfl, rfl⟩ | ⟨rfl, rfl⟩ |
    ⟨rfl, rfl⟩ | ⟨rfl, rfl⟩ <;>
    simp [encode, immRead, imm_and_all, colourImm_colourOfFlag, modeImm_modeOfFlag]

theorem encode_of_decodePanel {b : Byte} {i : Instr} (h : decodePanel b = .ok i) : encode i = .panelByte b := by
  unfold decodePanel at h
  split at h <;> cases h <;>
    (rename_i hb
     exact congrArg CodeUnit.panelByte (BitVec.eq_of_toNat_eq hb.symm))

/-- Settles O2: a CMD word by `encode_of_decodeOp` at its own fields, a panel command by its byte. -/
theorem encodeOfDecode : Obligations.EncodeOfDecode :=
  ⟨fun _ _ h => encode_of_decodeOp h, fun _ _ h => encode_of_decodePanel h⟩

/-- An OP outside the table of R105 is one of R107, and conversely. -/
theorem decodeOp_error_iff (op imm : Byte) : (∃ r, decodeOp op imm = .error r) ↔ IsReservedOp op := by
  unfold decodeOp IsReservedOp
  constructor
  · rintro ⟨r, h⟩
    split at h <;> cases h
    -- the last arm's hypotheses, as inequalities
    simp only [imp_false] at *
    omega
  · intro hr
    split
    case h_17 => exact ⟨_, rfl⟩
    all_goals omega

/-- Settles O3: the decoder rejects exactly the OP values of R107, and the fetch of a rejected word raises BAD_OP. -/
theorem reservedOpRaisesBadOp : Obligations.ReservedOpRaisesBadOp := by
  refine ⟨fun w => decodeOp_error_iff _ _, fun s rest hi hs hr => ?_⟩
  obtain ⟨r, hd⟩ := (decodeOp_error_iff s.op s.imm).2 hr
  rw [step_seq hi, sequence_fetch_reserved hs ((decodeCmd_cmdWordOf _ _).trans hd)]
  rfl

/-- Settles O4: the decoder evaluated at each word. -/
theorem tableWordsDecode : Obligations.TableWordsDecode := by
  unfold Obligations.TableWordsDecode
  decide

/-! ## From a CMD write to the operation's meaning (30_encoding.md R101, R115) -/

/-- Settles O6: the sequencer's two decoding steps, reached with nothing scheduled or by a scheduled `seqStep`. -/
theorem stepRunsTheDecodedInstruction : Obligations.StepRunsTheDecodedInstruction := by
  intro s rest i more hdec
  have hrun : ∀ u : State, u.seq = s.seq → u.latchedWord = s.latchedWord →
      u.sequence exec = exec i { u with seq := rest } := by
    intro u hseq hword
    rcases hdec with ⟨hs, hd⟩ | ⟨c, hs, hd⟩
    · exact sequence_fetch (hseq.trans hs) (hword ▸ hd)
    · exact sequence_panel (hseq.trans hs) hd
  exact ⟨fun hi => (step_seq hi).trans (hrun s rfl rfl), fun hi => (step_input hi).trans (hrun _ rfl rfl)⟩

/-- A CMD write with BUSY = 0 is accepted. -/
theorem hostWrite_cmd {s : State} {a : Half} {v : Word} (hb : s.busy = false) (hw : a.toNat / 4 = 2) :
    s.hostWrite a v = s.acceptCmd v := by
  have ht : target a = .cmd := target_eq hw
  rw [State.hostWrite, ht]
  simp [State.writeTarget, State.refusedIfBusy, hb]

/-- Settles O7: the accepted write, through the host port. -/
theorem cmdWriteStartsAnOperation : Obligations.CmdWriteStartsAnOperation := by
  intro s a w more hw hb hi
  rw [step_hostWrite hi, hostWrite_cmd hb hw]
  rfl

/-! ### The expansions of R115 that start an operation -/

/-- The argument writes of a pseudo-instruction, as (number of the register, word written). -/
def Pseudo.argWords : Pseudo → List (Fin 4 × Word)
  | .sendDataList n | .sendCmdData _ n => [(0, .ofNat 32 n)]
  | .sendDataBuf off len => [(0, .ofNat 32 off), (1, .ofNat 32 len)]
  | .setFrameRect xs ys xe ye => [(0, int16Word xs), (1, int16Word ys), (2, int16Word xe), (3, int16Word ye)]
  | .setPixel x y _ | .getPixel x y => [(0, int16Word x), (1, int16Word y)]
  | .sendCmd _ | .sendData _ | .list _ _ | .init _ | .setFrameFull | .clearFrame _ | .displayFrame | .sleep | .fill _
  | .getWidth | .getHeight | .wait | .clrOvr => []

/-- `WR` of an argument register. -/
def argWrite (x : Fin 4 × Word) : HostAccess := .wr (.ofNat 16 (0x0010 + 4 * x.1)) x.2

/-- `s` after a list of argument writes. -/
def State.setArgs (s : State) : List (Fin 4 × Word) → State
  | [] => s
  | x :: l => (s.setArg (x.2.extractLsb' 0 16) x.1).setArgs l

/-- The expansion of a pseudo-instruction that starts an operation: its argument writes, then the CMD word of that
operation as the encoder has it. -/
theorem expand_eq {p : Pseudo} {i : Instr} (h : Pseudo.instr p = some i) :
    ∃ op imm, encode i = .cmdWord (cmdWordOf op imm) ∧
      Pseudo.expand p = (Pseudo.argWords p).map argWrite ++ [wrCmd op imm] := by
  cases p <;> cases h <;> exact ⟨_, _, rfl, rfl⟩

@[simp] theorem setArg_busy (s : State) (v : Half) (k : Fin 4) : (s.setArg v k).busy = s.busy := by fin_cases k <;> rfl

@[simp] theorem setArgs_busy (s : State) (l : List (Fin 4 × Word)) : (s.setArgs l).busy = s.busy := by
  induction l generalizing s with
  | nil => rfl
  | cons x l ih => rw [State.setArgs, ih, setArg_busy]

/-- The argument registers stand at words 4 to 7 (10_state.md R31). -/
theorem argWrite_word (k : Fin 4) : (BitVec.ofNat 16 (0x0010 + 4 * k)).toNat / 4 = 4 + k := by
  revert k
  decide

/-- A scheduled host write acts on the state with the rest of the schedule. -/
theorem step_hostWrite_scheduled (s : State) (a : Half) (v : Word) (more : List Input) :
    step { s with inputs := .hostWrite a v :: more } = .next { s.hostWrite a v with inputs := more } := by
  rw [step_scheduled, State.input, hostWrite_inputs_comm]

/-- Argument writes on an idle block, one after the other. -/
theorem reaches_setArgs {s : State} (hb : s.busy = false) (l : List (Fin 4 × Word)) (more : List Input) :
    Reaches { s with inputs := (l.map argWrite).map accessInput ++ more } { s.setArgs l with inputs := more } := by
  induction l generalizing s with
  | nil => exact Reaches.refl _
  | cons x l ih =>
    refine Reaches.head (step_hostWrite_scheduled _ _ _ _) ?_
    rw [hostWrite_arg hb (argWrite_word x.1)]
    exact ih (by simp [hb])

/-- The whole expansion on an idle block leaves the sequencer before the fetch of the CMD word. -/
theorem reaches_acceptCmd {s : State} (hb : s.busy = false) (l : List (Fin 4 × Word)) (op imm : Byte)
    (hi : s.inputs = (l.map argWrite ++ [wrCmd op imm]).map accessInput) :
    Reaches s { (s.setArgs l).acceptCmd (cmdWordOf op imm) with inputs := [] } := by
  have hargs := reaches_setArgs hb l [accessInput (wrCmd op imm)]
  rw [← List.map_singleton, ← List.map_append, ← hi] at hargs
  refine hargs.trans (Reaches.step ?_)
  rw [List.map_singleton, wrCmd, accessInput, step_hostWrite_scheduled, hostWrite_cmd (by simp [hb]) (by decide)]

@[simp] theorem latchedWord_acceptCmd (s : State) (op imm : Byte) :
    (s.acceptCmd (cmdWordOf op imm)).latchedWord = cmdWordOf op imm := by
  simp [State.latchedWord]

/-! ### The operands read back (R103, R104) -/

theorem zext16_ofNat {n : Nat} (h : IsUInt16 n) : zext16 ((BitVec.ofNat 32 n).extractLsb' 0 16) = n := by
  rw [zext16, BitVec.extractLsb'_toNat, BitVec.toNat_ofNat]
  simp only [IsUInt16] at h
  omega

theorem sext16_int16Word {v : Int} (h : IsInt16 v) : sext16 ((int16Word v).extractLsb' 0 16) = v := by
  obtain ⟨hlo, hhi⟩ := h
  rw [sext16, int16Word, BitVec.toInt_eq_toNat_bmod, BitVec.extractLsb'_toNat, BitVec.toNat_ofInt,
    Int.bmod_def]
  omega

/-- The argument writes of a well-formed pseudo-instruction leave its operands where the operation reads them. -/
theorem operandsIn_setArgs {p : Pseudo} (h : p.WellFormed) (s : State) :
    Pseudo.OperandsIn (s.setArgs (Pseudo.argWords p)) p := by
  cases p with
  | sendDataList n | sendCmdData c n => exact zext16_ofNat h
  | sendDataBuf off len => exact ⟨zext16_ofNat h.1, zext16_ofNat h.2⟩
  | setFrameRect xs ys xe ye =>
    obtain ⟨hxs, hys, hxe, hye⟩ := h
    exact (Rect.mk.injEq ..).mpr
      ⟨sext16_int16Word hxs, sext16_int16Word hys, sext16_int16Word hxe, sext16_int16Word hye⟩
  | setPixel x y col | getPixel x y => exact ⟨sext16_int16Word h.1, sext16_int16Word h.2⟩
  | sendCmd | sendData | list | init | setFrameFull | clearFrame | displayFrame | sleep | fill | getWidth | getHeight
  | wait | clrOvr => trivial

/-- Operands are read of the argument registers alone. -/
theorem operandsIn_acceptCmd {p : Pseudo} {s : State} (h : Pseudo.OperandsIn s p) (w : Word) :
    Pseudo.OperandsIn { s.acceptCmd w with inputs := [] } p := by
  cases p <;> exact h

/-- Settles O5: the argument writes, the CMD write, and decoding what the encoder wrote (O1). -/
theorem pseudoInstructionsStartTheirOperation : Obligations.PseudoInstructionsStartTheirOperation := by
  intro s p i hp hinstr hb hi
  obtain ⟨op, imm, henc, hexp⟩ := expand_eq hinstr
  rw [hexp] at hi
  have hdec : decode (.cmdWord ((s.setArgs (Pseudo.argWords p)).acceptCmd (cmdWordOf op imm)).latchedWord) = .ok i := by
    rw [latchedWord_acceptCmd, ← henc]
    exact decodeOfEncode i trivial
  exact ⟨_, reaches_acceptCmd hb _ op imm hi, rfl, rfl, rfl, hdec, operandsIn_acceptCmd (operandsIn_setArgs hp s) _⟩

/-! ## Command bytes on the bus (30_encoding.md R110, R111) -/

/-- The framer records the byte at its position, at that byte's last falling edge. -/
theorem txnStep_byte_event {s t : State} {p : Payload} {rest : List SeqStep} {x : Level × Byte}
    (ht : txnStep p rest s = .next t) (hx : t.trace = s.trace ++ [.byte x.1 x.2]) :
    payloadByte s p s.byteCnt = .ok x := by
  unfold txnStep at ht
  cases hph : s.phase <;> simp only [hph] at ht
  case fall =>
    split at ht
    · cases hy : payloadByte s p s.byteCnt with
      | ok y =>
        rw [hy] at ht
        cases ht
        obtain ⟨hdc, hbyte⟩ : y.1 = x.1 ∧ y.2 = x.2 := by simpa using hx
        rw [Prod.ext hdc hbyte]
      | error f => rw [hy] at ht; cases ht
    · cases ht; simp at hx
  case dcSet | mosi => split at ht <;> cases ht; simp at hx
  case csLow | rise | trail | csHigh => cases ht; simp at hx

/-- A BYTE event comes from the sequencer standing at a transaction, and is the byte at the framer's position. -/
theorem sequence_byte_event {s t : State} {x : Level × Byte} (ht : s.sequence exec = .next t)
    (hx : t.trace = s.trace ++ [.byte x.1 x.2]) :
    ∃ p rest, s.seq = .txn p :: rest ∧ payloadByte s p s.byteCnt = .ok x := by
  have silent : ∀ {i rest}, exec i { s with seq := rest } = .next t → t.trace = s.trace := by
    intro i rest he
    rcases exec_cases i { s with seq := rest } with
      ⟨e, -, h⟩ | ⟨-, h⟩ | ⟨c, ps, h⟩ | ⟨col, -, h⟩ | ⟨col, -, h⟩ | ⟨v, -, h⟩ <;>
      rw [h] at he <;> cases he <;> rfl
  cases hs : s.seq with
  | nil => rw [sequence_idle hs] at ht; cases ht; simp at hx
  | cons st rest =>
  cases st with
  | fetch =>
    cases hd : decodeCmd s.latchedWord with
    | error r => rw [sequence_fetch_reserved hs hd] at ht; cases ht; simp at hx
    | ok i => rw [sequence_fetch hs hd] at ht; simp [silent ht] at hx
  | panel c =>
    cases hd : decodePanel c with
    | error r => simp [State.sequence, hs, hd] at ht
    | ok i => rw [sequence_panel hs hd] at ht; simp [silent ht] at hx
  | txn p =>
    rw [sequence_txn hs] at ht
    exact ⟨p, rest, rfl, txnStep_byte_event ht hx⟩
  | rst v => rw [sequence_rst hs] at ht; cases ht; simp at hx
  | delay n => rw [sequence_delay hs] at ht; cases ht; simp at hx
  | countdown => rw [sequence_countdown hs] at ht; cases ht; unfold countdownStep at hx; split at hx <;> simp at hx
  | waitIdle => rw [sequence_waitIdle hs] at ht; cases ht; simp at hx
  | sample => rw [sequence_sample hs] at ht; cases ht; unfold sampleStep at hx; split at hx <;> simp at hx
  | rowLoop => rw [sequence_rowLoop hs] at ht; cases ht; unfold rowLoopStep at hx; split at hx <;> simp at hx
  | setDisplaying => rw [sequence_setDisplaying hs] at ht; cases ht; simp at hx
  | finish f => rw [sequence_finish hs] at ht; cases ht; cases f <;> simp [State.finish] at hx

/-- A command byte of a transaction is the host's own or a panel command. -/
theorem commandsKnown_content {s : State} {p : Payload} {op b : Byte} (hp : p.CommandsKnown op)
    (hb : (false, b) ∈ p.content s) : (op = 0x01 ∨ op = 0x05) ∨ ∃ i, decodePanel b = .ok i := by
  cases p with
  | bytes l =>
    rcases hp with hop | hknown
    · exact .inl (.inl hop)
    · exact .inr (hknown _ hb rfl)
  | cmdList c n => exact .inl (.inr hp)
  | listData n => simp [Payload.content] at hb
  | fbData base len => simp [Payload.content] at hb
  | repeated v n => simp [Payload.content] at hb

/-- A step that adds a BYTE event is the sequencer's: the host and the panel emit none, and block reset only lets lines
return to 1. -/
theorem step_byte_event {s t : State} {x : Level × Byte} (ht : step s = .next t)
    (hx : t.trace = s.trace ++ [.byte x.1 x.2]) :
    ∃ p rest, s.seq = .txn p :: rest ∧ payloadByte s p s.byteCnt = .ok x := by
  rcases step_cases ht with ⟨more, -, hseq⟩ | ⟨a, more, -, rfl⟩ | ⟨a, v, more, -, rfl⟩ | ⟨a, more, -, rfl⟩ |
    ⟨v, more, -, rfl⟩ | ⟨more, -, rfl⟩
  · obtain ⟨p, rest, hs, hb⟩ := sequence_byte_event hseq hx
    exact ⟨p, rest, hs, (payloadByte_congr p _ rfl rfl rfl rfl).symm.trans hb⟩
  · simp at hx
  · obtain ⟨u, hu, hframe⟩ := hostWrite_frame { s with inputs := more } a v
    rw [hu, hframe] at hx
    simp at hx
  · simp at hx
  · simp at hx
  · simp only [blockReset_trace, List.append_cancel_left_eq, State.resetEvents] at hx
    split at hx <;> split at hx <;> simp at hx

/-- Settles O30: the byte is one of a transaction the invariant knows the command bytes of. -/
theorem onlyPanelCommandsAreSent : Obligations.OnlyPanelCommandsAreSent := by
  intro s t b h ht hx
  obtain ⟨p, rest, hs, hb⟩ := step_byte_event (x := (false, b)) ht hx
  obtain ⟨⟨hlegal, hknown⟩, -⟩ := seqOk_cons h.seq hs (by simp) (by simp) (by simp) (by simp)
  have hk : s.byteCnt < p.length := by
    by_contra hk
    simp [payloadByte, hk] at hb
  rw [payloadByte_content hlegal hk] at hb
  exact commandsKnown_content hknown (Except.ok.inj hb ▸ List.getElem_mem _)

/-! ## LIST, CLROVR and WAIT (30_encoding.md R115) -/

/-- The sequencer never starts an operation. -/
theorem sequence_keeps_idle {s t : State} (ht : s.sequence exec = .next t) (hb : s.busy = false) : t.busy = false := by
  rcases sequence_status ht with ⟨-, -, -, hbusy, -⟩ | ⟨rest, -, rfl⟩ | ⟨f, rest, -, rfl⟩ |
    ⟨rest, -, -, -, hbusy, -⟩
  · exact hbusy.trans hb
  · exact hb
  · exact finish_busy s f
  · exact hbusy

/-- With nothing scheduled and BUSY = 0, a run keeps BUSY at 0 and makes no read. -/
theorem run_keeps_idle {n : Nat} {s u : State} (hu : run n s = .next u) (hi : s.inputs = []) (hb : s.busy = false) :
    u.busy = false ∧ u.reads = s.reads := by
  induction n generalizing s with
  | zero => cases hu; exact ⟨hb, rfl⟩
  | succ n ih =>
    cases ht : step s with
    | next t =>
      have hseq : s.sequence exec = .next t := (step_seq hi).symm.trans ht
      have hf := sequence_frame hseq
      rw [run_succ ht] at hu
      obtain ⟨hbusy, hreads⟩ := ih hu (hf.inputs.trans hi) (sequence_keeps_idle hseq hb)
      exact ⟨hbusy, hreads.trans hf.reads⟩
    | fault r => simp [run, ht] at hu
    | refused r => simp [run, ht] at hu

/-- What a WAIT adds to the record of reads: reads of STATUS alone, all with bit 0 = 1 but the last. -/
def WaitReads (old new : List (Half × Word)) : Prop :=
  ∃ l v, new = old ++ l ++ [(0x0004, v)] ∧ v.getLsbD 0 = false ∧ ∀ x ∈ l, x.1 = 0x0004 ∧ x.2.getLsbD 0 = true

/-- One more read with bit 0 = 1 before the others. -/
theorem WaitReads.cons {old new : List (Half × Word)} {w : Word} (hw : w.getLsbD 0 = true)
    (h : WaitReads (old ++ [(0x0004, w)]) new) : WaitReads old new := by
  obtain ⟨l, v, rfl, hv, hl⟩ := h
  refine ⟨(0x0004, w) :: l, v, by simp, hv, fun x hx => ?_⟩
  rcases List.mem_cons.1 hx with rfl | hx
  · exact ⟨rfl, hw⟩
  · exact hl x hx

/-- A run that uses up a schedule of a WAIT, about to read or about to let the sequencer move, has read STATUS until
BUSY = 0. -/
theorem run_wait {n : Nat} {s u : State} (hi : s.inputs = [.hostPoll 0x0004] ∨ s.inputs = [.seqStep, .hostPoll 0x0004])
    (hu : run n s = .next u) (hend : u.inputs = []) : u.busy = false ∧ WaitReads s.reads u.reads := by
  induction n generalizing s with
  | zero => cases hu; simp [hend] at hi
  | succ n ih =>
    rcases hi with hi | hi
    · cases hb : s.busy with
      | true =>
        rw [run_succ (step_poll_busy hi hb)] at hu
        obtain ⟨hidle, hreads⟩ := ih (.inr rfl) hu
        exact ⟨hidle, hreads.cons ((statusWord_bit0 s).trans hb)⟩
      | false =>
        rw [run_succ (step_poll_idle hi hb)] at hu
        obtain ⟨hidle, hreads⟩ := run_keeps_idle hu rfl hb
        exact ⟨hidle, [], s.statusWord, by simp [hreads], (statusWord_bit0 s).trans hb, by simp⟩
    · cases ht : step s with
      | next t =>
        have hf := sequence_frame ((step_input hi).symm.trans ht)
        rw [run_succ ht] at hu
        obtain ⟨hidle, hreads⟩ := ih (.inl hf.inputs) hu
        exact ⟨hidle, hf.reads ▸ hreads⟩
      | fault r => simp [run, ht] at hu
      | refused r => simp [run, ht] at hu

/-- Where the sequencer alone ends an operation, a WAIT beside it ends: between two reads the sequencer takes the step
it takes alone, which sees neither the schedule nor the record of reads. -/
theorem wait_ends {n : Nat} {s u : State} {r r' : List (Half × Word)} (hu : run n (s.withHost [] r) = .next u)
    (hb : u.busy = false) : ∃ t, Reaches (s.withHost [.hostPoll 0x0004] r') t ∧ t.inputs = [] := by
  induction n generalizing s r r' with
  | zero =>
    cases hu
    exact ⟨_, Reaches.step (step_poll_idle rfl hb), rfl⟩
  | succ n ih =>
    cases hbusy : s.busy with
    | false => exact ⟨_, Reaches.step (step_poll_idle rfl hbusy), rfl⟩
    | true =>
      cases ht : s.sequence exec with
      | next t =>
        have alone : step (s.withHost [] r) = .next (t.withHost [] r) := by
          rw [step_seq rfl, sequence_withHost, ht]
          rfl
        have beside : ∀ q, step (s.withHost [.seqStep, .hostPoll 0x0004] q) = .next (t.withHost [.hostPoll 0x0004] q) := by
          intro q
          refine (step_input (i := .seqStep) rfl).trans ((sequence_withHost s [.hostPoll 0x0004] q).trans ?_)
          rw [ht]
          rfl
        rw [run_succ alone] at hu
        obtain ⟨v, hv, hend⟩ := ih hu
        exact ⟨v, Reaches.head (step_poll_busy rfl hbusy) (Reaches.head (beside _) hv), hend⟩
      | fault f => simp [run, step_seq (s := s.withHost [] r) rfl, sequence_withHost, ht, withHostNext] at hu
      | refused f => simp [run, step_seq (s := s.withHost [] r) rfl, sequence_withHost, ht, withHostNext] at hu

/-- LIST's entries stand at words 0x40 to 0x7F (10_state.md R31). -/
theorem listWrite_word {i : Nat} (hi : i < 64) : (BitVec.ofNat 16 (0x0100 + 4 * i)).toNat / 4 = 0x40 + i := by
  rw [BitVec.toNat_ofNat]
  omega

/-- Settles O59: LIST is the accepted write of O13, CLROVR a STATUS write with bit 16 = 1, and WAIT a poll of STATUS. -/
theorem pseudoInstructionsOfTheHost : Obligations.PseudoInstructionsOfTheHost := by
  refine ⟨fun s i b more hlt hb hi => ?_, fun s more hi => ?_, fun s more hi hb => step_poll_idle hi hb,
    fun s u n hi hu hend => run_wait (.inl hi) hu hend, fun s u n hi hu hb => ?_⟩
  · obtain ⟨write, -, -⟩ := listBuffer
    have hbyte : (b.setWidth 32).extractLsb' 0 8 = b := by
      rw [← BitVec.setWidth_eq_extractLsb' (by decide), BitVec.setWidth_setWidth_of_le _ (by decide), BitVec.setWidth_eq]
    simpa only [hbyte] using write s _ _ more i hb hlt (listWrite_word hlt) hi
  · rw [step_hostWrite hi, hostWrite_status (by decide)]
    rfl
  · have hpoll : s.inputs = [.hostPoll 0x0004] := hi
    have hs : s.withHost [.hostPoll 0x0004] s.reads = s := by rw [State.withHost, ← hpoll]
    obtain ⟨t, ⟨m, hm⟩, hend⟩ := wait_ends (r' := s.reads) (s := s) (r := s.reads) hu hb
    exact ⟨t, m, hs ▸ hm, hend⟩

end Sys2Proof.Machine

namespace Sys2Proof.Machine

/-! ## A transaction of the sequencer, step by wire step (40_bus_framer.md R131 to R133) -/

section Wire
variable {s : State} {p : Payload} {rest : List SeqStep} {x : Level × Byte}

/-- The state in front of bit `7 - i` of the byte `x` whose first step is `s`: `i` bits have been shifted out, two
half-periods each, and the last one is still on MOSI. -/
def State.beforeBit (s : State) (x : Level × Byte) (i : Nat) : State :=
  { s with
    dc := x.1
    mosi := if i = 0 then s.mosi else x.2.getLsbD (8 - i)
    sclk := false
    bitCnt := 7 - i
    phase := .mosi
    busTime := s.busTime + 2 * i * s.cfg.sclkDiv }

/-- Bit `7 - i` is on MOSI, SCLK still low. -/
def State.bitSet (s : State) (x : Level × Byte) (i : Nat) : State :=
  { s.beforeBit x i with
    mosi := x.2.getLsbD (7 - i)
    phase := .rise
    busTime := s.busTime + (2 * i + 1) * s.cfg.sclkDiv }

/-- SCLK has risen on bit `7 - i`. -/
def State.bitRisen (s : State) (x : Level × Byte) (i : Nat) : State :=
  { s.bitSet x i with sclk := true, phase := .fall, busTime := s.busTime + (2 * i + 2) * s.cfg.sclkDiv }

theorem step_beforeBit (hi : s.inputs = []) (hs : s.seq = .txn p :: rest) (hx : payloadByte s p s.byteCnt = .ok x)
    (i : Nat) : step (s.beforeBit x i) = .next (s.bitSet x i) := by
  have hx' : payloadByte (s.beforeBit x i) p s.byteCnt = .ok x :=
    (payloadByte_congr p s.byteCnt rfl rfl rfl rfl).trans hx
  rw [step_mosi (s := s.beforeBit x i) hi hs rfl hx']
  simp only [State.beforeBit, State.bitSet]
  congr 2
  ring

theorem step_bitSet (hi : s.inputs = []) (hs : s.seq = .txn p :: rest) (i : Nat) :
    step (s.bitSet x i) = .next (s.bitRisen x i) := by
  rw [step_rise (s := s.bitSet x i) hi hs rfl]
  simp only [State.beforeBit, State.bitSet, State.bitRisen]
  congr 2
  ring

theorem step_bitRisen (hi : s.inputs = []) (hs : s.seq = .txn p :: rest) {i : Nat} (h7 : i < 7) :
    step (s.bitRisen x i) = .next (s.beforeBit x (i + 1)) := by
  have hb : (s.bitRisen x i).bitCnt = 7 - (i + 1) + 1 := by
    show 7 - i = _
    omega
  rw [step_fall (s := s.bitRisen x i) hi hs rfl hb]
  simp only [State.bitRisen, State.bitSet, State.beforeBit, if_neg (Nat.succ_ne_zero i), Nat.mul_add, Nat.reduceSubDiff]

/-- The first `i` bits of a byte take `3 * i` steps after the one that sets DC. -/
theorem run_beforeBit (hi : s.inputs = []) (hs : s.seq = .txn p :: rest) (hph : s.phase = .dcSet)
    (hsclk : s.sclk = false) (hx : payloadByte s p s.byteCnt = .ok x) {i : Nat} (h8 : i < 8) :
    run (3 * i + 1) s = .next (s.beforeBit x i) := by
  induction i with
  | zero =>
    rw [run_succ (step_dcSet hi hs hph hx)]
    simp [State.beforeBit, hsclk]
  | succ i ih =>
    have h3 : run 3 (s.beforeBit x i) = .next (s.beforeBit x (i + 1)) := by
      rw [run_succ (step_beforeBit hi hs hx i), run_succ (step_bitSet hi hs i),
        run_succ (step_bitRisen hi hs (by omega)), run_zero]
    rw [show 3 * (i + 1) + 1 = 3 * i + 1 + 3 by ring, run_add (ih (by omega)), h3]

end Wire

/-- Settles O35: each bit by its two steps `bitSet` and `bitRisen`; the last fall records the BYTE event. -/
theorem byteOnTheWires : Obligations.ByteOnTheWires := by
  intro s p rest dc b hi hs hph hsclk hx
  have hset : ∀ i, i < 8 → run (3 * i + 2) s = .next (s.bitSet (dc, b) i) := by
    intro i h8
    rw [run_add (run_beforeBit hi hs hph hsclk hx h8) 1, run_succ (step_beforeBit hi hs hx i), run_zero]
  have hrisen : ∀ i, i < 8 → run (3 * i + 3) s = .next (s.bitRisen (dc, b) i) := by
    intro i h8
    rw [run_add (hset i h8) 1, run_succ (step_bitSet hi hs i), run_zero]
  refine ⟨fun i h8 => ⟨_, _, hset i h8, hrisen i h8, rfl, rfl, rfl, rfl, rfl, rfl, rfl, rfl⟩, ?_⟩
  have hx' : payloadByte (s.bitRisen (dc, b) 7) p s.byteCnt = .ok (dc, b) :=
    (payloadByte_congr p s.byteCnt rfl rfl rfl rfl).trans hx
  have hfall := step_fall_last (s := s.bitRisen (dc, b) 7) hi hs rfl rfl hx'
  have hrun := run_add (hrisen 7 (by omega)) 1
  rw [run_succ hfall, run_zero] at hrun
  exact ⟨_, hrun, rfl, rfl, rfl, rfl, rfl⟩

/-- Settles O36: CS(0), the bytes by `bytes_run`, the trailing wait and CS(1). -/
theorem transactionOnTheWires : Obligations.TransactionOnTheWires := by
  intro s p rest hi hs hph hp
  have hlen : 0 < (p.content s).length := by
    rw [content_length]
    exact Legal.length_pos hp
  refine Reaches.head (step_csLow hi hs hph) ?_
  refine Reaches.trans
    (bytes_run (p.content s) (p.content s).length _ hi hs rfl hp (content_congr p rfl rfl rfl) hlen rfl) ?_
  refine Reaches.head (step_trail hi hs rfl) ?_
  refine Reaches.head (step_csHigh hi hs rfl) ?_
  simp only [afterTxn]
  convert Reaches.refl _ using 2
  · simp [txnEvents]
  · ring

/-! ## The host operations of the framer (40_bus_framer.md R139 to R147) -/

/-- An operation of one transaction and a plain end emits the events of that transaction, ends by `done`, and changes
nothing else. -/
theorem txn_then_done {s : State} (h : Quiet s) {p : Payload} (hp : p.Legal s.cfg) :
    ∃ u, Reaches (s.load [.txn p, .finish .plain]) u ∧ EndedWith s u (txnEvents (p.content s)) s.pstate s.mode := by
  have hrun := transactionOnTheWires (s.load [.txn p, .finish .plain]) p [.finish .plain] h.inputs rfl rfl hp
  have hcontent : p.content (s.load [.txn p, .finish .plain]) = p.content s := content_congr p rfl rfl rfl
  rw [hcontent] at hrun
  refine ⟨_, hrun.trans (Reaches.step (Eq.trans (step_seq ?_) (sequence_finish rfl))), ?_⟩
  · exact h.inputs
  · exact
      { trace := rfl, pstate := rfl, mode := rfl, busy := rfl, wait := h.wait, err := rfl, seq := rfl, csN := rfl,
        sclk := rfl, rstN := h.rstN, ovr := rfl, busyIn := rfl, result := rfl, arg0 := rfl, arg1 := rfl, arg2 := rfl,
        arg3 := rfl, list := rfl, fb := rfl, op := rfl, imm := rfl, cfg := rfl, reads := rfl, inputs := rfl,
        resets := rfl, draws := rfl }

/-- OP alone selects the operation (30_encoding.md R106). -/
theorem decode_of_opField {w : Word} {op : Byte} (h : opField w = op) :
    decode (.cmdWord w) = decodeOp op (immField w) := by
  rw [← h]
  rfl

/-- Settles O37: each loads the transaction of its one byte, whatever the panel state. -/
theorem sendCmdAndSendData : Obligations.SendCmdAndSendData := by
  refine ⟨fun w hw => decode_of_opField hw, fun w hw => decode_of_opField hw, fun c s h => ?_, fun d s h => ?_⟩
  · obtain ⟨u, hu, hend⟩ := txn_then_done (p := .bytes [(false, c)]) h (List.cons_ne_nil _ _)
    exact ⟨_, u, rfl, hu, hend⟩
  · obtain ⟨u, hu, hend⟩ := txn_then_done (p := .bytes [(true, d)]) h (List.cons_ne_nil _ _)
    exact ⟨_, u, rfl, hu, hend⟩

/-- Settles O38: the check on n, then one transaction of LIST. -/
theorem sendDataList : Obligations.SendDataList := by
  refine ⟨fun w hw => decode_of_opField hw, fun s hn => if_pos hn, fun s h h1 h64 => ?_⟩
  obtain ⟨u, hu, hend⟩ := txn_then_done (p := .listData s.arg0.toNat) h ⟨h1, h64⟩
  have hn : ¬(zext16 s.arg0 = 0 ∨ listSize < zext16 s.arg0) := by
    simp only [zext16, listSize]
    omega
  exact ⟨_, u, if_neg hn, hu, hend⟩

/-- Settles O39: the two checks on the range, then one transaction of FB. -/
theorem sendDataBuf : Obligations.SendDataBuf := by
  refine ⟨fun w hw => decode_of_opField hw, fun s hbad => ?_, fun s h h1 hle => ?_⟩
  · by_cases h0 : zext16 s.arg1 = 0
    · exact if_pos h0
    · exact (if_neg h0).trans (if_pos (hbad.resolve_left h0))
  · obtain ⟨u, hu, hend⟩ := txn_then_done (p := .fbData s.arg0.toNat s.arg1.toNat) h ⟨h1, hle⟩
    have h0 : ¬zext16 s.arg1 = 0 := Nat.one_le_iff_ne_zero.1 h1
    have hin : ¬s.cfg.fbBytes < zext16 s.arg0 + zext16 s.arg1 := Nat.not_lt.2 hle
    exact ⟨_, u, (if_neg h0).trans (if_neg hin), hu, hend⟩

/-- Settles O40: the check on n, then ONE transaction of the command byte and LIST. -/
theorem sendCmdData : Obligations.SendCmdData := by
  refine ⟨fun w hw => decode_of_opField hw, fun c s hn => if_pos hn, fun c s h h64 => ?_⟩
  obtain ⟨u, hu, hend⟩ := txn_then_done (p := .cmdList c s.arg0.toNat) h h64
  have hevents : txnEvents (Payload.content s (.cmdList c s.arg0.toNat)) =
      [.cs false, .byte false c] ++ (s.listSlice s.arg0.toNat).map (.byte true) ++ [.cs true] := by
    simp [txnEvents, Payload.content]
  exact ⟨_, u, if_neg (Nat.not_lt.2 h64), hu, hevents ▸ hend⟩

/-! ## The bus lines (40_bus_framer.md R131 to R133) -/

/-- CS_N, SCLK, DC and MOSI stand still. -/
structure LinesKept (s t : State) : Prop where
  csN : t.csN = s.csN
  sclk : t.sclk = s.sclk
  dc : t.dc = s.dc
  mosi : t.mosi = s.mosi

/-- Every sequencer step outside a transaction keeps the bus lines. -/
theorem sequence_lines {s t : State} (ht : s.sequence exec = .next t) :
    (∃ p rest, s.seq = .txn p :: rest ∧ txnStep p rest s = .next t) ∨ LinesKept s t := by
  have meaning : ∀ {i rest}, exec i { s with seq := rest } = .next t → LinesKept s t := by
    intro i rest he
    rcases exec_cases i { s with seq := rest } with
      ⟨e, -, h⟩ | ⟨-, h⟩ | ⟨c, ps, h⟩ | ⟨col, -, h⟩ | ⟨col, -, h⟩ | ⟨v, -, h⟩ <;>
      rw [h] at he <;> cases he <;> exact ⟨rfl, rfl, rfl, rfl⟩
  cases hs : s.seq with
  | nil => rw [sequence_idle hs] at ht; cases ht; exact .inr ⟨rfl, rfl, rfl, rfl⟩
  | cons st rest =>
  cases st with
  | txn p => rw [sequence_txn hs] at ht; exact .inl ⟨p, rest, rfl, ht⟩
  | fetch =>
    cases hd : decodeCmd s.latchedWord with
    | error r => rw [sequence_fetch_reserved hs hd] at ht; cases ht; exact .inr ⟨rfl, rfl, rfl, rfl⟩
    | ok i => rw [sequence_fetch hs hd] at ht; exact .inr (meaning ht)
  | panel c =>
    cases hd : decodePanel c with
    | error r => simp [State.sequence, hs, hd] at ht
    | ok i => rw [sequence_panel hs hd] at ht; exact .inr (meaning ht)
  | rst v => rw [sequence_rst hs] at ht; cases ht; exact .inr ⟨rfl, rfl, rfl, rfl⟩
  | delay n => rw [sequence_delay hs] at ht; cases ht; exact .inr ⟨rfl, rfl, rfl, rfl⟩
  | countdown =>
    rw [sequence_countdown hs] at ht; cases ht
    unfold countdownStep; split <;> exact .inr ⟨rfl, rfl, rfl, rfl⟩
  | waitIdle => rw [sequence_waitIdle hs] at ht; cases ht; exact .inr ⟨rfl, rfl, rfl, rfl⟩
  | sample =>
    rw [sequence_sample hs] at ht; cases ht
    unfold sampleStep; split <;> exact .inr ⟨rfl, rfl, rfl, rfl⟩
  | rowLoop =>
    rw [sequence_rowLoop hs] at ht; cases ht
    unfold rowLoopStep; split <;> exact .inr ⟨rfl, rfl, rfl, rfl⟩
  | setDisplaying => rw [sequence_setDisplaying hs] at ht; cases ht; exact .inr ⟨rfl, rfl, rfl, rfl⟩
  | finish f =>
    rw [sequence_finish hs] at ht; cases ht
    exact .inr ⟨finish_csN s f, finish_sclk s f, finish_dc s f, finish_mosi s f⟩

/-- How the bus lines may move in one step: SCLK inside a transaction with DC and MOSI held, nothing while CS_N stays 1,
and CS_N with SCLK low. -/
structure LinesDisciplined (s t : State) : Prop where
  edge : t.sclk ≠ s.sclk → s.csN = false ∧ t.csN = false ∧ t.dc = s.dc ∧ t.mosi = s.mosi
  idle : s.csN = true → t.csN = true → t.sclk = s.sclk ∧ t.dc = s.dc ∧ t.mosi = s.mosi
  select : t.csN ≠ s.csN → s.sclk = false ∧ t.sclk = false

theorem LinesKept.disciplined {s t : State} (h : LinesKept s t) : LinesDisciplined s t :=
  ⟨fun hne => absurd h.sclk hne, fun _ _ => ⟨h.sclk, h.dc, h.mosi⟩, fun hne => absurd h.csN hne⟩

/-- SCLK low on both sides and CS_N 0 on one leaves DC, MOSI and CS_N free to move. -/
theorem linesDisciplined_of_sclk_low {s t : State} (hs : s.sclk = false) (ht : t.sclk = false)
    (hcs : s.csN = false ∨ t.csN = false) : LinesDisciplined s t := by
  refine ⟨fun hne => absurd (ht.trans hs.symm) hne, fun h1 h2 => ?_, fun _ => ⟨hs, ht⟩⟩
  rcases hcs with h | h
  · simp [h] at h1
  · simp [h] at h2

/-- An edge of SCLK with CS_N low on both sides and DC and MOSI held. -/
theorem linesDisciplined_of_edge {s t : State} (hs : s.csN = false) (ht : t.csN = s.csN) (hdc : t.dc = s.dc)
    (hmosi : t.mosi = s.mosi) : LinesDisciplined s t :=
  ⟨fun _ => ⟨hs, ht.trans hs, hdc, hmosi⟩, fun h1 => by simp [hs] at h1, fun hne => absurd ht hne⟩

/-- Each phase of a transaction: SCLK moves in `rise` and `fall` alone, and the other lines in the phases with SCLK low. -/
theorem txnStep_lines {s t : State} {p : Payload} {rest : List SeqStep} (h : WiresOk s)
    (ht : txnStep p rest s = .next t) : LinesDisciplined s t := by
  have selected : s.phase ≠ .csLow → s.csN = false := fun hne => Bool.eq_false_iff.2 (mt h.csN.1 hne)
  have low : s.phase ≠ .fall → s.sclk = false := fun hne => Bool.eq_false_iff.2 (mt h.sclk.1 hne)
  unfold txnStep at ht
  cases hph : s.phase <;> simp only [hph] at ht selected low
  case csLow =>
    cases ht
    exact linesDisciplined_of_sclk_low (low (by decide)) (low (by decide)) (.inr rfl)
  case dcSet | mosi =>
    split at ht <;> cases ht
    exact linesDisciplined_of_sclk_low (low (by decide)) (low (by decide)) (.inl (selected (by decide)))
  case rise =>
    cases ht
    exact linesDisciplined_of_edge (selected (by decide)) rfl rfl rfl
  case fall =>
    split at ht
    · split at ht <;> cases ht
      exact linesDisciplined_of_edge (selected (by decide)) rfl rfl rfl
    · cases ht
      exact linesDisciplined_of_edge (selected (by decide)) rfl rfl rfl
  case trail | csHigh =>
    cases ht
    exact linesDisciplined_of_sclk_low (low (by decide)) (low (by decide)) (.inl (selected (by decide)))

/-- Every step but block reset moves the bus lines as R131 to R133 say: the framer does so in each phase, and nothing
else moves them. -/
theorem step_lines {s t : State} (h : Inv s) (ht : step s = .next t) :
    (∃ more, s.inputs = .blockReset :: more ∧ t = ({ s with inputs := more } : State).blockReset) ∨
    LinesDisciplined s t := by
  rcases step_cases ht with ⟨more, -, hseq⟩ | ⟨a, more, -, rfl⟩ | ⟨a, v, more, -, rfl⟩ | ⟨a, more, -, rfl⟩ |
    ⟨v, more, -, rfl⟩ | hreset
  · have hwires : WiresOk { s with inputs := more } := (h.congr rfl).wires
    obtain ⟨edge, idle, select⟩ : LinesDisciplined { s with inputs := more } t := by
      rcases sequence_lines hseq with ⟨p, rest, -, htxn⟩ | hkept
      · exact txnStep_lines hwires htxn
      · exact hkept.disciplined
    exact .inr ⟨edge, idle, select⟩
  · exact .inr (LinesKept.disciplined ⟨rfl, rfl, rfl, rfl⟩)
  · obtain ⟨u, hu, hframe⟩ := hostWrite_frame { s with inputs := more } a v
    rw [hu, hframe]
    exact .inr (LinesKept.disciplined ⟨rfl, rfl, rfl, rfl⟩)
  · exact .inr (LinesKept.disciplined ⟨rfl, rfl, rfl, rfl⟩)
  · exact .inr (LinesKept.disciplined ⟨rfl, rfl, rfl, rfl⟩)
  · exact .inl hreset

/-- Settles O31: `LinesDisciplined` speaks of both edges of SCLK; block reset leaves SCLK low, so it raises none. -/
theorem clockOnlyInsideTransactions : Obligations.ClockOnlyInsideTransactions := by
  intro s t h ht
  rcases step_lines h ht with ⟨more, hi, rfl⟩ | ⟨edge, idle, select⟩
  · exact ⟨fun _ hrise => absurd hrise (by simp), fun hr => absurd hi (hr more)⟩
  · exact ⟨fun h0 h1 => edge (by simp [h0, h1]), fun _ => ⟨fun h1 h0 => edge (by simp [h0, h1]), idle, select⟩⟩

end Sys2Proof.Machine

namespace Sys2Proof.Machine

/-! ## The gate and the argument checks of the panel operations (41_panel_protocol.md R164, R175 to R178) -/

theorem PState.ready_iff (p : PState) : p.ready = true ↔ p = .initialized ∨ p = .displaying := by
  cases p <;> simp [PState.ready]

theorem gated_ready {s : State} (h : s.pstate = .initialized ∨ s.pstate = .displaying) (k : State) : gated s k = k :=
  if_pos ((PState.ready_iff _).2 h)

theorem gated_not_ready {s : State} (h : s.pstate = .uninitialized ∨ s.pstate = .asleep) (k : State) :
    gated s k = s.raise .notInit := by
  refine if_neg fun hr => ?_
  rcases (PState.ready_iff _).1 hr with hp | hp <;> simp [hp] at h

/-- Settles O33: each of the five meanings is `gated`, and the gate is closed. -/
theorem panelOperationsNeedInit : Obligations.PanelOperationsNeedInit := by
  intro s col i hp hi
  have closed : ∀ k : State, (.next (gated s k) : Host.Outcome State Fault Refusal) = .next (s.raise .notInit) :=
    fun k => congrArg _ (gated_not_ready hp k)
  simp only [List.mem_cons, List.not_mem_nil, or_false] at hi
  rcases hi with rfl | rfl | rfl | rfl | rfl <;> exact closed _

/-- Past the gate, SET_FRAME_RECT answers by its argument checks. -/
theorem exec_setFrameRect_ready {s : State} (h : s.pstate = .initialized ∨ s.pstate = .displaying) :
    exec .setFrameRect s =
      .next (if rectCheck s.cfg s.rect = .ok then s.load setFrameRectSteps else s.raise (rectCheck s.cfg s.rect)) := by
  rw [exec, execSetFrameRect, gated_ready h]
  cases rectCheck s.cfg s.rect <;> rfl

/-- The rounded rectangle has width 0 exactly when `xs = xe` is a multiple of 8 (R176, R178). -/
theorem Rect.width_eq_zero_iff {r : Rect} (h : r.xs ≤ r.xe) : r.width = 0 ↔ r.xs = r.xe ∧ r.xs % 8 = 0 := by
  simp only [Rect.width, Rect.xe8, Rect.xs8, ceil8, floor8]
  omega

/-- A rectangle in order exceeds the panel exactly when its right or its lower edge does: the tests of R178 on its width
and height follow. -/
theorem Rect.outOfBounds_iff {c : Config} {r : Rect} (h : ¬r.Malformed) :
    r.OutOfBounds c ↔ 8 * ((r.xe + 7) / 8) > c.width ∨ r.ye > c.height - 1 := by
  simp only [Rect.Malformed, Rect.OutOfBounds, Rect.width, Rect.height, Rect.xe8, Rect.xs8, ceil8, floor8] at *
  omega

/-- Settles O34: the chain of the statement is that of `rectCheck`, test by test. -/
theorem rectangleChecks : Obligations.RectangleChecks := by
  rintro s xs ys xe ye hp rfl rfl rfl rfl
  have raised : ∀ {e}, rectCheck s.cfg s.rect = e → e ≠ .ok → exec .setFrameRect s = .next (s.raise e) := by
    rintro e rfl he
    rw [exec_setFrameRect_ready hp, if_neg he]
  split_ifs with hm ho hw
  · exact raised (if_pos hm) (by decide)
  all_goals
    have hm : ¬s.rect.Malformed := hm
    have hbounds := Rect.outOfBounds_iff (c := s.cfg) hm
    have hwidth := Rect.width_eq_zero_iff (r := s.rect) (by unfold Rect.Malformed at hm; omega)
  · exact raised ((if_neg hm).trans (if_pos (hbounds.2 ho))) (by decide)
  · exact raised ((if_neg hm).trans ((if_neg (mt hbounds.1 ho)).trans (if_pos (hwidth.2 hw)))) (by decide)
  · have hok : rectCheck s.cfg s.rect = .ok :=
      (if_neg hm).trans ((if_neg (mt hbounds.1 ho)).trans (if_neg (mt hwidth.1 hw)))
    rw [exec_setFrameRect_ready hp, if_pos hok]
    exact ⟨_, rfl, rfl, by simp [setFrameRectSteps]⟩

/-! ## Queries and frames (41_panel_protocol.md R161, R198, R199) -/

/-- The parameters of R8 fit the 16-bit halves of GEOM. -/
theorem size_lt_of_wellFormed {c : Config} (h : c.WellFormed) : c.width < 65536 ∧ c.height < 65536 := by
  obtain ⟨-, ⟨-, hwidth⟩, ⟨-, hheight⟩, -⟩ := h
  refine ⟨by omega, hheight.trans_lt ?_⟩
  cases c.yAddrBytes <;> decide

/-- Settles O49: RESULT takes the low 16 bits of W or H, which hold all of it. -/
theorem geometryQueries : Obligations.GeometryQueries := by
  refine ⟨fun w hw => decode_of_opField hw, fun w hw => decode_of_opField hw, fun s hc => ?_⟩
  obtain ⟨hw, hh⟩ := size_lt_of_wellFormed hc
  obtain ⟨gw, gh⟩ := geomWord_fields hw hh
  have value : ∀ n, n < 65536 → (BitVec.ofNat 16 n).toNat = n := fun n hn => by
    rw [BitVec.toNat_ofNat, Nat.mod_eq_of_lt hn]
  exact ⟨⟨_, rfl, value _ hw, BitVec.eq_of_toNat_eq ((value _ hw).trans gw.symm)⟩,
    ⟨_, rfl, value _ hh, BitVec.eq_of_toNat_eq ((value _ hh).trans gh.symm)⟩⟩

/-- Settles O56: of the six answers a meaning can give, only SET_PIXEL's and FILL's have a new FB, and only the queries'
a new RESULT. -/
theorem meaningFrame : Obligations.MeaningFrame := by
  intro i s t ht
  rcases exec_cases i s with
    ⟨e, -, h⟩ | ⟨-, h⟩ | ⟨c, ps, h⟩ | ⟨col, rfl, h⟩ | ⟨col, rfl, h⟩ | ⟨v, hv, h⟩ <;>
    rw [h] at ht <;> cases ht
  · exact ⟨rfl, fun _ => rfl, fun _ => rfl⟩
  · exact ⟨rfl, fun _ => rfl, fun _ => rfl⟩
  · exact ⟨rfl, fun _ => rfl, fun _ => rfl⟩
  · exact ⟨rfl, fun hne => absurd rfl (hne col).1, fun _ => rfl⟩
  · exact ⟨rfl, fun hne => absurd rfl (hne col).2, fun _ => rfl⟩
  · refine ⟨rfl, fun _ => rfl, fun ⟨h1, h2, h3⟩ => ?_⟩
    rcases hv with rfl | rfl | rfl <;> contradiction

/-- Settles O26: PSTATE is written by `setDisplaying` and by the `finish` steps, which the invariant ties to their
operations and, INIT's apart, to the gate. -/
theorem panelStateMoves : Obligations.PanelStateMoves := by
  intro s t h ht hne
  rcases step_status ht with ⟨more, hi, rfl⟩ | hk | ⟨rest, more, hs, rfl⟩ | ⟨f, rest, more, hs, rfl⟩ | he
  · exact .inl ⟨rfl, more, hi⟩
  · exact absurd hk.pstate hne
  · obtain ⟨hop, hready⟩ := (seqOk_cons h.seq hs (by simp) (by simp) (by simp) (by simp)).1
    have hbusy : s.busy = true := h.busy.2 (by simp [hs])
    rcases (PState.ready_iff _).1 hready with hp | hp
    · exact .inr (.inr (.inr (.inl ⟨hp, rfl, hop, hbusy⟩)))
    · exact absurd hp.symm hne
  · have hlegal := h.finish_legal hs
    cases f with
    | plain => exact absurd rfl hne
    | initDone p => exact .inr (.inl ⟨rfl, hlegal.1, rfl, rfl⟩)
    | toInitialized =>
      obtain ⟨hop, hready⟩ := hlegal
      rcases (PState.ready_iff _).1 hready with hp | hp
      · exact absurd hp.symm hne
      · exact .inr (.inr (.inl ⟨hp, rfl, hop, rfl, rfl⟩))
    | toAsleep =>
      obtain ⟨hop, hready⟩ := hlegal
      exact .inr (.inr (.inr (.inr ⟨(PState.ready_iff _).1 hready, rfl, hop, rfl, rfl⟩)))
  · exact absurd he.pstate hne

/-! ## Panel commands on the wires (30_encoding.md R110) -/

/-- The parameter bytes of a panel command (41_panel_protocol.md R195, R200 to R213). -/
def State.params (s : State) : Instr → List Byte
  | .driverOutputControl => s.cfg.initDriverOutput
  | .boosterSoftStart => s.cfg.initBooster
  | .dataEntryMode => s.cfg.initDataEntry
  | .vcom => s.cfg.initVcom
  | .lutUpload => s.lut
  | .dummyLinePeriod => s.cfg.initDummyLine
  | .gateTime => s.cfg.initGateTime
  | .addressWindowX => [xaddr s.window.xb0, xaddr s.window.xb1]
  | .addressWindowY => yaddr s.cfg s.window.y0 ++ yaddr s.cfg s.window.y1
  | .cursorX => [xaddr s.window.xb0]
  | .cursorY => yaddr s.cfg s.window.y0
  | .displayUpdateControl => [s.cfg.updateCtrl2]
  | .deepSleep => s.cfg.sleepData
  | _ => []

/-- The meaning of a panel command issues it with its parameters. -/
theorem exec_panelCommand {c : Byte} {i : Instr} (h : decodePanel c = .ok i) (s : State) :
    exec i s = .next (s.issue c (s.params i)) := by
  cases i <;> cases encode_of_decodePanel h <;> rfl

/-- An issued command is one transaction, after which the state is as before but for the wires and the trace. -/
theorem reaches_issue {s : State} (hi : s.inputs = []) (c : Byte) (ps : List Byte) :
    Reaches (s.issue c ps) (afterTxn ((false, c) :: ps.map fun b => (true, b)) s) :=
  transactionOnTheWires (s.issue c ps) _ s.seq hi rfl rfl (List.cons_ne_nil _ _)

/-- A panel command is sent in one transaction with its parameters. -/
theorem panelCommand_sends {s : State} (hi : s.inputs = []) {c : Byte} {i : Instr} {ps : List Byte}
    (hd : decodePanel c = .ok i) (hps : s.params i = ps) :
    ∃ t, exec i s = .next t ∧ Reaches t (afterTxn ((false, c) :: ps.map fun b => (true, b)) s) :=
  ⟨_, exec_panelCommand hd s, hps ▸ reaches_issue hi c _⟩

/-- Settles O41: the seven rows by their bytes and parameters. -/
theorem initCommandsSend : Obligations.InitCommandsSend := by
  intro s hi x hx
  simp only [List.mem_cons, List.not_mem_nil, or_false] at hx
  rcases hx with rfl | rfl | rfl | rfl | rfl | rfl | rfl <;> exact panelCommand_sends hi rfl rfl

/-- The window of the running operation, in numbers (R170, R179). -/
theorem window_eq {s : State} {xb0 xb1 y0 y1 : Nat}
    (h : (s.op = 0x12 ∧ (xb0 : Int) = s.arg0.toInt / 8 ∧ (xb1 : Int) = (s.arg2.toInt + 7) / 8 - 1 ∧
        (y0 : Int) = s.arg1.toInt ∧ (y1 : Int) = s.arg3.toInt) ∨
      (s.op ≠ 0x12 ∧ xb0 = 0 ∧ xb1 = s.cfg.rowBytes - 1 ∧ y0 = 0 ∧ y1 = s.cfg.height - 1)) :
    s.window = ⟨xb0, xb1, y0, y1⟩ := by
  rcases h with ⟨hop, hx0, hx1, hy0, hy1⟩ | ⟨hop, rfl, rfl, rfl, rfl⟩
  · rw [State.window, if_pos hop]
    simp only [rectWindow, State.rect, Rect.xs8, Rect.xe8, floor8, ceil8, sext16, Window.mk.injEq]
    omega
  · exact if_neg hop

/-- Settles O42: as O41; the window and cursor commands take their parameters from `window_eq`. -/
theorem windowAndRefreshCommandsSend : Obligations.WindowAndRefreshCommandsSend := by
  refine ⟨fun s hi x hx => ?_, fun s xb0 xb1 y0 y1 hi hwin x hx => ?_⟩
  · simp only [List.mem_cons, List.not_mem_nil, or_false] at hx
    rcases hx with rfl | rfl | rfl | rfl <;> exact panelCommand_sends hi rfl rfl
  · have hw := window_eq hwin
    simp only [List.mem_cons, List.not_mem_nil, or_false] at hx
    rcases hx with rfl | rfl | rfl | rfl <;>
      exact panelCommand_sends hi rfl (by simp only [State.params, hw, xaddr])

/-! ## Waits (41_panel_protocol.md R166, 10_state.md R46) -/

section Waits
variable {s : State} {rest : List SeqStep}

/-- A sample of a busy panel leads to a delay and the next sample (R166). -/
theorem sequence_sample_busy (hs : s.seq = .sample :: rest) (hb : s.busyIn = s.cfg.busyActive) :
    s.sequence exec = .next
      { s with trace := s.trace ++ [.sample s.busyIn], seq := .delay s.cfg.tPoll :: .sample :: rest } := by
  rw [sequence_sample hs, sampleStep, if_pos hb]

/-- A sample of an idle panel ends the wait (R166). -/
theorem sequence_sample_idle (hs : s.seq = .sample :: rest) (hidle : PanelIdle s) :
    s.sequence exec = .next { s with trace := s.trace ++ [.sample s.busyIn], wait := false, seq := rest } := by
  rw [sequence_sample hs, sampleStep, if_neg hidle]

/-- A count-down takes as many steps as `delay_cnt` says, and at least one. -/
theorem run_countdown {m : Nat} (hi : s.inputs = []) (hs : s.seq = .countdown :: rest) (hm : s.delayCnt - 1 = m) :
    run (m + 1) s = .next { s with delayCnt := 0, seq := rest } := by
  have hstep := (step_seq hi).trans (sequence_countdown hs)
  rw [run_succ hstep]
  induction m generalizing s with
  | zero => rw [countdownStep, if_pos (by omega), run_zero]
  | succ m ih =>
    have htick : countdownStep rest s = { s with delayCnt := s.delayCnt - 1 } := if_neg (by omega)
    have hnext := (step_seq (s := { s with delayCnt := s.delayCnt - 1 }) hi).trans (sequence_countdown hs)
    rw [htick, run_succ hnext]
    exact ih (s := { s with delayCnt := s.delayCnt - 1 }) hi hs (by show s.delayCnt - 1 - 1 = m; omega) hnext

/-- DELAY(t): its event, then its count-down. -/
theorem run_delay {t : Nat} (hi : s.inputs = []) (hs : s.seq = .delay t :: rest) :
    run (t - 1 + 2) s = .next { s with trace := s.trace ++ [.delay t], delayCnt := 0, seq := rest } := by
  rw [run_succ ((step_seq hi).trans (sequence_delay hs))]
  exact run_countdown hi rfl rfl

/-- One poll of a busy panel (R166): SAMPLE, DELAY(T_POLL), and back at the loop. -/
theorem run_poll (hi : s.inputs = []) (hs : s.seq = .sample :: rest) (hb : s.busyIn = s.cfg.busyActive) :
    run (s.cfg.tPoll - 1 + 3) s =
      .next { s with trace := s.trace ++ [.sample s.busyIn, .delay s.cfg.tPoll], delayCnt := 0 } := by
  rw [run_succ ((step_seq hi).trans (sequence_sample_busy hs hb))]
  refine Eq.trans (run_delay ?_ rfl) ?_
  · exact hi
  · simp [← hs]

/-- The state after `n` polls of a busy panel. -/
def State.afterPolls (s : State) (n : Nat) : State :=
  { s with
    trace := s.trace ++ (List.replicate n [TraceEvent.sample s.busyIn, .delay s.cfg.tPoll]).flatten
    delayCnt := if n = 0 then s.delayCnt else 0 }

theorem run_polls (hi : s.inputs = []) (hs : s.seq = .sample :: rest) (hb : s.busyIn = s.cfg.busyActive) (n : Nat) :
    run (n * (s.cfg.tPoll - 1 + 3)) s = .next (s.afterPolls n) := by
  induction n with
  | zero => simp [State.afterPolls]
  | succ n ih =>
    rw [Nat.succ_mul, run_add ih, show s.cfg.tPoll = (s.afterPolls n).cfg.tPoll from rfl,
      run_poll (s := s.afterPolls n) hi hs hb]
    simp [State.afterPolls, List.replicate_succ', List.flatten_append]

end Waits

/-- Where WaitIdle stands in its loop, on a panel that stays busy and beside no one else: `s` but for the sequencer, the
count-down and the trace. -/
structure Polling (s u : State) : Prop where
  frame : u = { s with seq := u.seq, delayCnt := u.delayCnt, trace := u.trace }
  seq : ∃ rest, u.seq = .sample :: rest ∨ (∃ t, u.seq = .delay t :: .sample :: rest) ∨
    u.seq = .countdown :: .sample :: rest

/-- The loop of WaitIdle on a busy panel has no exit. -/
theorem Polling.step {s u v : State} (h : Polling s u) (hi : s.inputs = []) (hb : s.busyIn = s.cfg.busyActive)
    (hv : step u = .next v) : Polling s v := by
  obtain ⟨hframe, rest, hs | ⟨t, hs⟩ | hs⟩ := h
  all_goals
    have hui : u.inputs = [] := by rw [hframe]; exact hi
    rw [step_seq hui] at hv
  · have hub : u.busyIn = u.cfg.busyActive := by rw [hframe]; exact hb
    rw [sequence_sample_busy hs hub] at hv
    cases hv
    exact ⟨by rw [hframe], rest, .inr (.inl ⟨_, rfl⟩)⟩
  · rw [sequence_delay hs] at hv
    cases hv
    exact ⟨by rw [hframe], rest, .inr (.inr rfl)⟩
  · rw [sequence_countdown hs, countdownStep] at hv
    split at hv <;> cases hv
    · exact ⟨by rw [hframe], rest, .inl rfl⟩
    · exact ⟨by rw [hframe], rest, .inr (.inr hs)⟩

/-- What every step keeps holds of every state a run reaches. -/
theorem Reaches.keeps {P : State → Prop} (hstep : ∀ a b, P a → Machine.step a = .next b → P b) {s u : State}
    (h : Reaches s u) (hs : P s) : P u := by
  obtain ⟨k, hk⟩ := h
  induction k generalizing s with
  | zero => cases hk; exact hs
  | succ k ih =>
    cases ht : Machine.step s with
    | next t => rw [run_succ ht] at hk; exact ih (hstep s t hs ht) hk
    | fault r => simp [run, ht] at hk
    | refused r => simp [run, ht] at hk

/-- Settles O50: the polls by `run_polls`; `Polling` is kept by every step and holds BUSY and WAIT at 1. -/
theorem waitIdleHangs : Obligations.WaitIdleHangs := by
  intro s rest hi hs hb hbusy hwait
  refine ⟨fun n => ⟨_, run_polls hi hs hb n⟩, fun u hu => ?_⟩
  have hstart : Polling s s := ⟨rfl, rest, .inl hs⟩
  obtain ⟨hframe, -⟩ : Polling s u := hu.keeps (fun a b ha => ha.step hi hb) hstart
  rw [hframe]
  exact ⟨hbusy, hwait, rfl, rfl⟩

/-- A run of the sequencer alone, scheduled step by step. -/
theorem run_scheduled {n : Nat} {s u : State} (hi : s.inputs = []) (hu : run n s = .next u) (more : List Input) :
    run n { s with inputs := List.replicate n .seqStep ++ more } = .next { u with inputs := more } := by
  induction n generalizing s with
  | zero => cases hu; rfl
  | succ n ih =>
    cases ht : step s with
    | next t =>
      rw [run_succ ht] at hu
      rw [step_seq hi] at ht
      have hf := sequence_frame ht
      have hstep : step { s with inputs := List.replicate (n + 1) .seqStep ++ more } =
          .next { t with inputs := List.replicate n .seqStep ++ more } := by
        refine (step_scheduled s .seqStep _).trans ((sequence_withHost s _ s.reads).trans ?_)
        rw [ht, ← hf.reads]
        rfl
      rw [run_succ hstep]
      exact ih (hf.inputs.trans hi) hu
    | fault r => simp [run, ht] at hu
    | refused r => simp [run, ht] at hu

/-- The panel goes idle, and the loop of WaitIdle ends at its next sample (R166). -/
theorem reaches_wait_end {s : State} {rest : List SeqStep} {v : Level} (hi : s.inputs = [.panelBusy v])
    (hs : s.seq = .sample :: rest) (hv : v ≠ s.cfg.busyActive) :
    Reaches s { s with inputs := [], busyIn := v, wait := false, seq := rest, trace := s.trace ++ [.sample v] } := by
  have hsample : step { s with inputs := [], busyIn := v } = _ := (step_seq rfl).trans (sequence_sample_idle hs hv)
  exact Reaches.head (step_input hi) (Reaches.step hsample)

/-- Settles O51: WaitIdle's first step and `n` polls of the sequencer, scheduled; the panel's move; the idle sample. -/
theorem waitIdlePolls : Obligations.WaitIdlePolls := by
  intro s rest n hc hs hb hi
  obtain ⟨-, -, -, -, -, -, -, hpoll, -⟩ := hc
  have hwait : step { s with inputs := [] } = .next { s with inputs := [], wait := true, seq := .sample :: rest } :=
    (step_seq rfl).trans (sequence_waitIdle hs)
  have halone := run_polls (s := { s with inputs := [], wait := true, seq := .sample :: rest }) rfl rfl hb n
  have hrun := run_scheduled rfl ((run_succ hwait _).trans halone) [.panelBusy (!s.cfg.busyActive)]
  have hticks : n * (s.cfg.tPoll - 1 + 3) + 1 = 1 + n * (2 + s.cfg.tPoll) := by
    rw [show s.cfg.tPoll - 1 + 3 = 2 + s.cfg.tPoll by omega, Nat.add_comm]
  simp only [hticks, ← hi] at hrun
  refine ⟨_, Reaches.trans ⟨_, hrun⟩ (reaches_wait_end rfl rfl (by simp [State.afterPolls])),
    rfl, rfl, rfl, rfl, rfl, rfl, rfl, ?_⟩
  simp only [State.afterPolls, hb]

/-! ## Operations as runs between their steps (41_panel_protocol.md R165 to R195) -/

/-- The fields the framer and the waits use as they go, and which no statement about an operation's end speaks of. -/
structure Scratch where
  byteCnt : Nat
  bitCnt : Nat
  delayCnt : Nat
  dc : Level
  mosi : Level
  busTime : Nat

/-- The scratch fields of a state. -/
def State.scratch (s : State) : Scratch := ⟨s.byteCnt, s.bitCnt, s.delayCnt, s.dc, s.mosi, s.busTime⟩

/-- `s` between two steps of an operation: the steps `l` to run, the trace `tr`, the outputs idle
(40_bus_framer.md R133), and the scratch fields `x`. -/
def State.between (s : State) (l : List SeqStep) (tr : List TraceEvent) (x : Scratch) : State :=
  { s with
    seq := l, trace := tr, phase := .csLow, csN := true, sclk := false, byteCnt := x.byteCnt, bitCnt := x.bitCnt,
    delayCnt := x.delayCnt, dc := x.dc, mosi := x.mosi, busTime := x.busTime }

/-- Between steps, the sequencer runs from `s` with the steps `l` ahead to `s'` with `l'` ahead and emits `ev`. -/
def Runs (s : State) (l : List SeqStep) (ev : List TraceEvent) (s' : State) (l' : List SeqStep) : Prop :=
  ∀ tr x, ∃ x', Reaches (s.between l tr x) (s'.between l' (tr ++ ev) x')

theorem Runs.trans {s s' s'' : State} {l l' l'' : List SeqStep} {ev ev' : List TraceEvent} (h : Runs s l ev s' l')
    (h' : Runs s' l' ev' s'' l'') : Runs s l (ev ++ ev') s'' l'' := by
  intro tr x
  obtain ⟨y, hy⟩ := h tr x
  obtain ⟨z, hz⟩ := h' (tr ++ ev) y
  exact ⟨z, List.append_assoc tr ev ev' ▸ hy.trans hz⟩

/-- Steps that emit nothing, before others. -/
theorem Runs.silent {s s' s'' : State} {l l' l'' : List SeqStep} {ev : List TraceEvent} (h : Runs s l [] s' l')
    (h' : Runs s' l' ev s'' l'') : Runs s l ev s'' l'' :=
  h.trans h'

/-- One step of the sequencer that leaves the scratch fields. -/
theorem Runs.of_sequence {s s' : State} {l l' : List SeqStep} {ev : List TraceEvent} (hi : s.inputs = [])
    (h : ∀ tr x, (s.between l tr x).sequence exec = .next (s'.between l' (tr ++ ev) x)) : Runs s l ev s' l' :=
  fun tr x => ⟨x, Reaches.step ((step_seq (s := s.between l tr x) hi).trans (h tr x))⟩

/-- A step of the sequencer that emits nothing and leaves the scratch fields. -/
theorem Runs.of_silent {s s' : State} {l l' : List SeqStep} (hi : s.inputs = [])
    (h : ∀ tr x, (s.between l tr x).sequence exec = .next (s'.between l' tr x)) : Runs s l [] s' l' :=
  Runs.of_sequence hi fun tr x => by rw [List.append_nil]; exact h tr x

/-! ### The primitives -/

section Primitives
variable {s : State} (hi : s.inputs = []) (l : List SeqStep)
include hi

/-- A transaction (40_bus_framer.md R132). -/
theorem runs_txn {p : Payload} (hp : p.Legal s.cfg) : Runs s (.txn p :: l) (txnEvents (p.content s)) s l := by
  intro tr x
  have hrun := transactionOnTheWires (s.between (.txn p :: l) tr x) p l hi rfl rfl hp
  have hcontent : p.content (s.between (.txn p :: l) tr x) = p.content s := content_congr p rfl rfl rfl
  rw [hcontent] at hrun
  exact ⟨(afterTxn (p.content s) (s.between (.txn p :: l) tr x)).scratch, hrun⟩

/-- A panel command (R195, R200 to R213). -/
theorem runs_panel {c : Byte} {i : Instr} (hd : decodePanel c = .ok i) :
    Runs s (.panel c :: l) (cmdEvents c (s.params i)) s l := by
  refine Runs.silent (Runs.of_silent hi fun tr x => ?_) (runs_txn hi l (p := .bytes _) (List.cons_ne_nil _ _))
  have hparams : (s.between l tr x).params i = s.params i := by cases i <;> rfl
  rw [sequence_panel rfl hd, exec_panelCommand hd]
  exact congrArg (fun ps => Host.Outcome.next ((s.between l tr x).issue c ps)) hparams

/-- RST_N <- v (R165). -/
theorem runs_rst (v : Level) : Runs s (.rst v :: l) [.rst v] { s with rstN := v } l :=
  Runs.of_sequence hi fun _ _ => sequence_rst rfl

/-- DELAY(t). -/
theorem runs_delay (t : Nat) : Runs s (.delay t :: l) [.delay t] s l :=
  fun tr x => ⟨{ x with delayCnt := 0 }, _, run_delay (s := s.between (.delay t :: l) tr x) hi rfl⟩

/-- `PanelReset()` (R165). -/
theorem runs_panelReset (c : Config) (hr : s.rstN = true) : Runs s (panelReset c ++ l) (panelResetEvents c) s l := by
  have hback : { s with rstN := true } = s := by rw [← hr]
  have hrun := runs_rst hi _ false
    |>.trans (runs_delay (s := { s with rstN := false }) hi _ c.tRstAssert)
    |>.trans (runs_rst (s := { s with rstN := false }) hi _ true)
    |>.trans (runs_delay (s := { s with rstN := true }) hi l c.tRstRelease)
  rwa [hback] at hrun

/-- WaitIdle on an idle panel takes one sample (R166). -/
theorem runs_waitIdle (hw : s.wait = false) (hidle : PanelIdle s) : Runs s (.waitIdle :: l) [.sample s.busyIn] s l := by
  have hback : { s with wait := false } = s := by rw [← hw]
  have hrun : Runs s (.waitIdle :: l) [.sample s.busyIn] { s with wait := false } l :=
    Runs.silent (s' := { s with wait := true }) (l' := .sample :: l)
      (Runs.of_silent hi fun _ _ => sequence_waitIdle rfl)
      (Runs.of_sequence hi fun _ _ => sequence_sample_idle rfl hidle)
  rwa [hback] at hrun

/-- `SetWindow` and `SetCursor` on an idle panel, with the window of the running operation (R167, R168). -/
theorem runs_windowCursor (hw : s.wait = false) (hidle : PanelIdle s) :
    Runs s (windowCursor ++ l) (windowCursorEvents s.cfg s.window s.busyIn) s l :=
  runs_panel hi _ (i := .addressWindowX) rfl
    |>.trans (runs_panel hi _ (i := .addressWindowY) rfl)
    |>.trans (runs_panel hi _ (i := .cursorX) rfl)
    |>.trans (runs_panel hi _ (i := .cursorY) rfl)
    |>.trans (runs_waitIdle hi l hw hidle)

/-- The common beginning of the three frame transfers: window and cursor, then write-RAM (R170, R195). -/
theorem runs_frameStart (hw : s.wait = false) (hidle : PanelIdle s) :
    Runs s (windowCursor ++ .panel 0x24 :: l)
      (windowCursorEvents s.cfg s.window s.busyIn ++ cmdEvents 0x24 []) s l :=
  (runs_windowCursor hi _ hw hidle).trans (runs_panel hi l (i := .writeRam) rfl)

end Primitives

/-! ### The end of an operation -/

/-- An operation in a quiet state that runs to its `finish` ends by `done` with the events of the run. Of the rest, the
run may have changed the row count and PSTATE. -/
theorem Runs.ends {s : State} {i : Instr} {l rest : List SeqStep} {ev : List TraceEvent} {f : Finish} {k : Nat}
    {ps : PState} (h : Quiet s) (hexec : exec i s = .next (s.load l))
    (hrun : Runs { s with rowCnt := 0 } l ev { s with rowCnt := k, pstate := ps } (.finish f :: rest)) :
    ∃ t u, exec i s = .next t ∧ Reaches t u ∧
      EndedWith s u ev (({ s with pstate := ps } : State).finish f).pstate
        (({ s with pstate := ps } : State).finish f).mode := by
  have hload : s.load l = ({ s with rowCnt := 0 } : State).between l s.trace s.scratch := by
    simp only [State.load, State.between, State.scratch, ← h.csN, ← h.sclk]
  obtain ⟨x, hx⟩ := hrun s.trace s.scratch
  have hdone := (step_seq (s := State.between { s with rowCnt := k, pstate := ps } (.finish f :: rest)
    (s.trace ++ ev) x) h.inputs).trans (sequence_finish rfl)
  refine ⟨_, _, hexec, hload ▸ hx.trans (Reaches.step hdone), ?_⟩
  cases f <;> exact
    { trace := rfl, pstate := rfl, mode := rfl, busy := rfl, wait := h.wait, err := rfl, seq := rfl, csN := rfl,
      sclk := rfl, rstN := h.rstN, ovr := rfl, busyIn := rfl, result := rfl, arg0 := rfl, arg1 := rfl, arg2 := rfl,
      arg3 := rfl, list := rfl, fb := rfl, op := rfl, imm := rfl, cfg := rfl, reads := rfl, inputs := rfl,
      resets := rfl, draws := rfl }

/-! ## The panel operations (41_panel_protocol.md R185 to R190) -/

/-- The events of INIT, with the LUT of the latched flag (R185, R204). -/
theorem initEvents_latched (s : State) :
    initEvents s.cfg (modeOfFlag (s.imm.getLsbD 0)) =
      panelResetEvents s.cfg ++ cmdEvents 0x01 s.cfg.initDriverOutput ++ cmdEvents 0x0C s.cfg.initBooster ++
      cmdEvents 0x2C s.cfg.initVcom ++ cmdEvents 0x3A s.cfg.initDummyLine ++ cmdEvents 0x3B s.cfg.initGateTime ++
      cmdEvents 0x11 s.cfg.initDataEntry ++ cmdEvents 0x32 s.lut := by
  unfold initEvents State.lut flagOf
  cases s.imm.getLsbD 0 <;> rfl

/-- The run of INIT (R185). -/
theorem runs_init {s : State} (hi : s.inputs = []) (hr : s.rstN = true) :
    Runs s (initSteps s.cfg (modeOfFlag (s.imm.getLsbD 0))) (initEvents s.cfg (modeOfFlag (s.imm.getLsbD 0))) s
      [.finish (.initDone (modeOfFlag (s.imm.getLsbD 0)))] := by
  rw [initEvents_latched]
  exact runs_panelReset hi _ s.cfg hr
    |>.trans (runs_panel hi _ (i := .driverOutputControl) rfl)
    |>.trans (runs_panel hi _ (i := .boosterSoftStart) rfl)
    |>.trans (runs_panel hi _ (i := .vcom) rfl)
    |>.trans (runs_panel hi _ (i := .dummyLinePeriod) rfl)
    |>.trans (runs_panel hi _ (i := .gateTime) rfl)
    |>.trans (runs_panel hi _ (i := .dataEntryMode) rfl)
    |>.trans (runs_panel hi _ (i := .lutUpload) rfl)

/-- Settles O43: the run of INIT, loaded in every panel state. -/
theorem initRuns : Obligations.InitRuns := by
  refine ⟨fun w hw => decode_of_opField hw, ?_⟩
  rintro _ s h - rfl
  exact Runs.ends h rfl (runs_init (s := { s with rowCnt := 0 }) h.inputs h.rstN)

/-- Settles O48: one command, no wait. -/
theorem sleepRuns : Obligations.SleepRuns := by
  refine ⟨fun w hw => decode_of_opField hw, fun s h hp => ?_⟩
  exact Runs.ends h (congrArg _ (gated_ready hp _))
    (runs_panel (s := { s with rowCnt := 0 }) h.inputs [.finish .toAsleep] (i := .deepSleep) rfl)

/-- The run of DISPLAY_FRAME on an idle panel (R189): PSTATE moves before the wait. -/
theorem runs_displayFrame {s : State} (hi : s.inputs = []) (hw : s.wait = false) (hidle : PanelIdle s) :
    Runs s displayFrameSteps (cmdEvents 0x22 [s.cfg.updateCtrl2] ++ cmdEvents 0x20 [] ++ [.sample s.busyIn])
      { s with pstate := .displaying } [.finish .plain] := by
  have hdisplaying : Runs s [.setDisplaying, .waitIdle, .finish .plain] [] { s with pstate := .displaying }
      [.waitIdle, .finish .plain] := Runs.of_silent hi fun _ _ => sequence_setDisplaying rfl
  exact runs_panel hi _ (i := .displayUpdateControl) rfl
    |>.trans (runs_panel hi _ (i := .activate) rfl)
    |>.trans (hdisplaying.silent (runs_waitIdle (s := { s with pstate := .displaying }) hi _ hw hidle))

/-- Settles O47: the run of DISPLAY_FRAME past its gate; PSTATE stays where `setDisplaying` put it. -/
theorem displayFrameRuns : Obligations.DisplayFrameRuns := by
  refine ⟨fun w hw => decode_of_opField hw, fun s h hp hidle => ?_⟩
  exact Runs.ends h (congrArg _ (gated_ready hp _))
    (runs_displayFrame (s := { s with rowCnt := 0 }) h.inputs h.wait hidle)

/-! ### Frame transfers (R179, R187, R188) -/

/-- Every operation but SET_FRAME_RECT works on the whole panel (R170). -/
theorem window_full {s : State} (h : s.op ≠ 0x12) : s.window = ⟨0, s.cfg.rowBytes - 1, 0, s.cfg.height - 1⟩ :=
  if_neg h

/-- A transfer of the whole panel on an idle panel: window and cursor, write-RAM, then one transaction. -/
theorem runs_fullFrame {s : State} {p : Payload} (h : Quiet s) (hop : s.op ≠ 0x12) (hidle : PanelIdle s)
    (hlegal : p.Legal s.cfg) :
    Runs { s with rowCnt := 0 } (windowCursor ++ [.panel 0x24, .txn p, .finish .toInitialized])
      (windowCursorEvents s.cfg ⟨0, s.cfg.rowBytes - 1, 0, s.cfg.height - 1⟩ s.busyIn ++ cmdEvents 0x24 [] ++
        txnEvents (p.content s))
      { s with rowCnt := 0 } [.finish .toInitialized] := by
  rw [← window_full hop]
  exact (runs_frameStart (s := { s with rowCnt := 0 }) h.inputs _ h.wait hidle).trans
    (runs_txn (s := { s with rowCnt := 0 }) h.inputs _ hlegal)

/-- Settles O44: the transaction is the whole FB. -/
theorem setFrameFullRuns : Obligations.SetFrameFullRuns := by
  refine ⟨fun w hw => decode_of_opField hw, fun s h hc hop hp hidle => ?_⟩
  obtain ⟨hrow, hheight, -, hfb⟩ := cfg_facts hc
  have hlegal : (Payload.fbData 0 s.cfg.fbBytes).Legal s.cfg :=
    ⟨hfb ▸ Nat.mul_pos hrow hheight, (Nat.zero_add _).le⟩
  exact Runs.ends h (congrArg _ (gated_ready hp _)) (runs_fullFrame h (by simp [hop]) hidle hlegal)

/-- Settles O46: the transaction is the fill byte, ROW_BYTES * H times. -/
theorem clearFrameRuns : Obligations.ClearFrameRuns := by
  refine ⟨fun w hw => decode_of_opField hw, fun col s h hc hop hp hidle => ?_⟩
  obtain ⟨hrow, hheight, -, -⟩ := cfg_facts hc
  have hlegal : (Payload.repeated (colourFill col) (s.cfg.rowBytes * s.cfg.height)).Legal s.cfg :=
    Nat.mul_pos hrow hheight
  have hbytes : txnEvents (Payload.content s (.repeated (colourFill col) (s.cfg.rowBytes * s.cfg.height))) =
      dataEvents (List.replicate (s.cfg.rowBytes * s.cfg.height) (colourFill col)) := by
    rw [dataEvents, List.map_replicate, Payload.content]
  have hrun := runs_fullFrame h (by simp [hop]) hidle hlegal
  rw [hbytes] at hrun
  cases col <;> exact Runs.ends h (congrArg _ (gated_ready hp _)) hrun

/-! ### SET_FRAME_RECT (R179, R180, R182) -/

/-- A rectangle of natural coordinates. -/
def Rect.ofNat (xs ys xe ye : Nat) : Rect := ⟨xs, ys, xe, ye⟩

/-- The checks of R175 to R178 pass for a rectangle in order, inside the panel, and not empty. -/
theorem rectCheck_ofNat {c : Config} {xs ys xe ye : Nat} (hx : xs ≤ xe) (hy : ys ≤ ye)
    (hright : 8 * ((xe + 7) / 8) ≤ c.width) (hlow : ye < c.height) (hne : ¬(xs = xe ∧ xs % 8 = 0)) :
    rectCheck c (.ofNat xs ys xe ye) = .ok := by
  have hm : ¬(Rect.ofNat xs ys xe ye).Malformed := by
    simp only [Rect.Malformed, Rect.ofNat]
    omega
  have ho : ¬(Rect.ofNat xs ys xe ye).OutOfBounds c := by
    rw [Rect.outOfBounds_iff hm]
    simp only [Rect.ofNat]
    omega
  have hw : ¬(Rect.ofNat xs ys xe ye).width = 0 := by
    rw [Rect.width_eq_zero_iff (by simpa [Rect.ofNat] using hx)]
    simp only [Rect.ofNat]
    omega
  rw [rectCheck, if_neg hm, if_neg ho, if_neg hw]

theorem height_ofNat {xs ys xe ye : Nat} (hy : ys ≤ ye) :
    (Rect.ofNat xs ys xe ye).height = ((ye - ys + 1 : Nat) : Int) := by
  simp only [Rect.height, Rect.ofNat]
  omega

theorem rowLen_ofNat {xs ys xe ye : Nat} : (Rect.ofNat xs ys xe ye).rowLen = (xe + 7) / 8 - xs / 8 := by
  simp only [Rect.rowLen, Rect.width, Rect.xe8, Rect.xs8, floor8, ceil8, Rect.ofNat]
  omega

theorem rowBase_ofNat {xs ys xe ye : Nat} (c : Config) (k : Nat) :
    (Rect.ofNat xs ys xe ye).rowBase c k = (ys + k) * c.rowBytes + xs / 8 := by
  have hcol : (Rect.ofNat xs ys xe ye).xs8 / 8 = ((xs / 8 : Nat) : Int) := by
    simp only [Rect.xs8, floor8, Rect.ofNat]
    omega
  rw [Rect.rowBase, hcol]
  simp only [Rect.ofNat]
  norm_cast

/-- The events of the rows of the rectangle, in natural numbers. -/
theorem rowEvents_ofNat (s : State) {xs ys xe ye : Nat} (hy : ys ≤ ye) :
    rowEvents s (.ofNat xs ys xe ye) = (List.range (ye - ys + 1)).flatMap fun r =>
      dataEvents (s.fbSlice ((ys + r) * s.cfg.rowBytes + xs / 8) ((xe + 7) / 8 - xs / 8)) := by
  simp only [rowEvents, height_ofNat hy, Int.toNat_natCast, rowLen_ofNat, rowBase_ofNat]

/-- The row loop from row `k`, with `n` rows to send (R179). -/
theorem runs_rows {s : State} (hi : s.inputs = []) (hc : s.cfg.WellFormed) (hcheck : rectCheck s.cfg s.rect = .ok)
    (l : List SeqStep) {n k : Nat} (hn : s.rect.height = ((k + n : Nat) : Int)) :
    Runs { s with rowCnt := k } (.rowLoop :: l)
      ((List.range' k n).flatMap fun r => dataEvents (s.fbSlice (s.rect.rowBase s.cfg r) s.rect.rowLen))
      { s with rowCnt := k + n } l := by
  induction n generalizing k with
  | zero =>
    refine Runs.of_silent hi fun tr x => (sequence_rowLoop rfl).trans (congrArg _ (if_neg ?_))
    show ¬(k : Int) < s.rect.height
    omega
  | succ n ih =>
    have hk : (k : Int) < s.rect.height := by omega
    have hturn : Runs { s with rowCnt := k } (.rowLoop :: l) [] { s with rowCnt := k + 1 }
        (.txn (.fbData (s.rect.rowBase s.cfg k) s.rect.rowLen) :: .rowLoop :: l) :=
      Runs.of_silent hi fun tr x => (sequence_rowLoop rfl).trans (congrArg _ (if_pos hk))
    have hrow := runs_txn (s := { s with rowCnt := k + 1 }) hi (.rowLoop :: l) (rowPayload_legal hc hcheck hk)
    have hrest := ih (k := k + 1) (by omega)
    rw [List.range'_succ, List.flatMap_cons, show k + (n + 1) = k + 1 + n by omega]
    exact hturn.silent (hrow.trans hrest)

/-- Settles O45: the checks pass, so the rows of the rounded rectangle follow its window and cursor. -/
theorem setFrameRectRuns : Obligations.SetFrameRectRuns := by
  refine ⟨fun w hw => decode_of_opField hw, ?_⟩
  intro s xs ys xe ye h hc hop hp hidle h0 h1 h2 h3 hx hy hright hlow hne
  have hrect : s.rect = .ofNat xs ys xe ye := by
    rw [State.rect, Rect.ofNat, ← h0, ← h1, ← h2, ← h3]
    rfl
  have hcheck : rectCheck s.cfg s.rect = .ok := hrect ▸ rectCheck_ofNat hx hy hright hlow hne
  have hwin : s.window = ⟨xs / 8, (xe + 7) / 8 - 1, ys, ye⟩ := window_eq (.inl ⟨hop, by omega⟩)
  have hexec : exec .setFrameRect s = .next (s.load setFrameRectSteps) := by
    rw [exec_setFrameRect_ready hp, if_pos hcheck]
  have hrows := runs_rows h.inputs hc hcheck [.finish .toInitialized] (k := 0) (n := ye - ys + 1)
    (by rw [hrect, height_ofNat hy, Nat.zero_add])
  have hstart := runs_frameStart (s := { s with rowCnt := 0 }) h.inputs [.rowLoop, .finish .toInitialized] h.wait hidle
  have hend := Runs.ends h hexec (hstart.trans hrows)
  rw [← rowEvents_ofNat s hy, ← hwin, ← hrect, rowEvents, hrect, height_ofNat hy, ← hrect, Int.toNat_natCast,
    List.range_eq_range']
  exact hend

/-! ### The size of a rectangle's trace (R182) -/

/-- A transaction has one CS event of each level. -/
theorem count_cs_txnEvents (v : Level) (l : List (Level × Byte)) : (txnEvents l).count (.cs v) = 1 := by
  have hbytes : (l.map fun x => TraceEvent.byte x.1 x.2).count (.cs v) = 0 := List.count_eq_zero.2 (by simp)
  cases v <;> simp [txnEvents, hbytes]

/-- A transaction has one BYTE event for each of its bytes. -/
theorem countP_isByte_txnEvents (l : List (Level × Byte)) : (txnEvents l).countP TraceEvent.isByte = l.length := by
  simp [txnEvents, TraceEvent.isByte, Function.comp_def]

/-- A transaction has no event but CS and BYTE. -/
theorem countP_txnEvents_eq_zero {q : TraceEvent → Bool} (hcs : ∀ v, q (.cs v) = false)
    (hbyte : ∀ dc b, q (.byte dc b) = false) (l : List (Level × Byte)) : (txnEvents l).countP q = 0 := by
  simp [txnEvents, hcs, hbyte, Function.comp_def]

/-- A frame transfer by rows: window and cursor, write-RAM, and one data transaction for each of `n` rows. -/
def rowFrameEvents (c : Config) (w : Window) (v : Level) (row : Nat → List Byte) (n : Nat) : List TraceEvent :=
  windowCursorEvents c w v ++ cmdEvents 0x24 [] ++ (List.range n).flatMap fun r => dataEvents (row r)

section RowFrame
variable (c : Config) (w : Window) (v : Level) (row : Nat → List Byte) (n : Nat)

/-- Four commands of window and cursor, write-RAM, and the rows. -/
theorem count_cs_rowFrameEvents (level : Level) : (rowFrameEvents c w v row n).count (.cs level) = 5 + n := by
  simp [rowFrameEvents, windowCursorEvents, cmdEvents, dataEvents, List.count_flatMap, Function.comp_def,
    count_cs_txnEvents]
  omega

/-- Five command bytes, three X addresses, three Y addresses of `yb` bytes each, and the rows' `len` bytes each. -/
theorem countP_isByte_rowFrameEvents {yb len : Nat} (hy : ∀ y, (yaddr c y).length = yb)
    (hrow : ∀ r, (row r).length = len) :
    (rowFrameEvents c w v row n).countP TraceEvent.isByte = 8 + 3 * yb + n * len := by
  simp [rowFrameEvents, windowCursorEvents, cmdEvents, dataEvents, List.countP_flatMap, Function.comp_def,
    countP_isByte_txnEvents, TraceEvent.isByte, hy, hrow]
  omega

/-- What is in no transaction is counted by the one sample of the wait. -/
theorem countP_rowFrameEvents {q : TraceEvent → Bool} (hcs : ∀ v, q (.cs v) = false)
    (hbyte : ∀ dc b, q (.byte dc b) = false) :
    (rowFrameEvents c w v row n).countP q = if q (.sample v) then 1 else 0 := by
  simp [rowFrameEvents, windowCursorEvents, cmdEvents, dataEvents, List.countP_flatMap, Function.comp_def,
    countP_txnEvents_eq_zero hcs hbyte, List.countP_cons]

end RowFrame

/-- Settles O58: the events of O45, counted. -/
theorem rectangleTraceLength : Obligations.RectangleTraceLength := by
  intro s xs ys xe ye yb h hc hop hp hidle h0 h1 h2 h3 hx hy hright hlow hne hyb
  obtain ⟨t, u, hexec, hreach, hend⟩ :=
    setFrameRectRuns.2 s xs ys xe ye h hc hop hp hidle h0 h1 h2 h3 hx hy hright hlow hne
  have hylen : ∀ y, (yaddr s.cfg y).length = yb := by
    intro y
    unfold yaddr
    cases hk : s.cfg.yAddrBytes <;> rw [hk] at hyb <;> exact hyb.symm
  have hrow : ∀ i n, (s.fbSlice i n).length = n := fun i n => by simp [State.fbSlice]
  exact ⟨t, u, _, hexec, hreach, hend,
    count_cs_rowFrameEvents _ _ _ _ _ false,
    count_cs_rowFrameEvents _ _ _ _ _ true,
    countP_isByte_rowFrameEvents _ _ _ _ _ hylen fun _ => hrow _ _,
    countP_rowFrameEvents _ _ _ _ _ (fun _ => rfl) fun _ _ => rfl,
    countP_rowFrameEvents _ _ _ _ _ (fun _ => rfl) fun _ _ => rfl⟩

end Sys2Proof.Machine

namespace Sys2Proof.Machine

/-! ## Pixels (20_memory.md R73; 42_framebuffer.md R221, R222) -/

theorem bitIndex_natCast (c : Config) (x y : Nat) : bitIndex c x y = y * c.width + x := by
  unfold bitIndex
  omega

/-- No two pixels in range have the same bit index. -/
theorem bitIndex_inj {c : Config} {x y x' y' : Int} (h : InRange c x y) (h' : InRange c x' y') :
    bitIndex c x y = bitIndex c x' y' ↔ x = x' ∧ y = y' := by
  refine ⟨fun he => ?_, fun ⟨hx, hy⟩ => by rw [hx, hy]⟩
  obtain ⟨hx0, hx, hy0, -⟩ := h
  obtain ⟨hx0', hx', hy0', -⟩ := h'
  lift x to Nat using hx0
  lift y to Nat using hy0
  lift x' to Nat using hx0'
  lift y' to Nat using hy0'
  rw [Nat.cast_lt] at hx hx'
  rw [bitIndex_natCast, bitIndex_natCast] at he
  have hcol : x = x' := by
    simpa [Nat.mul_add_mod_self_right, Nat.mod_eq_of_lt, hx, hx'] using congrArg (· % c.width) he
  subst hcol
  have hrow : y = y' := Nat.eq_of_mul_eq_mul_right (Nat.zero_lt_of_lt hx) (Nat.add_right_cancel he)
  exact ⟨rfl, congrArg _ hrow⟩

theorem bitInByte_lt (i : Nat) : bitInByte i < 8 := by
  unfold bitInByte
  omega

/-- A bit index is known by its byte and its place in that byte. -/
theorem bitPlace_inj {i j : Nat} : byteOfBit i = byteOfBit j ∧ bitInByte i = bitInByte j ↔ i = j := by
  unfold byteOfBit bitInByte
  omega

/-- `putBit` writes its own bit and keeps the other seven. -/
theorem getLsbD_putBit (v : Byte) (b : Bool) {k j : Nat} (hj : j < 8) :
    (putBit v k b).getLsbD j = if j = k then b else v.getLsbD j := by
  simp only [putBit, BitVec.getLsbD_or, BitVec.getLsbD_and, BitVec.getLsbD_not, BitVec.getLsbD_shiftLeft,
    BitVec.getLsbD_setWidth, BitVec.getLsbD_ofBool, BitVec.getLsbD_one, hj]
  rcases lt_trichotomy j k with h | rfl | h
  · simp [h, h.ne]
  · simp
  · simp [h.not_gt, h.ne', Nat.sub_ne_zero_of_lt h]

/-- Every bit of a fill byte is its colour's bit (30_encoding.md R113). -/
theorem getLsbD_colourFill (col : Colour) {k : Nat} (hk : k < 8) : (colourFill col).getLsbD k = colourBit col := by
  cases col with
  | black => exact BitVec.getLsbD_zero
  | white => exact (BitVec.getLsbD_allOnes (v := 8)).trans (decide_eq_true hk)

/-- The bit of FB that holds the pixel (x, y). -/
def State.pixelAt (s : State) (x y : Int) : Bool :=
  (s.fbByte (byteOfBit (bitIndex s.cfg x y))).getLsbD (bitInByte (bitIndex s.cfg x y))

/-! ## GET_PIXEL (42_framebuffer.md R227) -/

theorem pixelValue_of_inRange {s : State} (h : InRange s.cfg (sext16 s.arg0) (sext16 s.arg1)) :
    s.pixelValue = if s.pixelAt (sext16 s.arg0) (sext16 s.arg1) then 1 else 0 := by
  rw [State.pixelValue, if_pos h, ← State.pixelAt]
  cases s.pixelAt (sext16 s.arg0) (sext16 s.arg1) <;> rfl

/-- GET_PIXEL at a pixel in range returns its bit, whatever the argument registers held before. -/
theorem getPixel_inRange {s : State} {x y : Half} (h : InRange s.cfg (sext16 x) (sext16 y)) :
    ∃ u, exec .getPixel { s with arg0 := x, arg1 := y } = .next u ∧
      u.result = if s.pixelAt (sext16 x) (sext16 y) then 1 else 0 :=
  ⟨_, rfl, pixelValue_of_inRange (s := { s with arg0 := x, arg1 := y }) h⟩

/-- Argument registers that hold the naturals `x < W` and `y < H` are in range. -/
theorem inRange_of_natCast {c : Config} {v w : Half} {x y : Nat} (hv : v.toInt = x) (hw : w.toInt = y)
    (hx : x < c.width) (hy : y < c.height) : InRange c (sext16 v) (sext16 w) := by
  unfold sext16
  omega

/-- Settles O55: the value is the pixel's bit in range and the marker 2 elsewhere. -/
theorem getPixelEffect : Obligations.GetPixelEffect := by
  refine ⟨fun w hw => decode_of_opField hw, fun s =>
    ⟨s.pixelValue, rfl, fun x y h0 h1 hx hy => ?_, fun hout => if_neg hout⟩⟩
  rw [pixelValue_of_inRange (inRange_of_natCast h0 h1 hx hy), State.pixelAt, sext16, sext16, h0, h1, bitIndex_natCast]
  rfl

/-! ## SET_PIXEL (42_framebuffer.md R223, R224, R228) -/

/-- Every bit of FB after SET_PIXEL in range: the pixel's own is the colour, the others are kept. -/
theorem getLsbD_fbByte_setPixel {s t : State} {col : Colour} (ht : exec (.setPixel col) s = .next t)
    (h : InRange s.cfg (sext16 s.arg0) (sext16 s.arg1)) (j : Nat) {k : Nat} (hk : k < 8) :
    (t.fbByte j).getLsbD k =
      if j = byteOfBit (bitIndex s.cfg (sext16 s.arg0) (sext16 s.arg1)) ∧
          k = bitInByte (bitIndex s.cfg (sext16 s.arg0) (sext16 s.arg1)) then colourBit col
      else (s.fbByte j).getLsbD k := by
  have hfb : t.fbByte j = s.fbByteOf (s.fbAfterSetPixel col) j := by cases ht; rfl
  rw [hfb, State.fbAfterSetPixel, if_pos h, fbByteOf_write]
  by_cases hj : j = byteOfBit (bitIndex s.cfg (sext16 s.arg0) (sext16 s.arg1))
  · simp [hj, getLsbD_putBit _ _ hk]
  · simp [hj, State.fbByte]

/-- Settles O52: in range the bits are those of `getLsbD_fbByte_setPixel`; out of range there is no write. -/
theorem setPixelEffect : Obligations.SetPixelEffect := by
  refine ⟨fun w hw => decode_of_opField hw, fun col s =>
    ⟨_, rfl, rfl, fun x y h0 h1 hx hy j k hk => ?_, fun hout => if_neg hout⟩⟩
  have hbit := getLsbD_fbByte_setPixel (col := col) rfl (inRange_of_natCast h0 h1 hx hy) j hk
  have hcol : colourBit col = (col == .white) := by cases col <;> rfl
  rwa [hcol, sext16, sext16, h0, h1, bitIndex_natCast] at hbit

/-- SET_PIXEL in range changes its own pixel alone. -/
theorem pixelAt_setPixel {s t : State} {col : Colour} {x y : Half} (ht : exec (.setPixel col) s = .next t)
    (hs : InRange s.cfg (sext16 s.arg0) (sext16 s.arg1)) (hxy : InRange s.cfg (sext16 x) (sext16 y)) :
    t.pixelAt (sext16 x) (sext16 y) =
      if x = s.arg0 ∧ y = s.arg1 then colourBit col else s.pixelAt (sext16 x) (sext16 y) := by
  have hcfg : t.cfg = s.cfg := by cases ht; rfl
  have samePlace := bitPlace_inj.trans ((bitIndex_inj hxy hs).trans (and_congr BitVec.toInt_inj BitVec.toInt_inj))
  rw [State.pixelAt, hcfg, getLsbD_fbByte_setPixel ht hs _ (bitInByte_lt _)]
  exact if_congr samePlace rfl rfl

/-- Settles O53: both reads return the pixel's bit, which SET_PIXEL changes at its own pixel alone. -/
theorem pixelReadBack : Obligations.PixelReadBack := by
  rintro s t col x y x' y' rfl rfl hin hin' ht
  have hcfg : t.cfg = s.cfg := by cases ht; rfl
  obtain ⟨before, hb, hbefore⟩ := getPixel_inRange hin'
  obtain ⟨after, ha, hafter⟩ := getPixel_inRange (s := t) (hcfg.symm ▸ hin')
  refine ⟨before, after, hb, ha, ?_⟩
  rw [hafter, hbefore, pixelAt_setPixel ht hin hin']
  by_cases hsame : x' = s.arg0 ∧ y' = s.arg1
  · rw [if_pos hsame, if_pos hsame]
    cases col <;> rfl
  · rw [if_neg hsame, if_neg hsame]

/-! ## FILL (42_framebuffer.md R225, R229) -/

section Fill
variable {s t : State} {col : Colour} (ht : exec (.fill col) s = .next t)
include ht

theorem fbByte_fill {i : Nat} (h : i < s.cfg.fbBytes) : t.fbByte i = colourFill col := by
  have hfb : t.fbByte i = s.fbByteOf (s.fbAfterFill col) i := by cases ht; rfl
  rw [hfb, State.fbAfterFill, fbByteOf_fill, if_pos h]

/-- After FILL every pixel in range is its colour: the pixel's byte lies in FB. -/
theorem pixelAt_fill {x y : Int} (hc : s.cfg.WellFormed) (h : InRange s.cfg x y) : t.pixelAt x y = colourBit col := by
  have hcfg : t.cfg = s.cfg := by cases ht; rfl
  rw [State.pixelAt, hcfg, fbByte_fill ht (pixelByte_lt hc h), getLsbD_colourFill col (bitInByte_lt _)]

end Fill

/-- Settles O54: every byte is the fill byte, so GET_PIXEL reads the colour's bit at every pixel. -/
theorem fillEffect : Obligations.FillEffect := by
  refine ⟨fun w hw => decode_of_opField hw, fun col s hc => ?_⟩
  obtain ⟨t, ht⟩ : ∃ t, exec (.fill col) s = .next t := ⟨_, rfl⟩
  have hcfg : t.cfg = s.cfg := by cases ht; rfl
  refine ⟨t, ht, by cases ht; rfl, fun i hi => ?_, fun x y (hin : InRange s.cfg (sext16 x) (sext16 y)) => ?_⟩
  · rw [fbByte_fill ht hi]
    cases col <;> rfl
  · obtain ⟨u, hu, hresult⟩ := getPixel_inRange (s := t) (hcfg.symm ▸ hin)
    refine ⟨u, hu, ?_⟩
    rw [hresult, pixelAt_fill ht hc hin]
    cases col <;> rfl

end Sys2Proof.Machine

namespace Sys2Proof.Machine

/-! ## Errors are precise (60_exceptions.md R243) -/

/-- A run of one step is that step. -/
theorem run_one (s : State) : run 1 s = step s := by
  rw [run]
  cases step s <;> rfl

/-- A meaning that answers an ended operation with an error has raised it: a meaning with steps to run leaves the
sequencer busy, and one that ends without an error clears ERR. -/
theorem eq_raise_of_exec_error {i : Instr} {s t : State} (ht : exec i s = .next t) (hend : t.seq = [])
    (herr : t.err ≠ .ok) : t = s.raise t.err := by
  rcases exec_cases i s with
    ⟨e, -, h⟩ | ⟨hsteps, h⟩ | ⟨c, ps, h⟩ | ⟨col, -, h⟩ | ⟨col, -, h⟩ | ⟨v, -, h⟩ <;>
    rw [h] at ht <;> cases ht
  · rfl
  · exact absurd hend hsteps
  · exact absurd hend (List.cons_ne_nil _ _)
  all_goals exact absurd rfl herr

/-- A fetch that ends its operation with an error has raised it: BAD_OP, or an error of the decoded meaning. -/
theorem eq_raise_of_fetch_error {s t : State} {rest : List SeqStep} (ht : s.sequence exec = .next t)
    (hs : s.seq = .fetch :: rest) (hend : t.seq = []) (herr : t.err ≠ .ok) : t = s.raise t.err := by
  cases hd : decodeCmd s.latchedWord with
  | error r =>
    rw [sequence_fetch_reserved hs hd] at ht
    cases ht
    rfl
  | ok i =>
    rw [sequence_fetch hs hd] at ht
    exact eq_raise_of_exec_error (s := { s with seq := rest }) ht hend herr

/-- An error right after its CMD write puts BUSY and the step list of an idle block back: only the latched OP and IMM and
ERR are new. -/
theorem raise_acceptCmd {s : State} (hb : s.busy = false) (hs : s.seq = []) (w : Word) (e : ErrCode) :
    (s.acceptCmd w).raise e = { s with err := e, op := opField w, imm := immField w } := by
  rw [State.acceptCmd, State.raise, ← hb, ← hs]

/-- Settles O32: the first step accepts the CMD write, the second is a fetch that raises. -/
theorem errorsArePrecise : Obligations.ErrorsArePrecise := by
  intro s u a w ha hb hs hi hu hend herr
  have hwrite : step s = .next { s.acceptCmd w with inputs := [] } := by rw [step_hostWrite hi, hostWrite_cmd hb ha]
  rw [run_succ hwrite, run_one, step_seq rfl] at hu
  rw [eq_raise_of_fetch_error hu rfl hend herr]
  exact congrArg (fun t : State => { t with inputs := [] }) (raise_acceptCmd hb hs w u.err)

end Sys2Proof.Machine

namespace Sys2Proof.Machine

/-! ## Block reset (70_reset_and_hazards.md R270, R271) -/

/-- Nothing written since a block reset: each FB byte is that reset's free draw (93 U1). -/
@[simp] theorem blockReset_fbByte (s : State) (i : Nat) : s.blockReset.fbByte i = Config.fbDraw (s.resets + 1) i := rfl

/-- Nothing written since a block reset: each LIST byte is that reset's free draw (93 U2). -/
@[simp] theorem blockReset_listByte (s : State) (i : Nat) :
    s.blockReset.listByte i = Config.listDraw (s.resets + 1) i := rfl

/-- A scheduled block reset acts on the whole state, whatever the sequencer was doing. -/
theorem step_blockReset {s : State} {more : List Input} (hi : s.inputs = .blockReset :: more) :
    step s = .next { s with inputs := more }.blockReset := by
  rw [step_input hi, State.input]

/-- Settles O19: the step is the reset itself. The registers, the outputs and both memories are read off by the rules of
`State.blockReset`; the events added to the trace are `resetEvents`. -/
theorem blockReset : Obligations.BlockReset := by
  intro s more hi
  have htrace : ({ s with inputs := more }.blockReset).trace =
      s.trace ++ (if s.csN then [] else [.cs true]) ++ (if s.rstN then [] else [.rst true]) := by
    rw [blockReset_trace, State.resetEvents, List.append_assoc]
  refine ⟨_, step_blockReset hi, ?_⟩
  rw [htrace]
  simp

end Sys2Proof.Machine
